-- ==== Sys2Proof/Word.lean ====
section
/-! DEFINITION. The widths of the machine's values (00_scope.md R3). Nothing here computes: the byte-order and bit-field
helpers stand in Decode.lean. -/

namespace Sys2Proof

/-- A byte: 8 bits (R3, R7). -/
abbrev Byte := BitVec 8

/-- A 16-bit register, operand or bank offset (R3). -/
abbrev Word := BitVec 16

/-- A 24-bit address, bank in bits 23:16 and offset in bits 15:0 (R3, R50). -/
abbrev Addr := BitVec 24

end Sys2Proof
end

