-- ==== Sys2Proof/Config.lean ====
section
/-! DEFINITION. What an implementation fixes (00_scope.md R3): the size of work RAM, which register opcode 0x9F stores, the cost of
each instruction, and the reset values of the CPU registers. The spec leaves no value free (10_state.md R41,
70_reset_and_hazards.md R210), so there is no opaque constant here. `ROM`, the header strap, `P_9F_SOURCE` and `CYCLES` are
carried in State (assumption 1). -/

namespace Sys2Proof

/-- Which register opcode 0x9F stores: the parameter `P_9F_SOURCE` (R3, 46_store.md R163, 90_conflicts.md C1). -/
inductive P9FSource where
  /-- The document's reading, the default: `X` at the index width. -/
  | x
  /-- The standard 65816 reading: `A` at the accumulator width. -/
  | a
deriving DecidableEq, Repr

/-- The arguments of the cost function `CYCLES(op, wA, wX, E, taken)`, a width being whether it is 16 bits
(70_reset_and_hazards.md R215). -/
structure CycleKey where
  op : Byte
  acc16 : Bool
  idx16 : Bool
  e : Bool
  taken : Bool
deriving DecidableEq, Repr

/-- The parameter `CYCLES` as plain data (R3): the arguments at which it is not the default table of R215, each with the cost it has
there. Its arguments are finitely many, so every cost function is such a list (assumption 6). -/
abbrev CycleTable := List (CycleKey × Nat)

/-- The parameter `RESET_REGS`: what reset puts into the CPU registers (R3, 93_implementation_defined.md U7). -/
structure ResetRegs where
  a : Word
  x : Word
  y : Word
  sp : Word
  d : Word
  dbr : Byte
  p : Byte
  e : Bool
deriving DecidableEq, Repr

namespace Config

/-- `WRAM_SIZE`: 0x20000 bytes (R3, 20_memory.md R54). -/
def wramSize : Nat := 0x20000

/-- The default of `P_9F_SOURCE` (R3). -/
def p9fDefault : P9FSource := .x

/-- The default of `CYCLES` (R3): the default table everywhere. -/
def cyclesDefault : CycleTable := []

/-- The default of `RESET_REGS` (10_state.md R40; the spec's own decision D6, assumption 4). -/
def resetRegs : ResetRegs :=
  { a := 0x0000, x := 0x0000, y := 0x0000, sp := 0x01FF, d := 0x0000, dbr := 0x00, p := 0x34, e := true }

end Config
end Sys2Proof
end

