-- ==== Sys2Proof/Syntax.lean ====
section
/-! DEFINITION. The forty instructions (30_encoding.md R93), one constructor per row of spec/opcode_table.json, with the operand
the row's format gives it (R90). An immediate at a run-time width is held zero-extended to 16 bits, as R92 says it is before the
instruction sees it. -/

namespace Sys2Proof

/-- The active widths that govern decoding (10_state.md R20, 30_encoding.md R96): is the accumulator, are the index registers,
16 bits wide? -/
structure Widths where
  acc16 : Bool
  idx16 : Bool
deriving DecidableEq, Repr

/-- The implemented set (R93), in ascending order of the opcode byte. -/
inductive Instr where
  | php
  | phd
  | bpl (rel : Byte)
  | clc
  | tcs
  | jsr (addr : Word)
  | sec
  | pha
  | phk
  | cli
  | phy
  | tcd
  | sei
  | bra (rel : Byte)
  | dey
  | phb
  | staAbs (addr : Word)
  | staLong (addr : Addr)
  | tya
  | stzAbs (addr : Word)
  | stxLongX (base : Addr)
  | ldyImm (imm : Word)
  | ldxImm (imm : Word)
  | tay
  | ldaImm (imm : Word)
  | tax
  | ldaDpily (dp : Byte)
  | clv
  | rep (mask : Byte)
  | iny
  | dex
  | cmpAbs (addr : Word)
  | bne (rel : Byte)
  | cld
  | phx
  | sep (mask : Byte)
  | inx
  | sbcImm (imm : Word)
  | sed
  | xce
deriving DecidableEq, Repr

end Sys2Proof
end

