-- ==== Sys2Proof/WellFormed.lean ====
section
/-! DEFINITION. Which instructions the encoding can hold at given widths. Operand bytes have no reserved values (30_encoding.md
R95), so the only checks are on the four immediates at a run-time width: at width 8 the operand is one byte, zero-extended (R92). -/

namespace Sys2Proof

/-- An immediate fits its operand bytes: any value at width 16, a zero-extended byte at width 8 (R92). -/
def immFits (w16 : Bool) (imm : Word) : Bool := w16 || decide (imm.toNat < 0x100)

/-- The well-formed instructions at the widths `wd`. -/
def Instr.wellFormed (wd : Widths) : Instr → Bool
  | .php => true
  | .phd => true
  | .bpl _ => true
  | .clc => true
  | .tcs => true
  | .jsr _ => true
  | .sec => true
  | .pha => true
  | .phk => true
  | .cli => true
  | .phy => true
  | .tcd => true
  | .sei => true
  | .bra _ => true
  | .dey => true
  | .phb => true
  | .staAbs _ => true
  | .staLong _ => true
  | .tya => true
  | .stzAbs _ => true
  | .stxLongX _ => true
  | .ldyImm imm => immFits wd.idx16 imm
  | .ldxImm imm => immFits wd.idx16 imm
  | .tay => true
  | .ldaImm imm => immFits wd.acc16 imm
  | .tax => true
  | .ldaDpily _ => true
  | .clv => true
  | .rep _ => true
  | .iny => true
  | .dex => true
  | .cmpAbs _ => true
  | .bne _ => true
  | .cld => true
  | .phx => true
  | .sep _ => true
  | .inx => true
  | .sbcImm imm => immFits wd.acc16 imm
  | .sed => true
  | .xce => true

end Sys2Proof
end

