-- ==== Sys2Proof/Decode.lean ====
section
/-! DEFINITION. The unit DEC (30_encoding.md): the opcode map (R93), operand assembly (R92), instruction length (R96), a decoder
that is total on any bytes and rejects by name, and the encoder written from the same tables. The byte values are the ones R93
adopts (92_eei_decisions.md D2). -/

namespace Sys2Proof

/-! ### Byte order and fields (20_memory.md R67, 00_scope.md R7) -/

/-- `{hi, lo}`: 16 bits from two bytes. -/
def mk16 (hi lo : Byte) : Word := hi ++ lo

/-- `{bank, mid, lo}`: 24 bits from three bytes. -/
def mk24 (bank mid lo : Byte) : Addr := bank ++ (mid ++ lo)

/-- `{bank, off}`: the address at an offset of a bank. -/
def mkAddr (bank : Byte) (off : Word) : Addr := bank ++ off

/-- `v[7:0]`. -/
def loByte (v : Word) : Byte := v.extractLsb' 0 8

/-- `v[15:8]`. -/
def hiByte (v : Word) : Byte := v.extractLsb' 8 8

/-- `bank(a) = a[23:16]` (R50). -/
def bankOf (a : Addr) : Byte := a.extractLsb' 16 8

/-- `off(a) = a[15:0]` (R50). -/
def offOf (a : Addr) : Word := a.extractLsb' 0 16

/-- `zext_16` of a byte. -/
def zext16 (b : Byte) : Word := b.setWidth 16

/-! ### Formats and lengths (R90, R96) -/

/-- The nine formats of R90. -/
inductive Format where
  | imp
  | imm8
  | immM
  | immX
  | rel8
  | abs
  | long
  | longX
  | dpily
deriving DecidableEq, Repr

/-- The number of bytes of an instruction of a format, opcode byte included (R90, R96). -/
def Format.length (wd : Widths) : Format → Nat
  | .imp => 1
  | .imm8 => 2
  | .immM => if wd.acc16 then 3 else 2
  | .immX => if wd.idx16 then 3 else 2
  | .rel8 => 2
  | .abs => 3
  | .long => 4
  | .longX => 4
  | .dpily => 2

/-- The format of an instruction (R93). -/
def Instr.format : Instr → Format
  | .php => .imp
  | .phd => .imp
  | .bpl _ => .rel8
  | .clc => .imp
  | .tcs => .imp
  | .jsr _ => .abs
  | .sec => .imp
  | .pha => .imp
  | .phk => .imp
  | .cli => .imp
  | .phy => .imp
  | .tcd => .imp
  | .sei => .imp
  | .bra _ => .rel8
  | .dey => .imp
  | .phb => .imp
  | .staAbs _ => .abs
  | .staLong _ => .long
  | .tya => .imp
  | .stzAbs _ => .abs
  | .stxLongX _ => .longX
  | .ldyImm _ => .immX
  | .ldxImm _ => .immX
  | .tay => .imp
  | .ldaImm _ => .immM
  | .tax => .imp
  | .ldaDpily _ => .dpily
  | .clv => .imp
  | .rep _ => .imm8
  | .iny => .imp
  | .dex => .imp
  | .cmpAbs _ => .abs
  | .bne _ => .rel8
  | .cld => .imp
  | .phx => .imp
  | .sep _ => .imm8
  | .inx => .imp
  | .sbcImm _ => .immM
  | .sed => .imp
  | .xce => .imp

/-- The number of bytes of an instruction at the widths `wd` (R96). -/
def Instr.length (wd : Widths) (i : Instr) : Nat := i.format.length wd

/-! ### The opcode map (R93, R99) -/

/-- What an opcode byte selects: a format, and the instruction as a function of the operand of that format (R99). -/
inductive OpRow where
  | imp (i : Instr)
  | imm8 (mk : Byte → Instr)
  | immM (mk : Word → Instr)
  | immX (mk : Word → Instr)
  | rel8 (mk : Byte → Instr)
  | abs (mk : Word → Instr)
  | long (mk : Addr → Instr)
  | longX (mk : Addr → Instr)
  | dpily (mk : Byte → Instr)

/-- The format of a row. -/
def OpRow.format : OpRow → Format
  | .imp _ => .imp
  | .imm8 _ => .imm8
  | .immM _ => .immM
  | .immX _ => .immX
  | .rel8 _ => .rel8
  | .abs _ => .abs
  | .long _ => .long
  | .longX _ => .longX
  | .dpily _ => .dpily

/-- The opcode map: forty bytes are assigned, the other 216 are not (R93, R94). -/
def opRow (op : Byte) : Option OpRow :=
  match op.toNat with
  | 0x08 => some (.imp .php)
  | 0x0B => some (.imp .phd)
  | 0x10 => some (.rel8 .bpl)
  | 0x18 => some (.imp .clc)
  | 0x1B => some (.imp .tcs)
  | 0x20 => some (.abs .jsr)
  | 0x38 => some (.imp .sec)
  | 0x48 => some (.imp .pha)
  | 0x4B => some (.imp .phk)
  | 0x58 => some (.imp .cli)
  | 0x5A => some (.imp .phy)
  | 0x5B => some (.imp .tcd)
  | 0x78 => some (.imp .sei)
  | 0x80 => some (.rel8 .bra)
  | 0x88 => some (.imp .dey)
  | 0x8B => some (.imp .phb)
  | 0x8D => some (.abs .staAbs)
  | 0x8F => some (.long .staLong)
  | 0x98 => some (.imp .tya)
  | 0x9C => some (.abs .stzAbs)
  | 0x9F => some (.longX .stxLongX)
  | 0xA0 => some (.immX .ldyImm)
  | 0xA2 => some (.immX .ldxImm)
  | 0xA8 => some (.imp .tay)
  | 0xA9 => some (.immM .ldaImm)
  | 0xAA => some (.imp .tax)
  | 0xB7 => some (.dpily .ldaDpily)
  | 0xB8 => some (.imp .clv)
  | 0xC2 => some (.imm8 .rep)
  | 0xC8 => some (.imp .iny)
  | 0xCA => some (.imp .dex)
  | 0xCD => some (.abs .cmpAbs)
  | 0xD0 => some (.rel8 .bne)
  | 0xD8 => some (.imp .cld)
  | 0xDA => some (.imp .phx)
  | 0xE2 => some (.imm8 .sep)
  | 0xE8 => some (.imp .inx)
  | 0xE9 => some (.immM .sbcImm)
  | 0xF8 => some (.imp .sed)
  | 0xFB => some (.imp .xce)
  | _ => none

/-! ### Operands (R92) -/

/-- `Fetch16` on a byte list: low byte first. -/
def takeWord : List Byte → Option (Word × List Byte)
  | lo :: hi :: rest => some (mk16 hi lo, rest)
  | _ => none

/-- `Fetch24` on a byte list: low, middle, bank. -/
def takeLong : List Byte → Option (Addr × List Byte)
  | lo :: mid :: bank :: rest => some (mk24 bank mid lo, rest)
  | _ => none

/-- `Fetch8` on a byte list. -/
def takeByte : List Byte → Option (Byte × List Byte)
  | b :: rest => some (b, rest)
  | _ => none

/-- An immediate at a run-time width: two bytes at width 16, one byte zero-extended at width 8. -/
def takeImm (w16 : Bool) (bs : List Byte) : Option (Word × List Byte) :=
  if w16 then takeWord bs else (takeByte bs).map fun p => (zext16 p.1, p.2)

/-- The operand of a row, put into its instruction; the bytes left over come back. -/
def OpRow.read (wd : Widths) (bs : List Byte) : OpRow → Option (Instr × List Byte)
  | .imp i => some (i, bs)
  | .imm8 mk => (takeByte bs).map fun p => (mk p.1, p.2)
  | .immM mk => (takeImm wd.acc16 bs).map fun p => (mk p.1, p.2)
  | .immX mk => (takeImm wd.idx16 bs).map fun p => (mk p.1, p.2)
  | .rel8 mk => (takeByte bs).map fun p => (mk p.1, p.2)
  | .abs mk => (takeWord bs).map fun p => (mk p.1, p.2)
  | .long mk => (takeLong bs).map fun p => (mk p.1, p.2)
  | .longX mk => (takeLong bs).map fun p => (mk p.1, p.2)
  | .dpily mk => (takeByte bs).map fun p => (mk p.1, p.2)

/-! ### The decoder -/

/-- Why bytes do not decode. -/
inductive DecodeError where
  /-- There is no opcode byte. -/
  | noBytes
  /-- The opcode byte is not one of the forty of R93 (R94). -/
  | undefinedOpcode (op : Byte)
  /-- The bytes end inside the operand of this opcode. -/
  | missingOperand (op : Byte)
deriving DecidableEq, Repr

/-- The instruction at the head of a byte list at the widths `wd`, with the bytes after it (R91, R92, R99). -/
def decode (wd : Widths) : List Byte → Except DecodeError (Instr × List Byte)
  | [] => .error .noBytes
  | op :: bs =>
    match opRow op with
    | none => .error (.undefinedOpcode op)
    | some row =>
      match row.read wd bs with
      | none => .error (.missingOperand op)
      | some p => .ok p

/-! ### The encoder -/

/-- The operand bytes of a 16-bit operand, low byte first (R92). -/
def wordBytes (v : Word) : List Byte := [loByte v, hiByte v]

/-- The operand bytes of a 24-bit operand: low, middle, bank (R92). -/
def longBytes (a : Addr) : List Byte := [a.extractLsb' 0 8, a.extractLsb' 8 8, a.extractLsb' 16 8]

/-- The operand bytes of an immediate at a run-time width (R92). -/
def immBytes (w16 : Bool) (v : Word) : List Byte := if w16 then wordBytes v else [loByte v]

/-- The opcode byte of an instruction (R93). -/
def Instr.opcode : Instr → Byte
  | .php => 0x08
  | .phd => 0x0B
  | .bpl _ => 0x10
  | .clc => 0x18
  | .tcs => 0x1B
  | .jsr _ => 0x20
  | .sec => 0x38
  | .pha => 0x48
  | .phk => 0x4B
  | .cli => 0x58
  | .phy => 0x5A
  | .tcd => 0x5B
  | .sei => 0x78
  | .bra _ => 0x80
  | .dey => 0x88
  | .phb => 0x8B
  | .staAbs _ => 0x8D
  | .staLong _ => 0x8F
  | .tya => 0x98
  | .stzAbs _ => 0x9C
  | .stxLongX _ => 0x9F
  | .ldyImm _ => 0xA0
  | .ldxImm _ => 0xA2
  | .tay => 0xA8
  | .ldaImm _ => 0xA9
  | .tax => 0xAA
  | .ldaDpily _ => 0xB7
  | .clv => 0xB8
  | .rep _ => 0xC2
  | .iny => 0xC8
  | .dex => 0xCA
  | .cmpAbs _ => 0xCD
  | .bne _ => 0xD0
  | .cld => 0xD8
  | .phx => 0xDA
  | .sep _ => 0xE2
  | .inx => 0xE8
  | .sbcImm _ => 0xE9
  | .sed => 0xF8
  | .xce => 0xFB

/-- The operand bytes of an instruction at the widths `wd` (R90, R92). -/
def Instr.operandBytes (wd : Widths) : Instr → List Byte
  | .php => []
  | .phd => []
  | .bpl rel => [rel]
  | .clc => []
  | .tcs => []
  | .jsr addr => wordBytes addr
  | .sec => []
  | .pha => []
  | .phk => []
  | .cli => []
  | .phy => []
  | .tcd => []
  | .sei => []
  | .bra rel => [rel]
  | .dey => []
  | .phb => []
  | .staAbs addr => wordBytes addr
  | .staLong addr => longBytes addr
  | .tya => []
  | .stzAbs addr => wordBytes addr
  | .stxLongX base => longBytes base
  | .ldyImm imm => immBytes wd.idx16 imm
  | .ldxImm imm => immBytes wd.idx16 imm
  | .tay => []
  | .ldaImm imm => immBytes wd.acc16 imm
  | .tax => []
  | .ldaDpily dp => [dp]
  | .clv => []
  | .rep mask => [mask]
  | .iny => []
  | .dex => []
  | .cmpAbs addr => wordBytes addr
  | .bne rel => [rel]
  | .cld => []
  | .phx => []
  | .sep mask => [mask]
  | .inx => []
  | .sbcImm imm => immBytes wd.acc16 imm
  | .sed => []
  | .xce => []

/-- The bytes of an instruction at the widths `wd` (R90, R93). -/
def encode (wd : Widths) (i : Instr) : List Byte := i.opcode :: i.operandBytes wd

/-! ### The table's words -/

/-- The bytes of an opcode-table word of `nbits` bits, up to the longest instruction (4 bytes): bit 0 is bit 0 of the opcode
byte, later bytes count on from it, and every bit above `nbits` is 0. -/
def tableBytes (nbits w : Nat) : List Byte :=
  let v := w % 2 ^ nbits
  [BitVec.ofNat 8 v, BitVec.ofNat 8 (v / 0x100), BitVec.ofNat 8 (v / 0x10000), BitVec.ofNat 8 (v / 0x1000000)]

/-- What the decoder reads from an opcode-table word at 8-bit widths, the widths in force right after reset (10_state.md R40,
assumption 12). -/
def decodeTableWord (nbits w : Nat) : Option Instr :=
  match decode ⟨false, false⟩ (tableBytes nbits w) with
  | .ok p => some p.1
  | .error _ => none

end Sys2Proof
end

