-- ==== Sys2Proof/Machine/Memory.lean ====
section
/-! DEFINITION. Byte arrays as plain data: a list of (index, byte) pairs, indices strictly rising, no pair holding what an
unlisted index reads as. Work RAM (20_memory.md R54) and the cartridge ROM (00_scope.md R3) are held in this form. -/

namespace Sys2Proof.Machine

/-- A byte array, sparse. -/
abbrev Memory := List Host.Cell

/-- What an unlisted index reads as: 0x00, the value of every work-RAM byte after reset (10_state.md R40). -/
def Memory.unlisted : Byte := 0x00

/-- The byte at an index. -/
def Memory.read : Memory → Nat → Byte
  | [], _ => Memory.unlisted
  | c :: m, i => if c.1 = i then c.2 else Memory.read m i

/-- The array with an index no longer listed. -/
def Memory.erase : Memory → Nat → Memory
  | [], _ => []
  | c :: m, i => if c.1 = i then Memory.erase m i else c :: Memory.erase m i

/-- The array with a pair put in front of the first higher index. -/
def Memory.insert : Memory → Nat → Byte → Memory
  | [], i, v => [(i, v)]
  | c :: m, i, v => if i < c.1 then (i, v) :: c :: m else c :: Memory.insert m i v

/-- Write a byte. Writing what an unlisted index reads as removes the pair, so equal arrays are equal lists. -/
def Memory.write (m : Memory) (i : Nat) (v : Byte) : Memory :=
  if v = Memory.unlisted then m.erase i else (m.erase i).insert i v

/-- Indices are strictly rising from `lo`, and no pair holds the unlisted byte. -/
def Memory.wfFrom : Nat → Memory → Bool
  | _, [] => true
  | lo, c :: m => decide (lo ≤ c.1) && decide (c.2 ≠ Memory.unlisted) && Memory.wfFrom (c.1 + 1) m

/-- The canonical form. -/
def Memory.wf (m : Memory) : Bool := m.wfFrom 0

/-- Every listed index is below `n`. -/
def Memory.below (n : Nat) (m : Memory) : Bool := m.all fun c => decide (c.1 < n)

/-- Take `n` indices off the front: index `n + i` becomes index `i`. -/
def Memory.drop (n : Nat) : Memory → Memory
  | [] => []
  | c :: m => if n ≤ c.1 then (c.1 - n, c.2) :: Memory.drop n m else Memory.drop n m

/-- An immutable byte buffer of a stated size: the raw file or the cartridge ROM (R3, 70_reset_and_hazards.md R200). -/
structure Image where
  size : Nat
  cells : Memory
deriving DecidableEq, Repr

/-- `ROM[i]`, for an index the caller has checked against the size. -/
def Image.byte (r : Image) (i : Nat) : Byte := r.cells.read i

/-- The form of an image: canonical, nothing listed at or beyond its size. -/
def Image.wf (r : Image) : Bool := r.cells.wf && r.cells.below r.size

/-- The buffer without its first `n` bytes. -/
def Image.drop (n : Nat) (r : Image) : Image := { size := r.size - n, cells := r.cells.drop n }

/-- Put a byte into an image, which grows if the index lies beyond its end. Only the loading of a program uses it: no
instruction writes an image (20_memory.md R53, R56). -/
def Image.place (r : Image) (i : Nat) (v : Byte) : Image :=
  { size := max r.size (i + 1), cells := r.cells.write i v }

end Sys2Proof.Machine
end

