-- ==== Sys2Proof/Machine/State.lean ====
section
/-! DEFINITION. The whole state of the block (10_state.md R10), the parameters of the step relation carried beside it
(00_scope.md R3, assumption 1), the six fault kinds (60_exceptions.md R180) and the state after reset (R40). -/

namespace Sys2Proof.Machine

/-- The translator strap `header_offset`, as the scheme it selects (00_scope.md R3, 70_reset_and_hazards.md R201). -/
inductive MapMode where
  /-- `header_offset = 0x7FC0`. -/
  | loROM
  /-- `header_offset = 0xFFC0`. -/
  | hiROM
deriving DecidableEq, Repr

/-- The direction of a bus access (60_exceptions.md R180, last column). -/
inductive Access where
  | read
  | write
deriving DecidableEq, Repr

/-- The info of an `UnsupportedAddressingScheme` fault: "the address, or the map-mode nibble" (60_exceptions.md R180). -/
inductive SchemeInfo where
  | address (a : Addr)
  | mapMode (nibble : BitVec 4)
deriving DecidableEq, Repr

/-- The six fault kinds with the info recorded for each (60_exceptions.md R180). All are the spec's own and fatal: the machine
stops where the spec says it stops, so each is safe. -/
inductive Fault where
  /-- Code 0. Raised by reset when the buffer cannot hold the LoROM header; the info is `ROM_SIZE`. Never raised by a step. Safe. -/
  | ioError (romSize : Nat)
  /-- Code 1. Raised by reset (map mode 3), by a read that reaches the cartridge under HiROM, by any write under HiROM. Safe. -/
  | unsupportedAddressingScheme (info : SchemeInfo)
  /-- Code 2. Raised by a bus access that no region answers (20_memory.md R57); the info is the address. Safe. -/
  | unmappedAddress (a : Addr)
  /-- Code 3. Raised in the I/O window at an offset not recognised for the direction (20_memory.md R60, R61). Safe. -/
  | unsupportedIoRegister (off : Word) (dir : Access)
  /-- Code 4. Raised by decode for the 216 unassigned bytes (30_encoding.md R94); the opcode byte and its address. Safe. -/
  | undefinedOpcode (op : Byte) (at_ : Addr)
  /-- Code 5. Raised by SBC with P.D = 1 and an 8-bit accumulator (48_sbc.md R170); the opcode byte and its address. Safe. -/
  | unsupportedInstructionVariant (op : Byte) (at_ : Addr)
deriving DecidableEq, Repr

/-- Why the model itself gives no meaning. -/
inductive Refusal where
  /-- Raised by `exec` for an instruction without a meaning yet (no arm does). Safe: the model stops. -/
  | notModelled (mnemonic : String)
deriving DecidableEq, Repr

/-- The content of `FAULT` (10_state.md R18): the fault, and the value of `PC` at the start of the faulting step
(60_exceptions.md R182), `none` when it was reset that faulted. -/
structure FaultLatch where
  cause : Fault
  pc : Option Addr
deriving DecidableEq, Repr

/-- The I/O register file: nine opaque 8-bit latches (10_state.md R19, 20_memory.md R60). -/
structure IoRegs where
  inidisp : Byte
  obsel : Byte
  apuio0 : Byte
  apuio1 : Byte
  apuio2 : Byte
  apuio3 : Byte
  nmitimen : Byte
  mdmaen : Byte
  hdmaen : Byte
deriving DecidableEq, Repr

/-- The I/O latches after reset: zero (10_state.md R40). -/
def IoRegs.zero : IoRegs :=
  { inidisp := 0, obsel := 0, apuio0 := 0, apuio1 := 0, apuio2 := 0, apuio3 := 0, nmitimen := 0, mdmaen := 0, hdmaen := 0 }

/-- The state of the block. -/
structure State where
  /-- `A` (R11). -/
  a : Word
  /-- `X` (R11). -/
  x : Word
  /-- `Y` (R11). -/
  y : Word
  /-- `S`, the stack pointer (R12). -/
  sp : Word
  /-- `D`, the direct-page base (R12). -/
  d : Word
  /-- `DBR` (R12). -/
  dbr : Byte
  /-- `P`, the status register: C Z I D X M V N in bits 0 to 7 (R14). -/
  p : Byte
  /-- `E`, the emulation-mode flag (R16). -/
  e : Bool
  /-- `PC` (R13). -/
  pc : Addr
  /-- `CYC`, a counter that never wraps (R17). -/
  cyc : Nat
  /-- `FAULT` (R18). -/
  fault : Option FaultLatch
  /-- `WRAM` (R19, 20_memory.md R54). -/
  wram : Memory
  /-- The I/O register file (R19, 20_memory.md R60). -/
  io : IoRegs
  /-- The model's own field: the latch writes of completed steps, oldest first, the output of 20_memory.md R62 (assumption 8). -/
  ioLog : List (Word × Byte)
  /-- Parameter `ROM`, `ROM_SIZE` (00_scope.md R3). -/
  rom : Image
  /-- Parameter `header_offset`, `MAP` (00_scope.md R3). -/
  map : MapMode
  /-- Parameter `P_9F_SOURCE` (00_scope.md R3). -/
  p9f : P9FSource
  /-- Parameter `CYCLES` (00_scope.md R3, 70_reset_and_hazards.md R215). -/
  costs : CycleTable
deriving DecidableEq, Repr

/-- The image behind `State.reset`: 0x8000 zero bytes, the second image of 95_test_vectors.md section 2.14 (assumption 2). -/
def blankImage : Image := { size := 0x8000, cells := [] }

/-- The state after a successful reset (10_state.md R40) of the blank image, whose reset vector is 0x0000 (assumption 2). -/
def State.reset : State :=
  { a := 0x0000, x := 0x0000, y := 0x0000, sp := 0x01FF, d := 0x0000, dbr := 0x00, p := 0x34, e := true,
    pc := 0x000000, cyc := 0, fault := none, wram := [], io := IoRegs.zero, ioLog := [],
    rom := blankImage, map := .loROM, p9f := Config.p9fDefault, costs := Config.cyclesDefault }

end Sys2Proof.Machine
end

