-- ==== Sys2Proof/Machine/Flags.lean ====
section
/-! DEFINITION. The status register, the width queries, and every flag computation of the spec (10_state.md R14, R20 to R23,
45_compare.md R155, 48_sbc.md R170). -/

namespace Sys2Proof.Machine

/-- The eight flags of `P` (R14). -/
inductive Flag where
  | c
  | z
  | i
  | d
  | x
  | m
  | v
  | n
deriving DecidableEq, Repr

/-- The bit of `P` that holds a flag (R14). -/
def Flag.bit : Flag → Nat
  | .c => 0
  | .z => 1
  | .i => 2
  | .d => 3
  | .x => 4
  | .m => 5
  | .v => 6
  | .n => 7

/-- The mask of a flag in `P` (R14). -/
def Flag.mask (f : Flag) : Byte := 1#8 <<< f.bit

/-- A status byte with one flag written. -/
def putFlag (p : Byte) (f : Flag) (b : Bool) : Byte := if b then p ||| f.mask else p &&& ~~~f.mask

/-- Read a flag. -/
def State.flag (s : State) (f : Flag) : Bool := s.p.getLsbD f.bit

/-- Write a flag. -/
def State.setFlag (s : State) (f : Flag) (b : Bool) : State := { s with p := putFlag s.p f b }

/-! ### Widths (R20) -/

/-- `acc16() = (P.M = 0) and (E = 0)`. -/
def State.acc16 (s : State) : Bool := !s.flag .m && !s.e

/-- `idx16() = (P.X = 0) and (E = 0)`. -/
def State.idx16 (s : State) : Bool := !s.flag .x && !s.e

/-- The two active widths. -/
def State.widths (s : State) : Widths := ⟨s.acc16, s.idx16⟩

/-- `v & mask(w)` (00_scope.md R7). -/
def maskW (w16 : Bool) (v : Word) : Word := if w16 then v else v &&& 0x00FF

/-- `mask(w)` as a number: the largest value at a width (R7). -/
def maxW (w16 : Bool) : Nat := if w16 then 0xFFFF else 0xFF

/-- `v[w-1]`: the top bit of a value at a width. -/
def topBit (w16 : Bool) (v : Word) : Bool := if w16 then v.getLsbD 15 else v.getLsbD 7

/-- Is a value zero at a width? -/
def zeroAt (w16 : Bool) (v : Word) : Bool := if w16 then v == 0 else loByte v == 0

/-- `AutoN(v)`: the sign of `v` at the accumulator width (R23). -/
def State.autoN (s : State) (v : Word) : Bool := topBit s.acc16 v

/-- `AutoZ(v)`: is `v` zero at the accumulator width (R23)? -/
def State.autoZ (s : State) (v : Word) : Bool := zeroAt s.acc16 v

/-- Write `N` and `Z` from a value at a width (R22). -/
def State.setNZ (s : State) (w16 : Bool) (v : Word) : State := (s.setFlag .n (topBit w16 v)).setFlag .z (zeroAt w16 v)

/-! ### Subtraction (45_compare.md R155, 48_sbc.md R170, R171) -/

/-- `av + ~_w(m) + c`, the untruncated sum (48_sbc.md R170). -/
def subSum (w16 : Bool) (av m : Word) (c : Bool) : Nat := av.toNat + (maskW w16 (~~~m)).toNat + c.toNat

/-- `sum & mask(w)`. -/
def subRes (w16 : Bool) (av m : Word) (c : Bool) : Word := maskW w16 (BitVec.ofNat 16 (subSum w16 av m c))

/-- `C`: the sum exceeds the mask of the width. -/
def subCarry (w16 : Bool) (av m : Word) (c : Bool) : Bool := decide (maxW w16 < subSum w16 av m c)

/-- `V`: `((av ^ m) & (av ^ res)) & sign(w)` is not zero. -/
def subOverflow (w16 : Bool) (av m res : Word) : Bool := topBit w16 ((av ^^^ m) &&& (av ^^^ res))

end Sys2Proof.Machine
end

