-- ==== Sys2Proof/Machine/Cycles.lean ====
section
/-! DEFINITION. The cost function `CYCLES(op, wA, wX, E, taken)` (70_reset_and_hazards.md R215): a parameter, with a default table.
Widths and `E` are those at the start of the step. -/

namespace Sys2Proof.Machine

/-- The default table of R215. -/
def defaultCycles (i : Instr) (wd : Widths) (e taken : Bool) (src : P9FSource) : Nat :=
  match i with
  | .clc | .cli | .clv | .cld | .sec | .sei | .sed => 2
  | .tax | .tay | .tcd | .tcs | .tya => 2
  | .inx | .iny | .dex | .dey => 2
  | .xce => 2
  | .rep _ | .sep _ => 3
  | .php | .phb | .phk => 3
  | .phd => 4
  | .pha => 3 + wd.acc16.toNat
  | .phx | .phy => 3 + wd.idx16.toNat
  | .bpl _ | .bne _ => 2 + taken.toNat + e.toNat
  | .bra _ => 2 + 1 + e.toNat
  | .jsr _ => 6
  | .ldaImm _ | .sbcImm _ => 2 + wd.acc16.toNat
  | .ldxImm _ | .ldyImm _ => 2 + wd.idx16.toNat
  | .cmpAbs _ | .staAbs _ | .stzAbs _ => 4 + wd.acc16.toNat
  | .staLong _ => 5 + wd.acc16.toNat
  | .stxLongX _ => 5 + (match src with | .x => wd.idx16 | .a => wd.acc16).toNat
  | .ldaDpily _ => 6 + wd.acc16.toNat

/-- The arguments of `CYCLES` for an instruction run at `s` (R210, R215). -/
def State.cycleKey (s : State) (i : Instr) (taken : Bool) : CycleKey :=
  { op := i.opcode, acc16 := s.acc16, idx16 := s.idx16, e := s.e, taken := taken }

/-- The number a completed step from `s` adds to `CYC` (R215): what the parameter `CYCLES` says, by default the default table. -/
def State.cycles (s : State) (i : Instr) (taken : Bool) : Nat :=
  (s.costs.lookup (s.cycleKey i taken)).getD (defaultCycles i s.widths s.e taken s.p9f)

end Sys2Proof.Machine
end

