-- ==== Sys2Proof/Machine/Ops.lean ====
section
/-! DEFINITION. The named operations over memory and registers: the bus with its address decoding and I/O register file
(20_memory.md), multi-byte accesses, width-aware registers (10_state.md R21, R22), the push primitive (41_stack_push.md R120), the
frame of one instruction (70_reset_and_hazards.md R210) and the taking of a fault (60_exceptions.md R181). -/

namespace Sys2Proof.Machine

/-! ### Address decoding (20_memory.md R51 to R55) -/

/-- The banks of the WRAM-mirrored range: 0x00 to 0x3F and 0x80 to 0xBF (R51). -/
def inMirror (bank : Byte) : Bool := decide (bank.toNat < 0x40) || (decide (0x80 ≤ bank.toNat) && decide (bank.toNat < 0xC0))

/-- What an address decodes to, before the scheme is asked. -/
inductive Region where
  /-- Cases (a) and (c): work RAM at an index. -/
  | wram (i : Nat)
  /-- Case (b): the I/O window at an offset. -/
  | io (off : Word)
  /-- Case (d): the cartridge. -/
  | cart
deriving DecidableEq, Repr

/-- The decode order (a), (b), (c), (d) of R52 and R53. -/
def region (a : Addr) : Region :=
  let b := bankOf a
  let o := offOf a
  if inMirror b && decide (o.toNat < 0x2000) then .wram o.toNat
  else if inMirror b && decide (o.toNat < 0x6000) then .io o
  else if b = 0x7E || b = 0x7F then .wram ((b.toNat - 0x7E) * 0x10000 + o.toNat)
  else .cart

/-- The index of case (d) under LoROM, the bank byte unmasked (R56). -/
def loRomIndex (a : Addr) : Nat := ((offOf a).toNat - 0x8000) + (bankOf a).toNat * 0x8000

/-! ### The I/O register file (20_memory.md R60, R61) -/

/-- The nine latches. -/
inductive IoReg where
  | inidisp
  | obsel
  | apuio0
  | apuio1
  | apuio2
  | apuio3
  | nmitimen
  | mdmaen
  | hdmaen
deriving DecidableEq, Repr

/-- The offset at which a latch responds (R60). -/
def IoReg.offset : IoReg → Word
  | .inidisp => 0x2100
  | .obsel => 0x2101
  | .apuio0 => 0x2140
  | .apuio1 => 0x2141
  | .apuio2 => 0x2142
  | .apuio3 => 0x2143
  | .nmitimen => 0x4200
  | .mdmaen => 0x420B
  | .hdmaen => 0x420C

/-- The latch at an offset, matched exactly (R60). -/
def ioRegAt (off : Word) : Option IoReg :=
  [IoReg.inidisp, .obsel, .apuio0, .apuio1, .apuio2, .apuio3, .nmitimen, .mdmaen, .hdmaen].find? fun r => r.offset == off

/-- Only the four audio-port latches can be read (R61). -/
def IoReg.readable : IoReg → Bool
  | .apuio0 | .apuio1 | .apuio2 | .apuio3 => true
  | .inidisp | .obsel | .nmitimen | .mdmaen | .hdmaen => false

/-- The value of a latch. -/
def IoRegs.get (io : IoRegs) : IoReg → Byte
  | .inidisp => io.inidisp
  | .obsel => io.obsel
  | .apuio0 => io.apuio0
  | .apuio1 => io.apuio1
  | .apuio2 => io.apuio2
  | .apuio3 => io.apuio3
  | .nmitimen => io.nmitimen
  | .mdmaen => io.mdmaen
  | .hdmaen => io.hdmaen

/-- The register file with one latch written, whole (R60). -/
def IoRegs.set (io : IoRegs) (r : IoReg) (v : Byte) : IoRegs :=
  match r with
  | .inidisp => { io with inidisp := v }
  | .obsel => { io with obsel := v }
  | .apuio0 => { io with apuio0 := v }
  | .apuio1 => { io with apuio1 := v }
  | .apuio2 => { io with apuio2 := v }
  | .apuio3 => { io with apuio3 := v }
  | .nmitimen => { io with nmitimen := v }
  | .mdmaen => { io with mdmaen := v }
  | .hdmaen => { io with hdmaen := v }

/-- `IoRead(o)` (R61). -/
def ioRead (s : State) (off : Word) : Except Fault Byte :=
  match ioRegAt off with
  | some r => if r.readable then .ok (s.io.get r) else .error (.unsupportedIoRegister off .read)
  | none => .error (.unsupportedIoRegister off .read)

/-- `IoWrite(o, v)` (R60); the write is recorded as an output of the block (R62). -/
def ioWrite (s : State) (off : Word) (v : Byte) : Except Fault State :=
  match ioRegAt off with
  | some r => .ok { s with io := s.io.set r v, ioLog := s.ioLog ++ [(off, v)] }
  | none => .error (.unsupportedIoRegister off .write)

/-! ### The bus (20_memory.md R52, R53) -/

/-- `BusRead(a)` (R52). It changes no state (R63). -/
def busRead (s : State) (a : Addr) : Except Fault Byte :=
  match region a with
  | .wram i => .ok (s.wram.read i)
  | .io off => ioRead s off
  | .cart =>
    match s.map with
    | .hiROM => .error (.unsupportedAddressingScheme (.address a))
    | .loROM =>
      if 0x8000 ≤ (offOf a).toNat ∧ loRomIndex a < s.rom.size then .ok (s.rom.byte (loRomIndex a))
      else .error (.unmappedAddress a)

/-- `BusWrite(a, v)`: the scheme check comes before any decoding (R53). -/
def busWrite (s : State) (a : Addr) (v : Byte) : Except Fault State :=
  match s.map with
  | .hiROM => .error (.unsupportedAddressingScheme (.address a))
  | .loROM =>
    match region a with
    | .wram i => .ok { s with wram := s.wram.write i v }
    | .io off => ioWrite s off v
    | .cart => .error (.unmappedAddress a)

/-! ### Multi-byte accesses (20_memory.md R64 to R66) -/

/-- `MemRead(addr, w / 8)`, zero-extended to 16 bits: one byte at width 8, low byte first at width 16, the address stepped
`mod 2^24` (R64). -/
def memReadW (s : State) (w16 : Bool) (a : Addr) : Except Fault Word :=
  if w16 then do
    let lo ← busRead s a
    let hi ← busRead s (a + 1)
    .ok (mk16 hi lo)
  else do
    let b ← busRead s a
    .ok (zext16 b)

/-- `MemWrite(addr, w / 8, v)`, low byte first (R65). -/
def memWriteW (s : State) (w16 : Bool) (a : Addr) (v : Word) : Except Fault State :=
  if w16 then do
    let t ← busWrite s a (loByte v)
    busWrite t (a + 1) (hiByte v)
  else busWrite s a (loByte v)

/-- `MemRead0(a16, 3)`: a 24-bit pointer in bank 0, each byte address wrapped to 16 bits (R66). -/
def memRead0Long (s : State) (off : Word) : Except Fault Addr := do
  let lo ← busRead s (mkAddr 0 off)
  let mid ← busRead s (mkAddr 0 (off + 1))
  let bank ← busRead s (mkAddr 0 (off + 2))
  .ok (mk24 bank mid lo)

/-- `n` bytes read at ascending addresses from `a`, stepped `mod 2^24` (R64). -/
def readBytes (s : State) (a : Addr) : Nat → Except Fault (List Byte)
  | 0 => .ok []
  | n + 1 => do
    let b ← busRead s a
    let bs ← readBytes s (a + 1) n
    .ok (b :: bs)

/-! ### Width-aware registers (10_state.md R21, R22) -/

/-- The registers that `SetReg` writes (R22). -/
inductive Reg where
  | a
  | x
  | y
deriving DecidableEq, Repr

/-- `reg[r]`. -/
def State.reg (s : State) : Reg → Word
  | .a => s.a
  | .x => s.x
  | .y => s.y

/-- `reg[r] <- v`. -/
def State.putReg (s : State) (r : Reg) (v : Word) : State :=
  match r with
  | .a => { s with a := v }
  | .x => { s with x := v }
  | .y => { s with y := v }

/-- `w(r)`: is the register 16 bits wide now (R20)? -/
def State.reg16 (s : State) : Reg → Bool
  | .a => s.acc16
  | .x => s.idx16
  | .y => s.idx16

/-- `RegW(r)` (R21). -/
def State.regW (s : State) (r : Reg) : Word := maskW (s.reg16 r) (s.reg r)

/-- A register's new content at a width: at width 8 the high byte is preserved (R22). -/
def mergeW (w16 : Bool) (old v : Word) : Word := if w16 then v else mk16 (hiByte old) (loByte v)

/-- `SetReg(r, v)` (R22). -/
def State.setReg (s : State) (r : Reg) (v : Word) : State :=
  (s.putReg r (mergeW (s.reg16 r) (s.reg r) v)).setNZ (s.reg16 r) v

/-! ### The stack (41_stack_push.md R120) -/

/-- A stack pointer with its high byte pinned to 0x01 when `E = 1` (10_state.md R24). -/
def pinSp (e : Bool) (sp : Word) : Word := if e then mk16 0x01 (loByte sp) else sp

/-- `Push8(b)`. -/
def push8 (s : State) (b : Byte) : Except Fault State := do
  let t ← busWrite s (mkAddr 0 s.sp) b
  .ok { t with sp := pinSp t.e (t.sp - 1) }

/-- `Push16(v)`: the high byte first. -/
def push16 (s : State) (v : Word) : Except Fault State := do
  let t ← push8 s (hiByte v)
  push8 t (loByte v)

/-- Push a value at a width. -/
def pushW (s : State) (w16 : Bool) (v : Word) : Except Fault State :=
  if w16 then push16 s v else push8 s (loByte v)

/-! ### One instruction (70_reset_and_hazards.md R210) -/

/-- `PC` past an instruction's bytes (10_state.md R13). -/
def State.advance (s : State) (i : Instr) : State := { s with pc := s.pc + BitVec.ofNat 24 (i.length s.widths) }

/-- The step of an instruction whose bytes have been fetched: `PC` moves past them, the body runs, `CYC` is charged at the
widths and `E` of the start of the step. A raise ends the step and commits nothing (60_exceptions.md R181). -/
def instr (i : Instr) (taken : Bool) (s : State) (body : State → Except Fault State) : Host.Outcome State Fault Refusal :=
  match body (s.advance i) with
  | .ok t => .next { t with cyc := s.cyc + s.cycles i taken }
  | .error f => .fault f

/-! ### Taking a fault (60_exceptions.md R181, R185). There is no return from one (R187). -/

/-- The state of a machine whose step has raised: that before the step, with `FAULT` latched. A latch that holds keeps what it
holds. -/
def State.takeFault (s : State) (f : Fault) : State :=
  match s.fault with
  | some _ => s
  | none => { s with fault := some { cause := f, pc := some s.pc } }

/-- The state a step leaves: the next state, or the halted one. -/
def stateAfter (s : State) : Host.Outcome State Fault Refusal → State
  | .next t => t
  | .fault f => s.takeFault f
  | .refused _ => s

end Sys2Proof.Machine
end

