-- ==== Sys2Proof/Machine/Operands.lean ====
section
/-! DEFINITION. Every operand form: how each addressing mode forms its address (92_eei_decisions.md D13) and how a displacement
is applied (42_branch_call.md R130). The operand itself is in the decoded instruction (30_encoding.md R92). -/

namespace Sys2Proof.Machine

/-- Absolute: `{DBR, addr16}` (45_compare.md R155, 46_store.md R160). -/
def absAddr (s : State) (a : Word) : Addr := mkAddr s.dbr a

/-- Long: the 24-bit operand (46_store.md R161). -/
def longAddr (a : Addr) : Addr := a

/-- Long indexed: `(base + X) mod 2^24`, all 16 bits of `X` (46_store.md R163). -/
def longXAddr (s : State) (base : Addr) : Addr := base + s.x.setWidth 24

/-- The bank-0 offset of a direct-page pointer: `(D + dp) mod 2^16` (47_load.md R168). -/
def dpPointer (s : State) (dp : Byte) : Word := s.d + zext16 dp

/-- Indirect long indexed: the pointer plus `Y` at the index width, `mod 2^24` (47_load.md R168). -/
def dpilyAddr (s : State) (dp : Byte) : Except Fault Addr := do
  let ptr ← memRead0Long s (dpPointer s dp)
  .ok (ptr + (maskW s.idx16 s.y).setWidth 24)

/-- Relative: `(PC + sext_24(rel)) mod 2^24` (42_branch_call.md R130). -/
def relTarget (s : State) (rel : Byte) : Addr := s.pc + rel.signExtend 24

end Sys2Proof.Machine
end

