-- ==== Sys2Proof/Machine/Branch.lean ====
section
/-! DEFINITION. Relative branches and the subroutine call (42_branch_call.md R130 to R134). -/

namespace Sys2Proof.Machine

/-- `Branch(cond)`, `PC` already past the displacement byte (R130). -/
def branch (cond : Bool) (rel : Byte) (t : State) : Except Fault State :=
  .ok (if cond then { t with pc := relTarget t rel } else t)

/-- BPL: taken when `N = 0` (R131). -/
def execBpl (rel : Byte) (s : State) : Host.Outcome State Fault Refusal :=
  instr (.bpl rel) (!s.flag .n) s (branch (!s.flag .n) rel)

/-- BNE: taken when `Z = 0` (R132). -/
def execBne (rel : Byte) (s : State) : Host.Outcome State Fault Refusal :=
  instr (.bne rel) (!s.flag .z) s (branch (!s.flag .z) rel)

/-- BRA: always taken (R133). -/
def execBra (rel : Byte) (s : State) : Host.Outcome State Fault Refusal := instr (.bra rel) true s (branch true rel)

/-- JSR absolute: push the low 16 bits of `PC - 1`, then `PC <- {DBR, a}` (R134). -/
def execJsr (a : Word) (s : State) : Host.Outcome State Fault Refusal :=
  instr (.jsr a) false s fun t => do
    let u ← push16 t (offOf (t.pc - 1))
    .ok { u with pc := absAddr u a }

end Sys2Proof.Machine
end

