-- ==== Sys2Proof/Machine/Compare.lean ====
section
/-! DEFINITION. The compare instruction (45_compare.md R155). -/

namespace Sys2Proof.Machine

/-- The flags of a comparison of the accumulator with `m`, both at the accumulator width: `N` of the truncated difference, `Z`
for equality, `C` for an unsigned `>=`. -/
def compareA (t : State) (m : Word) : State :=
  let av := t.regW .a
  let diff := maskW t.acc16 (av - m)
  ((t.setFlag .n (t.autoN diff)).setFlag .z (av == m)).setFlag .c (decide (m.toNat ≤ av.toNat))

/-- CMP absolute (R155). -/
def execCmpAbs (a : Word) (s : State) : Host.Outcome State Fault Refusal :=
  instr (.cmpAbs a) false s fun t => do
    let m ← memReadW t t.acc16 (absAddr t a)
    .ok (compareA t m)

end Sys2Proof.Machine
end

