-- ==== Sys2Proof/Machine/IncDec.lean ====
section
/-! DEFINITION. Index increment and decrement instructions (44_incdec.md R150 to R153). -/

namespace Sys2Proof.Machine

/-- `IncDec(r, delta)`: the result is taken `mod 2^w` and written with `SetReg`. -/
def incDec (r : Reg) (delta : Word) (t : State) : Except Fault State :=
  .ok (t.setReg r (maskW (t.reg16 r) (t.regW r + delta)))

/-- INX (R150). -/
def execInx (s : State) : Host.Outcome State Fault Refusal := instr .inx false s (incDec .x 1)

/-- INY (R151). -/
def execIny (s : State) : Host.Outcome State Fault Refusal := instr .iny false s (incDec .y 1)

/-- DEX (R152). -/
def execDex (s : State) : Host.Outcome State Fault Refusal := instr .dex false s (incDec .x (-1))

/-- DEY (R153). -/
def execDey (s : State) : Host.Outcome State Fault Refusal := instr .dey false s (incDec .y (-1))

end Sys2Proof.Machine
end

