-- ==== Sys2Proof/Machine/Load.lean ====
section
/-! DEFINITION. Load instructions (47_load.md R165 to R168). -/

namespace Sys2Proof.Machine

/-- LDA immediate (R165). -/
def execLdaImm (v : Word) (s : State) : Host.Outcome State Fault Refusal :=
  instr (.ldaImm v) false s fun t => .ok (t.setReg .a v)

/-- LDX immediate (R166). -/
def execLdxImm (v : Word) (s : State) : Host.Outcome State Fault Refusal :=
  instr (.ldxImm v) false s fun t => .ok (t.setReg .x v)

/-- LDY immediate (R167). -/
def execLdyImm (v : Word) (s : State) : Host.Outcome State Fault Refusal :=
  instr (.ldyImm v) false s fun t => .ok (t.setReg .y v)

/-- LDA [dp],Y (R168). -/
def execLdaDpily (dp : Byte) (s : State) : Host.Outcome State Fault Refusal :=
  instr (.ldaDpily dp) false s fun t => do
    let addr ← dpilyAddr t dp
    let v ← memReadW t t.acc16 addr
    .ok (t.setReg .a v)

end Sys2Proof.Machine
end

