-- ==== Sys2Proof/Machine/Mode.lean ====
section
/-! DEFINITION. Mode-bit and mode-exchange instructions (49_mode.md R175 to R177). -/

namespace Sys2Proof.Machine

/-- `{0x00, v[7:0]}`. -/
def clearHigh (v : Word) : Word := mk16 0x00 (loByte v)

/-- Force `P.M` and `P.X` to 1 (10_state.md R24). -/
def State.force8 (t : State) : State := (t.setFlag .m true).setFlag .x true

/-- REP: clear the flags of the mask; in emulation mode `M` and `X` are forced again (R175). -/
def execRep (mask : Byte) (s : State) : Host.Outcome State Fault Refusal :=
  instr (.rep mask) false s fun t =>
    let u := { t with p := t.p &&& ~~~mask }
    .ok (if u.e then u.force8 else u)

/-- SEP: set the flags of the mask; a selected width bit zeroes the high bytes (R176). -/
def execSep (mask : Byte) (s : State) : Host.Outcome State Fault Refusal :=
  instr (.sep mask) false s fun t =>
    let u := { t with p := t.p ||| mask }
    let v := if mask.getLsbD 4 then { u with x := clearHigh u.x, y := clearHigh u.y } else u
    .ok (if mask.getLsbD 5 then { v with a := clearHigh v.a } else v)

/-- The five forced values of emulation mode (R177, 10_state.md R24). -/
def State.enterEmulation (t : State) : State :=
  { t.force8 with sp := pinSp true t.sp, x := clearHigh t.x, y := clearHigh t.y }

/-- XCE: exchange `E` and `C`; when the new `E` is 1, force (R177). -/
def execXce (s : State) : Host.Outcome State Fault Refusal :=
  instr .xce false s fun t =>
    let u := { t with e := t.flag .c }.setFlag .c t.e
    .ok (if u.e then u.enterEmulation else u)

end Sys2Proof.Machine
end

