-- ==== Sys2Proof/Machine/Stack.lean ====
section
/-! DEFINITION. Stack push instructions (41_stack_push.md R121 to R127). -/

namespace Sys2Proof.Machine

/-- PHP: always 8 bits (R121). -/
def execPhp (s : State) : Host.Outcome State Fault Refusal := instr .php false s fun t => push8 t t.p

/-- PHA: at the accumulator width (R122). -/
def execPha (s : State) : Host.Outcome State Fault Refusal := instr .pha false s fun t => pushW t t.acc16 t.a

/-- PHB: always 8 bits (R123). -/
def execPhb (s : State) : Host.Outcome State Fault Refusal := instr .phb false s fun t => push8 t t.dbr

/-- PHD: always 16 bits (R124). -/
def execPhd (s : State) : Host.Outcome State Fault Refusal := instr .phd false s fun t => push16 t t.d

/-- PHK: the bank byte of `PC` after the opcode fetch (R125). -/
def execPhk (s : State) : Host.Outcome State Fault Refusal := instr .phk false s fun t => push8 t (bankOf t.pc)

/-- PHX: at the index width (R126). -/
def execPhx (s : State) : Host.Outcome State Fault Refusal := instr .phx false s fun t => pushW t t.idx16 t.x

/-- PHY: at the index width (R127). -/
def execPhy (s : State) : Host.Outcome State Fault Refusal := instr .phy false s fun t => pushW t t.idx16 t.y

end Sys2Proof.Machine
end

