-- ==== Sys2Proof/Machine/StatusFlag.lean ====
section
/-! DEFINITION. Status-bit clear and set instructions (40_status_flag.md R110 to R116). -/

namespace Sys2Proof.Machine

/-- CLC (R110). -/
def execClc (s : State) : Host.Outcome State Fault Refusal := instr .clc false s fun t => .ok (t.setFlag .c false)

/-- CLI (R111). -/
def execCli (s : State) : Host.Outcome State Fault Refusal := instr .cli false s fun t => .ok (t.setFlag .i false)

/-- CLV (R112). -/
def execClv (s : State) : Host.Outcome State Fault Refusal := instr .clv false s fun t => .ok (t.setFlag .v false)

/-- CLD (R113). -/
def execCld (s : State) : Host.Outcome State Fault Refusal := instr .cld false s fun t => .ok (t.setFlag .d false)

/-- SEC (R114). -/
def execSec (s : State) : Host.Outcome State Fault Refusal := instr .sec false s fun t => .ok (t.setFlag .c true)

/-- SEI (R115). -/
def execSei (s : State) : Host.Outcome State Fault Refusal := instr .sei false s fun t => .ok (t.setFlag .i true)

/-- SED (R116). -/
def execSed (s : State) : Host.Outcome State Fault Refusal := instr .sed false s fun t => .ok (t.setFlag .d true)

end Sys2Proof.Machine
end

