-- ==== Sys2Proof/Machine/Store.lean ====
section
/-! DEFINITION. Store instructions (46_store.md R160 to R163). -/

namespace Sys2Proof.Machine

/-- STA absolute (R160). -/
def execStaAbs (a : Word) (s : State) : Host.Outcome State Fault Refusal :=
  instr (.staAbs a) false s fun t => memWriteW t t.acc16 (absAddr t a) t.a

/-- STA long (R161). -/
def execStaLong (a : Addr) (s : State) : Host.Outcome State Fault Refusal :=
  instr (.staLong a) false s fun t => memWriteW t t.acc16 (longAddr a) t.a

/-- STZ absolute: the accumulator width governs (R162). -/
def execStzAbs (a : Word) (s : State) : Host.Outcome State Fault Refusal :=
  instr (.stzAbs a) false s fun t => memWriteW t t.acc16 (absAddr t a) 0

/-- The register and the width that opcode 0x9F stores (R163). -/
def stored9f (t : State) : Reg :=
  match t.p9f with
  | .x => .x
  | .a => .a

/-- Opcode 0x9F, STX long,X (R163). -/
def execStxLongX (base : Addr) (s : State) : Host.Outcome State Fault Refusal :=
  instr (.stxLongX base) false s fun t => memWriteW t (t.reg16 (stored9f t)) (longXAddr t base) (t.reg (stored9f t))

end Sys2Proof.Machine
end

