-- ==== Sys2Proof/Machine/Subtract.lean ====
section
/-! DEFINITION. Subtract with borrow (48_sbc.md R170). -/

namespace Sys2Proof.Machine

/-- The subtraction proper: `A`, `C`, `V`, `N`, `Z` at the accumulator width; at width 8 the high byte of `A` takes no part. -/
def subtractA (t : State) (imm : Word) : State :=
  let w := t.acc16
  let m := maskW w imm
  let av := t.regW .a
  let res := subRes w av m (t.flag .c)
  let u := (t.setFlag .c (subCarry w av m (t.flag .c))).setFlag .v (subOverflow w av m res)
  let r := (u.setFlag .n (t.autoN res)).setFlag .z (t.autoZ res)
  { r with a := mergeW w t.a res }

/-- SBC immediate: with `P.D = 1` and an 8-bit accumulator it raises, before any change (R170); at 16 bits it computes in binary
(92_eei_decisions.md D23, assumption 10). -/
def execSbcImm (imm : Word) (s : State) : Host.Outcome State Fault Refusal :=
  instr (.sbcImm imm) false s fun t =>
    if t.flag .d && !t.acc16 then .error (.unsupportedInstructionVariant 0xE9 s.pc) else .ok (subtractA t imm)

end Sys2Proof.Machine
end

