-- ==== Sys2Proof/Machine/Transfer.lean ====
section
/-! DEFINITION. Register transfer instructions (43_transfer.md R140 to R144). The destination's width governs. -/

namespace Sys2Proof.Machine

/-- TAX (R140). -/
def execTax (s : State) : Host.Outcome State Fault Refusal := instr .tax false s fun t => .ok (t.setReg .x t.a)

/-- TAY (R141). -/
def execTay (s : State) : Host.Outcome State Fault Refusal := instr .tay false s fun t => .ok (t.setReg .y t.a)

/-- TCD: always 16 bits, `N` and `Z` from all of them (R142). -/
def execTcd (s : State) : Host.Outcome State Fault Refusal :=
  instr .tcd false s fun t => .ok ({ t with d := t.a }.setNZ true t.a)

/-- TCS: always 16 bits, no flag, the high byte pinned when `E = 1` (R143). -/
def execTcs (s : State) : Host.Outcome State Fault Refusal := instr .tcs false s fun t => .ok { t with sp := pinSp t.e t.a }

/-- TYA (R144). -/
def execTya (s : State) : Host.Outcome State Fault Refusal := instr .tya false s fun t => .ok (t.setReg .a t.y)

end Sys2Proof.Machine
end

