-- ==== Sys2Proof/Machine/Dispatch.lean ====
section
/-! DEFINITION. One arm per instruction (30_encoding.md R93): the whole effect of an instruction whose bytes have been fetched at
`PC`, the advance of `PC` and of `CYC` included (70_reset_and_hazards.md R210). -/

namespace Sys2Proof.Machine

def exec (i : Instr) (s : State) : Host.Outcome State Fault Refusal :=
  match i with
  | .php => Sys2Proof.Machine.execPhp s
  | .phd => Sys2Proof.Machine.execPhd s
  | .bpl rel => Sys2Proof.Machine.execBpl rel s
  | .clc => Sys2Proof.Machine.execClc s
  | .tcs => Sys2Proof.Machine.execTcs s
  | .jsr addr => Sys2Proof.Machine.execJsr addr s
  | .sec => Sys2Proof.Machine.execSec s
  | .pha => Sys2Proof.Machine.execPha s
  | .phk => Sys2Proof.Machine.execPhk s
  | .cli => Sys2Proof.Machine.execCli s
  | .phy => Sys2Proof.Machine.execPhy s
  | .tcd => Sys2Proof.Machine.execTcd s
  | .sei => Sys2Proof.Machine.execSei s
  | .bra rel => Sys2Proof.Machine.execBra rel s
  | .dey => Sys2Proof.Machine.execDey s
  | .phb => Sys2Proof.Machine.execPhb s
  | .staAbs addr => Sys2Proof.Machine.execStaAbs addr s
  | .staLong addr => Sys2Proof.Machine.execStaLong addr s
  | .tya => Sys2Proof.Machine.execTya s
  | .stzAbs addr => Sys2Proof.Machine.execStzAbs addr s
  | .stxLongX base => Sys2Proof.Machine.execStxLongX base s
  | .ldyImm imm => Sys2Proof.Machine.execLdyImm imm s
  | .ldxImm imm => Sys2Proof.Machine.execLdxImm imm s
  | .tay => Sys2Proof.Machine.execTay s
  | .ldaImm imm => Sys2Proof.Machine.execLdaImm imm s
  | .tax => Sys2Proof.Machine.execTax s
  | .ldaDpily dp => Sys2Proof.Machine.execLdaDpily dp s
  | .clv => Sys2Proof.Machine.execClv s
  | .rep mask => Sys2Proof.Machine.execRep mask s
  | .iny => Sys2Proof.Machine.execIny s
  | .dex => Sys2Proof.Machine.execDex s
  | .cmpAbs addr => Sys2Proof.Machine.execCmpAbs addr s
  | .bne rel => Sys2Proof.Machine.execBne rel s
  | .cld => Sys2Proof.Machine.execCld s
  | .phx => Sys2Proof.Machine.execPhx s
  | .sep mask => Sys2Proof.Machine.execSep mask s
  | .inx => Sys2Proof.Machine.execInx s
  | .sbcImm imm => Sys2Proof.Machine.execSbcImm imm s
  | .sed => Sys2Proof.Machine.execSed s
  | .xce => Sys2Proof.Machine.execXce s

end Sys2Proof.Machine
end

