-- ==== Sys2Proof/Machine/Fetch.lean ====
section
/-! DEFINITION. Fetching an instruction's bytes at `PC` (30_encoding.md R91, R99), and putting an instruction where the next fetch
finds it. -/

namespace Sys2Proof.Machine

/-- The instruction at `PC`: the opcode byte, then, if it is assigned, its operand bytes in ascending order. An unassigned byte
raises before any operand byte is fetched (R94). -/
def fetchInstr (s : State) : Except Fault Instr := do
  let op ← busRead s s.pc
  match opRow op with
  | none => .error (.undefinedOpcode op s.pc)
  | some row =>
    let bs ← readBytes s (s.pc + 1) (row.format.length s.widths - 1)
    match decode s.widths (op :: bs) with
    | .ok p => .ok p.1
    | .error _ => .error (.undefinedOpcode op s.pc)

/-- Store one byte where a fetch at `a` reads it: work RAM, a readable latch, or the cartridge under LoROM. `none` where no fetch
can read. -/
def placeByte (s : State) (a : Addr) (b : Byte) : Option State :=
  match region a with
  | .wram i => some { s with wram := s.wram.write i b }
  | .io off =>
    match ioRegAt off with
    | some r => if r.readable then some { s with io := s.io.set r b } else none
    | none => none
  | .cart =>
    match s.map with
    | .hiROM => none
    | .loROM => if 0x8000 ≤ (offOf a).toNat then some { s with rom := s.rom.place (loRomIndex a) b } else none

/-- Store bytes at ascending addresses. -/
def placeBytes (s : State) (a : Addr) : List Byte → Option State
  | [] => some s
  | b :: bs =>
    match placeByte s a b with
    | some t => placeBytes t (a + 1) bs
    | none => none

/-- The state with bytes stored where the next step fetches. The fault latch is cleared, since a latched machine fetches nothing;
where `PC` points at bytes that cannot be read, `PC` moves to 00:0000, which is work RAM (assumption 12). -/
def loadAtPc (s : State) (bs : List Byte) : State :=
  match placeBytes { s with fault := none } s.pc bs with
  | some t => t
  | none => (placeBytes { s with fault := none, pc := 0 } 0 bs).getD s

end Sys2Proof.Machine
end

