-- ==== Sys2Proof/Machine/Step.lean ====
section
/-! DEFINITION. The step (70_reset_and_hazards.md R210): a latched machine returns its fault and does nothing; otherwise the
instruction at `PC` is fetched and run. -/

namespace Sys2Proof.Machine

/-- `Step` (R210). -/
def step (s : State) : Host.Outcome State Fault Refusal :=
  match s.fault with
  | some latch => .fault latch.cause
  | none =>
    match fetchInstr s with
    | .ok i => exec i s
    | .error f => .fault f

/-- `s` with an opcode-table word stored where `step` fetches its next instruction. -/
def State.withFetchWord (s : State) (nbits w : Nat) : State := loadAtPc s (tableBytes nbits w)

end Sys2Proof.Machine
end

