-- ==== Sys2Proof/Machine/Reset.lean ====
section
/-! DEFINITION. Header location and reset (70_reset_and_hazards.md R200 to R205). -/

namespace Sys2Proof.Machine

/-- Strip a 512-byte copier header, present when `size mod 1024 = 512` (R200). -/
def stripCopier (raw : Image) : Image := if raw.size % 1024 = 512 then raw.drop 512 else raw

/-- The candidate offset of a scheme (R201). -/
def MapMode.headerOffset : MapMode → Nat
  | .loROM => 0x7FC0
  | .hiROM => 0xFFC0

/-- A candidate is reachable when every byte the locator indexes exists (R201). -/
def reachable (rom : Image) (c : MapMode) : Bool := decide (c.headerOffset + 0x3E ≤ rom.size)

/-- The low nibble of the map-mode byte (R202). -/
def mapNibble (rom : Image) (c : MapMode) : BitVec 4 := (rom.byte (c.headerOffset + 0x15)).extractLsb' 0 4

/-- The little-endian reset vector of a candidate (R202). -/
def resetVector (rom : Image) (c : MapMode) : Word :=
  mk16 (rom.byte (c.headerOffset + 0x3D)) (rom.byte (c.headerOffset + 0x3C))

/-- The part of the score the declared map mode gives; nibble 3 is fatal (R202). -/
def modeScore (nibble : BitVec 4) (c : MapMode) : Except Fault Int :=
  if nibble = 0 then .ok (if c = .loROM then 1 else -10)
  else if nibble = 1 then .ok (if c = .hiROM then 1 else -10)
  else if nibble = 3 then .error (.unsupportedAddressingScheme (.mapMode nibble))
  else .ok (-100)

/-- The lowest reset vector that costs nothing (R202). -/
def MapMode.vectorFloor : MapMode → Nat
  | .loROM => 0x8000
  | .hiROM => 0xC000

/-- `Score(c)` (R202). -/
def score (rom : Image) (c : MapMode) : Except Fault Int := do
  let base ← modeScore (mapNibble rom c) c
  .ok (if (resetVector rom c).toNat < c.vectorFloor then base - 10 else base)

/-- `LocateHeader(ROM)`: the strictly better candidate, ties to LoROM (R201). -/
def locateHeader (rom : Image) : Except Fault MapMode :=
  if reachable rom .loROM then do
    let lo ← score rom .loROM
    if reachable rom .hiROM then do
      let hi ← score rom .hiROM
      .ok (if lo < hi then .hiROM else .loROM)
    else .ok .loROM
  else .error (.ioError rom.size)

/-- The state reset builds once the strap is known: bus zero, registers from `RESET_REGS`, `PC` from the vector, read from the
buffer and not through the bus (R205 steps 3 to 6). -/
def initialState (regs : ResetRegs) (src : P9FSource) (costs : CycleTable) (rom : Image) (map : MapMode) : State :=
  { a := regs.a, x := regs.x, y := regs.y, sp := regs.sp, d := regs.d, dbr := regs.dbr, p := regs.p, e := regs.e,
    pc := mkAddr regs.dbr (resetVector rom map), cyc := 0, fault := none, wram := [], io := IoRegs.zero, ioLog := [],
    rom := rom, map := map, p9f := src, costs := costs }

/-- `Reset(RAW)`: the initial state or a fault (R205, 00_scope.md R5). -/
def resetMachine (regs : ResetRegs) (src : P9FSource) (costs : CycleTable) (raw : Image) : Host.Outcome State Fault Refusal :=
  match locateHeader (stripCopier raw) with
  | .ok map => .next (initialState regs src costs (stripCopier raw) map)
  | .error f => .fault f

/-- The machine after `Reset`, with `FAULT` holding the fault of a reset that failed, so that no step is ever taken (R205). The
other fields of such a machine are the model's choice (assumption 9). -/
def boot (regs : ResetRegs) (src : P9FSource) (costs : CycleTable) (raw : Image) : State :=
  match resetMachine regs src costs raw with
  | .next s => s
  | .fault f => { initialState regs src costs (stripCopier raw) .loROM with fault := some { cause := f, pc := none } }
  | .refused _ => initialState regs src costs (stripCopier raw) .loROM

end Sys2Proof.Machine
end

