-- ==== Sys2Proof/Safety.lean ====
section
/-! DEFINITION. What claims about runs are stated in: the invariants the spec gives (10_state.md R24, R25), the form of the
memories, and a run of a number of steps without a fault (00_scope.md R6, 60_exceptions.md R181: "every claim about a program
takes `FAULT = none` as a premise or names the fault as the outcome"). -/

namespace Sys2Proof.Machine

/-- The emulation invariant (R24). -/
abbrev State.EmulationInv (s : State) : Prop :=
  s.e = true → s.flag .m = true ∧ s.flag .x = true ∧ hiByte s.sp = 0x01 ∧ hiByte s.x = 0 ∧ hiByte s.y = 0

/-- The index invariant (R25). -/
abbrev State.IndexInv (s : State) : Prop := s.flag .x = true → hiByte s.x = 0 ∧ hiByte s.y = 0

/-- Work RAM and ROM are in canonical form, and nothing is listed beyond their sizes (20_memory.md R54, 00_scope.md R3). -/
abbrev State.MemoryWf (s : State) : Prop :=
  s.wram.wf = true ∧ s.wram.below Config.wramSize = true ∧ s.rom.wf = true

/-- The states the rules speak of: those a run from reset can reach meet all three. -/
structure State.Inv (s : State) : Prop where
  emulation : s.EmulationInv
  index : s.IndexInv
  memory : s.MemoryWf

/-- `n` steps from `s` complete without a fault and reach `t` (R6). -/
def RunsTo (n : Nat) (s t : State) : Prop := Sys2Proof.core.run n s = .next t

/-- A state from which `n` steps complete without a fault. -/
def Safe (n : Nat) (s : State) : Prop := ∃ t, RunsTo n s t

end Sys2Proof.Machine
end

