-- ==== Sys2Proof/Certificates/Slice0/Obligations.lean ====
section
/-! DEFINITION. The statements for the provers. Each docstring names the rule of spec/ it formalises; where the rule rests on a
decision of the spec (92_eei_decisions.md D<n>) or on an assumption of the model, the docstring says so. `CYCLES` enters every
result as the function `State.cycles`, and one statement says what that charges: the parameter, by default the default table. Wherever a result is a whole status byte, the places of its
bits are the spec's decision D7; wherever an opcode byte stands, it is the spec's decision D2. -/

namespace Sys2Proof.Claims
open Sys2Proof Sys2Proof.Machine

/-! Vocabulary of the statements, written apart from the model's own flag and register operations. -/

/-- A status byte with `N` (bit 7) and `Z` (bit 1) replaced. -/
def withNZ (p : Byte) (n z : Bool) : Byte := (p &&& 0x7D) ||| (if n then 0x80 else 0) ||| (if z then 0x02 else 0)

/-- A status byte with `C` (bit 0) replaced. -/
def withC (p : Byte) (c : Bool) : Byte := (p &&& 0xFE) ||| (if c then 0x01 else 0)

/-- A status byte with `V` (bit 6) replaced. -/
def withV (p : Byte) (v : Bool) : Byte := (p &&& 0xBF) ||| (if v then 0x40 else 0)

/-- `N` and `Z` from all 16 bits of a value. -/
def nz16 (p : Byte) (v : Word) : Byte := withNZ p v.msb (v == 0)

/-- `N` and `Z` from a byte. -/
def nz8 (p : Byte) (v : Byte) : Byte := withNZ p v.msb (v == 0)

/-- A register after a 16-bit or an 8-bit write of `v`. -/
def written (w16 : Bool) (old v : Word) : Word := if w16 then v else mk16 (hiByte old) (loByte v)

/-- The status byte after such a write. -/
def writtenP (w16 : Bool) (p : Byte) (v : Word) : Byte := if w16 then nz16 p v else nz8 p (loByte v)

/-- The stack pointer one byte lower, its high byte pinned in emulation mode. -/
def below (e : Bool) (sp : Word) : Word := if e then mk16 0x01 (loByte (sp - 1)) else sp - 1

/-- The borrow that a carry flag stands for: `1 - C`. -/
def borrow (c : Bool) : Nat := if c then 0 else 1

/-- The forty assigned opcode bytes (30_encoding.md R93). -/
def assigned : List Byte :=
  [0x08, 0x0B, 0x10, 0x18, 0x1B, 0x20, 0x38, 0x48, 0x4B, 0x58, 0x5A, 0x5B, 0x78, 0x80, 0x88, 0x8B, 0x8D, 0x8F, 0x98, 0x9C] ++
  [0x9F, 0xA0, 0xA2, 0xA8, 0xA9, 0xAA, 0xB7, 0xB8, 0xC2, 0xC8, 0xCA, 0xCD, 0xD0, 0xD8, 0xDA, 0xE2, 0xE8, 0xE9, 0xF8, 0xFB]

/-- The twelve opcode bytes of the instructions that write to the bus: the pushes, JSR and the stores (60_exceptions.md R183). -/
def storing : List Byte := [0x08, 0x48, 0x8B, 0x0B, 0x4B, 0xDA, 0x5A, 0x20, 0x8D, 0x8F, 0x9C, 0x9F]

/-- The offsets at which a latch can be read (20_memory.md R61). -/
def readableOffsets : List Word := [0x2140, 0x2141, 0x2142, 0x2143]

/-- The offsets at which a latch can be written (20_memory.md R60). -/
def writableOffsets : List Word := [0x2100, 0x2101, 0x2140, 0x2141, 0x2142, 0x2143, 0x4200, 0x420B, 0x420C]

/-- Reading bytes one by one from `a` gives `bs`. -/
def BytesAt (s : State) (a : Addr) (bs : List Byte) : Prop :=
  ∀ k, (h : k < bs.length) → busRead s (a + BitVec.ofNat 24 k) = .ok bs[k]

/-- Every byte reads after as it read before, but for those in the stored regions. -/
def ReadsAsBeforeBut (s t : State) (stored : List Region) : Prop :=
  ∀ b, region b ∉ stored → busRead t b = busRead s b

/-- The bytes of a store at a width, in the order of the writes, each with where its address decodes to: one byte, or two at
ascending addresses, the low byte first. -/
def span (w16 : Bool) (a : Addr) (v : Word) : List (Region × Byte) :=
  if w16 then [(region a, loByte v), (region (a + 1), hiByte v)] else [(region a, loByte v)]

/-- The bytes of a push at a width, in the order of the writes: in bank 0 from the stack pointer down, the high byte first. -/
def pushSpan (w16 : Bool) (s : State) (v : Word) : List (Region × Byte) :=
  if w16 then [(region (mkAddr 0 s.sp), hiByte v), (region (mkAddr 0 (below s.e s.sp)), loByte v)] else [(region (mkAddr 0 s.sp), loByte v)]

/-- The latch writes among stored bytes. -/
def latchWrites : List (Region × Byte) → List (Word × Byte)
  | [] => []
  | (.io o, v) :: rest => (o, v) :: latchWrites rest
  | (.wram _, _) :: rest => latchWrites rest
  | (.cart, _) :: rest => latchWrites rest

/-- From `s` to `t` exactly the bytes `stored` were stored. A stored byte in work RAM reads back at every address of that byte, and one
in the I/O window stands in its latch; every other address reads as before, every other latch holds what it held, the unreadable
ones too, and the output of the block grows by the stored latch writes, in order. -/
def StoredExactly (s t : State) (stored : List (Region × Byte)) : Prop :=
  ReadsAsBeforeBut s t (stored.map Prod.fst) ∧
  (∀ (b : Addr) (k : Nat) (v : Byte), region b = .wram k → (.wram k, v) ∈ stored → busRead t b = .ok v) ∧
  (∀ (r : IoReg) (v : Byte), (.io r.offset, v) ∈ stored → t.io.get r = v) ∧
  (∀ r : IoReg, .io r.offset ∉ stored.map Prod.fst → t.io.get r = s.io.get r) ∧
  t.ioLog = s.ioLog ++ latchWrites stored

/-- The same state but for what a store may write: `PC`, `CYC`, `S`, work RAM, the I/O latches and the output log. -/
def SameButStore (s t : State) : Prop :=
  t = { s with pc := t.pc, cyc := t.cyc, sp := t.sp, wram := t.wram, io := t.io, ioLog := t.ioLog }

/-- The two states agree but for the five latches that no access can read. -/
def SameButWriteOnly (s t : State) : Prop :=
  { t with io := { t.io with inidisp := s.io.inidisp, obsel := s.io.obsel, nmitimen := s.io.nmitimen, mdmaen := s.io.mdmaen, hdmaen := s.io.hdmaen } } = s

/-- Outcomes of two steps that differ at most as `SameButWriteOnly` allows. -/
def SameOutcomeButWriteOnly : Host.Outcome State Fault Refusal → Host.Outcome State Fault Refusal → Prop
  | .next t, .next t' => SameButWriteOnly t t'
  | .fault f, .fault f' => f = f'
  | .refused r, .refused r' => r = r'
  | .next _, .fault _ => False
  | .next _, .refused _ => False
  | .fault _, .next _ => False
  | .fault _, .refused _ => False
  | .refused _, .next _ => False
  | .refused _, .fault _ => False

/-- An outcome with `k` more cycles counted. -/
def addCyc (k : Nat) : Host.Outcome State Fault Refusal → Host.Outcome State Fault Refusal
  | .next t => .next { t with cyc := t.cyc + k }
  | .fault f => .fault f
  | .refused r => .refused r

/-- What an instruction can write besides `PC` and `CYC`. -/
inductive Dest where
  | a
  | x
  | y
  | s
  | d
  | e
  | memory
  | flag (f : Flag)
deriving DecidableEq, Repr

/-- `N` and `Z`. -/
def nAndZ : List Dest := [.flag .n, .flag .z]

/-- Every flag. -/
def allFlags : List Dest := [.flag .n, .flag .v, .flag .m, .flag .x, .flag .d, .flag .i, .flag .z, .flag .c]

/-- What each instruction writes (10_state.md R26, column "writes"). -/
def writes : Instr → List Dest
  | .clc => [.flag .c]
  | .sec => [.flag .c]
  | .cli => [.flag .i]
  | .sei => [.flag .i]
  | .clv => [.flag .v]
  | .cld => [.flag .d]
  | .sed => [.flag .d]
  | .php => [.memory, .s]
  | .pha => [.memory, .s]
  | .phb => [.memory, .s]
  | .phd => [.memory, .s]
  | .phk => [.memory, .s]
  | .phx => [.memory, .s]
  | .phy => [.memory, .s]
  | .bpl _ => []
  | .bne _ => []
  | .bra _ => []
  | .jsr _ => [.memory, .s]
  | .tax => .x :: nAndZ
  | .tay => .y :: nAndZ
  | .tcd => .d :: nAndZ
  | .tcs => [.s]
  | .tya => .a :: nAndZ
  | .inx => .x :: nAndZ
  | .dex => .x :: nAndZ
  | .iny => .y :: nAndZ
  | .dey => .y :: nAndZ
  | .cmpAbs _ => .flag .c :: nAndZ
  | .staAbs _ => [.memory]
  | .staLong _ => [.memory]
  | .stzAbs _ => [.memory]
  | .stxLongX _ => [.memory]
  | .ldaImm _ => .a :: nAndZ
  | .ldxImm _ => .x :: nAndZ
  | .ldyImm _ => .y :: nAndZ
  | .ldaDpily _ => .a :: nAndZ
  | .sbcImm _ => .a :: .flag .v :: .flag .c :: nAndZ
  | .rep _ => allFlags
  | .sep _ => .a :: .x :: .y :: allFlags
  | .xce => [.e, .flag .c, .flag .m, .flag .x, .s, .x, .y]

/-- The score of a header candidate from its map-mode nibble and its reset vector (70_reset_and_hazards.md R202), for a nibble
other than 3. -/
def headerScore (hi : Bool) (nibble : BitVec 4) (vector : Word) : Int :=
  (if nibble = 0 then (if hi then -10 else 1) else if nibble = 1 then (if hi then 1 else -10) else -100) +
  (if vector.toNat < (if hi then 0xC000 else 0x8000) then -10 else 0)

/-- The low nibble of a byte of an image. -/
def nibbleAt (rom : Image) (i : Nat) : BitVec 4 := (rom.byte i).extractLsb' 0 4

/-- The little-endian word at an index of an image. -/
def wordAt (rom : Image) (i : Nat) : Word := mk16 (rom.byte (i + 1)) (rom.byte i)

end Sys2Proof.Claims

open Sys2Proof Sys2Proof.Machine Sys2Proof.Claims

/-! ### Encoding -/

/-- Decoding the bytes of a well-formed instruction gives it back, with the bytes after it, at every width
(30_encoding.md R90 to R93; byte values D2). -/
def Obligations.DecodeOfEncodeIsIdentity : Prop :=
  ∀ (wd : Widths) (i : Instr) (rest : List Byte), i.wellFormed wd = true → decode wd (encode wd i ++ rest) = .ok (i, rest)

/-- Whatever decodes is well-formed, and its encoding is exactly the bytes it was read from (30_encoding.md R90 to R93, R95). -/
def Obligations.EncodeOfDecodeIsIdentity : Prop :=
  ∀ (wd : Widths) (bs rest : List Byte) (i : Instr), decode wd bs = .ok (i, rest) →
    i.wellFormed wd = true ∧ encode wd i ++ rest = bs

/-- Words written out from the opcode map of 30_encoding.md R93 and the formats of R90, one or more per family, decode to the
instructions they stand for. -/
def Obligations.WrittenOutWordsDecode : Prop :=
  decode ⟨false, false⟩ [0x18] = .ok (.clc, []) ∧
  decode ⟨false, false⟩ [0x8B] = .ok (.phb, []) ∧
  decode ⟨false, false⟩ [0xD0, 0xF9] = .ok (.bne 0xF9, []) ∧
  decode ⟨false, false⟩ [0x20, 0x10, 0x80] = .ok (.jsr 0x8010, []) ∧
  decode ⟨false, false⟩ [0x5B] = .ok (.tcd, []) ∧
  decode ⟨false, false⟩ [0x88] = .ok (.dey, []) ∧
  decode ⟨false, false⟩ [0xCD, 0x40, 0x21] = .ok (.cmpAbs 0x2140, []) ∧
  decode ⟨false, false⟩ [0x8F, 0x10, 0x00, 0x7E] = .ok (.staLong 0x7E0010, []) ∧
  decode ⟨false, false⟩ [0x9F, 0x00, 0x00, 0x7E] = .ok (.stxLongX 0x7E0000, []) ∧
  decode ⟨false, true⟩ [0xA0, 0x04, 0x00] = .ok (.ldyImm 0x0004, []) ∧
  decode ⟨true, false⟩ [0xB7, 0x10] = .ok (.ldaDpily 0x10, []) ∧
  decode ⟨true, false⟩ [0xE9, 0x34, 0x02] = .ok (.sbcImm 0x0234, []) ∧
  decode ⟨false, false⟩ [0xC2, 0x30] = .ok (.rep 0x30, []) ∧
  decode ⟨false, false⟩ [0xFB] = .ok (.xce, []) ∧
  decode ⟨false, false⟩ [0xFF] = .error (.undefinedOpcode 0xFF)

/-- 30_encoding.md R96: the length is a function of the opcode byte and, for 0xA9, 0xE9, 0xA0, 0xA2, of the current width; the
widths never change the operation selected; and the same bytes `A9 34 12` are one instruction at width 16 and an `LDA #$34`
followed by an undefined opcode at width 8. -/
def Obligations.LengthFollowsOpcodeAndWidths : Prop :=
  (∀ (wd : Widths) (op : Byte) (bs rest : List Byte) (i : Instr), decode wd (op :: bs) = .ok (i, rest) →
    (op :: bs).length = rest.length +
      (if op ∈ [0xA9#8, 0xE9#8] then (if wd.acc16 then 3 else 2)
       else if op ∈ [0xA0#8, 0xA2#8] then (if wd.idx16 then 3 else 2)
       else if op ∈ [0xC2#8, 0xE2#8, 0x10#8, 0x80#8, 0xD0#8, 0xB7#8] then 2
       else if op ∈ [0x20#8, 0x8D#8, 0x9C#8, 0xCD#8] then 3
       else if op ∈ [0x8F#8, 0x9F#8] then 4
       else 1)) ∧
  (∀ (wd wd' : Widths) (op : Byte) (bs rest : List Byte) (i : Instr), decode wd (op :: bs) = .ok (i, rest) →
    (encode wd' i).head? = some op) ∧
  (∀ x : Bool, decode ⟨true, x⟩ [0xA9, 0x34, 0x12] = .ok (.ldaImm 0x1234, [])) ∧
  (∀ x : Bool, decode ⟨false, x⟩ [0xA9, 0x34, 0x12] = .ok (.ldaImm 0x34, [0x12])) ∧
  (∀ wd : Widths, decode wd [0x12] = .error (.undefinedOpcode 0x12))

/-- 30_encoding.md R94: 216 opcode bytes are not in the map; each raises `UndefinedOpcode` with the byte and its address, whatever
follows it and whether or not what follows can be read; 0xFF is one of them. -/
def Obligations.UnassignedOpcodesRaiseUndefinedOpcode : Prop :=
  ((List.range 256).filter fun n => !assigned.contains (BitVec.ofNat 8 n)).length = 216 ∧ (0xFF : Byte) ∉ assigned ∧
  ∀ (s : State) (op : Byte), s.fault = none → busRead s s.pc = .ok op → op ∉ assigned → step s = .fault (.undefinedOpcode op s.pc)

/-! ### The step and its faults -/

/-- When the bytes at `PC` decode at the current widths to an instruction, the step is that instruction's `exec` at that state:
`exec` itself moves `PC` past the bytes and charges `CYC` (70_reset_and_hazards.md R210, 30_encoding.md R91). -/
def Obligations.StepRunsDecodedInstruction : Prop :=
  ∀ (s : State) (bs : List Byte) (i : Instr), s.fault = none → BytesAt s s.pc bs → decode s.widths bs = .ok (i, []) →
    step s = exec i s

/-- 60_exceptions.md R181 (D20): a raise leaves the state before the step with `FAULT` latched; while it is latched, every step
returns the same fault and changes nothing. -/
def Obligations.FaultIsLatchedAndSticky : Prop :=
  (∀ (s : State) (f : Fault), s.fault = none → step s = .fault f →
    stateAfter s (step s) = { s with fault := some { cause := f, pc := some s.pc } }) ∧
  (∀ (s : State) (l : FaultLatch), s.fault = some l → step s = .fault l.cause ∧ stateAfter s (step s) = s)

/-- 30_encoding.md R91, 60_exceptions.md R184 (D21): a fetch that faults ends the step with the bus fault of the first byte, in
ascending address order, that cannot be read; the opcode byte comes first. -/
def Obligations.FirstUnreadableFetchByteFaults : Prop :=
  (∀ (s : State) (f : Fault), s.fault = none → busRead s s.pc = .error f → step s = .fault f) ∧
  (∀ (s : State) (op : Byte) (row : OpRow) (k : Nat) (f : Fault), s.fault = none → busRead s s.pc = .ok op → opRow op = some row →
    k + 1 < row.format.length s.widths →
    (∀ j, j < k → ∃ b, busRead s (s.pc + 1 + BitVec.ofNat 24 j) = .ok b) →
    busRead s (s.pc + 1 + BitVec.ofNat 24 k) = .error f → step s = .fault f)

/-- 60_exceptions.md R180, R183 (opcode bytes: D2; causes: D16 to D19, D21): which faults a step can raise, and for what. `IoError` and
a map-mode fault never. Under HiROM `UnsupportedAddressingScheme` for an address of case (d), or for any address when the opcode at
`PC` is one of the twelve that write to the bus. Under LoROM `UnmappedAddress` for an address of case (d) that no byte of the image
answers, or for any address of case (d) when the opcode writes. `UnsupportedIoRegister` for an offset of the I/O window that is not
recognised for the direction, a write only under LoROM and by an opcode that writes. `UndefinedOpcode` for an unassigned byte at `PC`.
`UnsupportedInstructionVariant` for 0xE9 at `PC` with `P.D = 1` and an 8-bit accumulator. -/
def Obligations.StepFaultsOnlyForTheirCauses : Prop :=
  ∀ (s : State) (f : Fault), s.fault = none → step s = .fault f →
    match f with
    | .ioError _ => False
    | .unsupportedAddressingScheme (.mapMode _) => False
    | .unsupportedAddressingScheme (.address a) =>
      s.map = .hiROM ∧ (region a = .cart ∨ ∃ op, busRead s s.pc = .ok op ∧ op ∈ storing)
    | .unmappedAddress a =>
      s.map = .loROM ∧ region a = .cart ∧
        ((offOf a).toNat < 0x8000 ∨ s.rom.size ≤ ((offOf a).toNat - 0x8000) + (bankOf a).toNat * 0x8000 ∨
          ∃ op, busRead s s.pc = .ok op ∧ op ∈ storing)
    | .unsupportedIoRegister off .read =>
      0x2000 ≤ off.toNat ∧ off.toNat < 0x6000 ∧ off ∉ readableOffsets
    | .unsupportedIoRegister off .write =>
      0x2000 ≤ off.toNat ∧ off.toNat < 0x6000 ∧ off ∉ writableOffsets ∧ s.map = .loROM ∧
        ∃ op, busRead s s.pc = .ok op ∧ op ∈ storing
    | .undefinedOpcode op at_ => at_ = s.pc ∧ busRead s s.pc = .ok op ∧ op ∉ assigned
    | .unsupportedInstructionVariant op at_ =>
      at_ = s.pc ∧ op = 0xE9 ∧ busRead s s.pc = .ok op ∧ s.flag .d = true ∧ s.acc16 = false

/-- 60_exceptions.md R190 (D30): no instruction is privileged and none is turned away: a step ends in a next state or in one of the
faults, never in a refusal. -/
def Obligations.StepNeverRefuses : Prop := ∀ (s : State) (r : Refusal), step s ≠ .refused r

/-! ### Invariants and whole-machine rules -/

/-- 10_state.md R24, the emulation invariant: `E = 1` implies `P.M = 1`, `P.X = 1`, `S[15:8] = 0x01`, `X[15:8] = 0`, `Y[15:8] = 0`
after reset, and every step keeps it. -/
def Obligations.EmulationInvariantKept : Prop :=
  (∀ (src : P9FSource) (costs : CycleTable) (raw : Image) (s : State), resetMachine Config.resetRegs src costs raw = .next s → s.EmulationInv) ∧
  (∀ s t : State, s.EmulationInv → step s = .next t → t.EmulationInv)

/-- 10_state.md R25, the index invariant: with the emulation invariant, every step keeps `P.X = 1` implies `X[15:8] = 0` and
`Y[15:8] = 0`. -/
def Obligations.IndexInvariantKept : Prop :=
  ∀ s t : State, s.EmulationInv → s.IndexInv → step s = .next t → t.IndexInv

/-- Work RAM keeps its canonical form within its 0x20000 bytes (20_memory.md R54), and ROM its own, at every step. -/
def Obligations.MemoryFormKept : Prop := ∀ s t : State, s.MemoryWf → step s = .next t → t.MemoryWf

/-- The state after reset meets every invariant, and it is what `Reset` builds from the blank image (the model's choice of image:
assumption 2). -/
def Obligations.ResetStateMeetsInvariants : Prop :=
  State.reset.Inv ∧ resetMachine Config.resetRegs Config.p9fDefault Config.cyclesDefault blankImage = .next State.reset

/-- In canonical form, arrays that read alike at every index are the same list (the model's representation, assumption 3). -/
def Obligations.CanonicalMemoriesAreEqualData : Prop :=
  ∀ m m' : Memory, m.wf = true → m'.wf = true → (∀ i, m.read i = m'.read i) → m = m'

/-- 00_scope.md R3, 10_state.md R10, R12, 20_memory.md R56: a step never changes ROM, the strap, `P_9F_SOURCE` or `CYCLES`; no instruction
writes `DBR`; a completed step leaves no fault latched. -/
def Obligations.ParametersAndDbrNeverChange : Prop :=
  ∀ s t : State, step s = .next t → t.rom = s.rom ∧ t.map = s.map ∧ t.p9f = s.p9f ∧ t.costs = s.costs ∧ t.dbr = s.dbr ∧
    t.fault = none ∧ s.fault = none

/-- 10_state.md R16, 60_exceptions.md R190: `E` is written only by XCE. -/
def Obligations.OnlyXceWritesE : Prop :=
  ∀ (i : Instr) (s t : State), i ≠ .xce → exec i s = .next t → t.e = s.e

/-- 10_state.md R15, columns "written by": every flag is unchanged by every instruction outside its list. -/
def Obligations.FlagsChangeOnlyByTheirWriters : Prop :=
  ∀ (f : Flag) (i : Instr) (s t : State), Dest.flag f ∉ writes i → exec i s = .next t → t.flag f = s.flag f

/-- 10_state.md R26, column "writes": every register, the latches and every byte of memory are unchanged by every instruction
outside their list. -/
def Obligations.StateChangesOnlyByItsWriters : Prop :=
  ∀ (i : Instr) (s t : State), exec i s = .next t →
    (Dest.a ∉ writes i → t.a = s.a) ∧ (Dest.x ∉ writes i → t.x = s.x) ∧ (Dest.y ∉ writes i → t.y = s.y) ∧
    (Dest.s ∉ writes i → t.sp = s.sp) ∧ (Dest.d ∉ writes i → t.d = s.d) ∧ t.dbr = s.dbr ∧ t.fault = s.fault ∧
    (Dest.memory ∉ writes i → t.wram = s.wram ∧ t.io = s.io ∧ t.ioLog = s.ioLog ∧ ∀ b, busRead t b = busRead s b)

/-- 10_state.md R17, 70_reset_and_hazards.md R215 (D24): the counter gates no behaviour, and no rule depends on what is charged. A machine
whose counter is `k` higher takes the same step, its counter still `k` higher; and a machine with another counter and another
`CYCLES` takes the same step but for those two. -/
def Obligations.CycleCounterGatesNothing : Prop :=
  (∀ (s : State) (k : Nat), step { s with cyc := s.cyc + k } = addCyc k (step s)) ∧
  (∀ (s : State) (c : Nat) (costs : CycleTable),
    (∀ t, step s = .next t → ∃ n, step { s with cyc := c, costs := costs } = .next { t with cyc := n, costs := costs }) ∧
    (∀ f, step s = .fault f → step { s with cyc := c, costs := costs } = .fault f))

/-- 20_memory.md R62, 60_exceptions.md R186 (D29): the latches `INIDISP`, `OBSEL`, `NMITIMEN`, `MDMAEN`, `HDMAEN` have no effect. Two
machines that agree but for what those hold take steps that agree but for what those hold. -/
def Obligations.WriteOnlyLatchesHaveNoEffect : Prop :=
  ∀ s s' : State, SameButWriteOnly s s' → SameOutcomeButWriteOnly (step s) (step s')

/-- 60_exceptions.md R191, 70_reset_and_hazards.md R210: `CYC` is advanced by every completed step, once, by what `CYCLES` charges for the
opcode at `PC` at the widths and the `E` of the start of the step, as a taken branch only if the opcode is a branch; with the
default `CYCLES` that is at least 2 and at most 7. -/
def Obligations.CycleCounterAdvances : Prop :=
  ∀ s t : State, step s = .next t →
    (∃ (i : Instr) (op : Byte) (taken : Bool), busRead s s.pc = .ok op ∧ (encode s.widths i).head? = some op ∧
      (taken = true → op ∈ [0x10#8, 0x80#8, 0xD0#8]) ∧ t.cyc = s.cyc + s.cycles i taken) ∧
    (s.costs = [] → s.cyc + 2 ≤ t.cyc ∧ t.cyc ≤ s.cyc + 7)

/-- 70_reset_and_hazards.md R215, 00_scope.md R3 (D24, D32): what a completed step charges is a function of the opcode byte, the widths,
`E` and whether a branch is taken, and that function is a parameter: whatever function is wanted, some value of `CYCLES` charges it; what
`CYCLES` gives for the arguments at hand is charged; where it gives nothing, the default table applies, stated here by opcode byte. -/
def Obligations.CyclesTable : Prop :=
  (∀ f : CycleKey → Nat, ∃ costs : CycleTable, ∀ (s : State) (i : Instr) (taken : Bool) (op : Byte),
    (encode s.widths i).head? = some op →
      ({ s with costs := costs } : State).cycles i taken = f ⟨op, s.acc16, s.idx16, s.e, taken⟩) ∧
  ∀ (s : State) (i : Instr) (taken : Bool) (op : Byte), (encode s.widths i).head? = some op →
    (∀ n, s.costs.lookup ⟨op, s.acc16, s.idx16, s.e, taken⟩ = some n → s.cycles i taken = n) ∧
    (s.costs.lookup ⟨op, s.acc16, s.idx16, s.e, taken⟩ = none →
      (op ∈ [0x18#8, 0x58#8, 0xB8#8, 0xD8#8, 0x38#8, 0x78#8, 0xF8#8, 0xAA#8, 0xA8#8, 0x5B#8, 0x1B#8, 0x98#8, 0xE8#8, 0xC8#8, 0xCA#8, 0x88#8, 0xFB#8] →
        s.cycles i taken = 2) ∧
      (op ∈ [0xC2#8, 0xE2#8, 0x08#8, 0x8B#8, 0x4B#8] → s.cycles i taken = 3) ∧
      (op = 0x0B → s.cycles i taken = 4) ∧
      (op = 0x48 → s.cycles i taken = if s.acc16 then 4 else 3) ∧
      (op ∈ [0xDA#8, 0x5A#8] → s.cycles i taken = if s.idx16 then 4 else 3) ∧
      (op ∈ [0x10#8, 0xD0#8] → s.cycles i taken = 2 + (if taken then 1 else 0) + (if s.e then 1 else 0)) ∧
      (op = 0x80 → s.cycles i taken = if s.e then 4 else 3) ∧
      (op = 0x20 → s.cycles i taken = 6) ∧
      (op ∈ [0xA9#8, 0xE9#8] → s.cycles i taken = if s.acc16 then 3 else 2) ∧
      (op ∈ [0xA2#8, 0xA0#8] → s.cycles i taken = if s.idx16 then 3 else 2) ∧
      (op ∈ [0xCD#8, 0x8D#8, 0x9C#8] → s.cycles i taken = if s.acc16 then 5 else 4) ∧
      (op = 0x8F → s.cycles i taken = if s.acc16 then 6 else 5) ∧
      (op = 0x9F → s.cycles i taken = if (match s.p9f with | .x => s.idx16 | .a => s.acc16) then 6 else 5) ∧
      (op = 0xB7 → s.cycles i taken = if s.acc16 then 7 else 6))

/-! ### The bus -/

/-- 20_memory.md R52, R54, R59 (D15) and the source's round-trip property. Under either scheme a read at an offset below 0x2000 of a
mirrored bank, or anywhere in bank 0x7E or 0x7F, answers from work RAM at the index of the map. Under LoROM a byte written at an
offset below 0x2000 of a mirrored bank reads back at that offset of every mirrored bank and of bank 0x7E; a byte written in bank
0x7E or 0x7F reads back there; and a byte of bank 0x7F is no byte of bank 0x7E. -/
def Obligations.WorkRamRoundTrip : Prop :=
  (∀ (s : State) (b : Byte) (o : Word),
    (inMirror b = true → o.toNat < 0x2000 → busRead s (mkAddr b o) = .ok (s.wram.read o.toNat)) ∧
    (b = 0x7E → busRead s (mkAddr b o) = .ok (s.wram.read o.toNat)) ∧
    (b = 0x7F → busRead s (mkAddr b o) = .ok (s.wram.read (0x10000 + o.toNat)))) ∧
  ∀ (s : State) (o : Word) (v : Byte), s.map = .loROM →
    (∀ b : Byte, inMirror b = true → o.toNat < 0x2000 → ∃ t, busWrite s (mkAddr b o) v = .ok t ∧
      (∀ b' : Byte, inMirror b' = true → busRead t (mkAddr b' o) = .ok v) ∧ busRead t (mkAddr 0x7E o) = .ok v) ∧
    (∀ b : Byte, b = 0x7E ∨ b = 0x7F → ∃ t, busWrite s (mkAddr b o) v = .ok t ∧ busRead t (mkAddr b o) = .ok v ∧
      (∀ (b' : Byte) (o' : Word), b' = 0x7E ∨ b' = 0x7F → (b', o') ≠ (b, o) → busRead t (mkAddr b' o') = busRead s (mkAddr b' o')) ∧
      (o.toNat < 0x2000 → b = 0x7E → busRead t (mkAddr 0x00 o) = .ok v))

/-- 20_memory.md R56: under LoROM a read at an offset of 0x8000 or more that is not in banks 0x7E, 0x7F answers
`ROM[(offset - 0x8000) + bank * 0x8000]`, the bank byte unmasked, when that index is inside the image; bank 0x80 is not bank 0x00 there, its indices start at 0x400000; banks 0x7E and 0x7F answer from
work RAM whatever the image holds; and no step writes `ROM`. -/
def Obligations.LoRomReadFormula : Prop :=
  (∀ (s : State) (b : Byte) (o : Word), s.map = .loROM → 0x8000 ≤ o.toNat → b ≠ 0x7E → b ≠ 0x7F →
    (o.toNat - 0x8000) + b.toNat * 0x8000 < s.rom.size →
      busRead s (mkAddr b o) = .ok (s.rom.cells.read ((o.toNat - 0x8000) + b.toNat * 0x8000))) ∧
  (∀ (s : State) (o : Word), s.map = .loROM → 0x8000 ≤ o.toNat → 0x400000 + (o.toNat - 0x8000) < s.rom.size →
    busRead s (mkAddr 0x80 o) = .ok (s.rom.cells.read (0x400000 + (o.toNat - 0x8000)))) ∧
  (∀ (s : State) (b : Byte) (o : Word) (r : Image), b = 0x7E ∨ b = 0x7F →
    busRead { s with rom := r } (mkAddr b o) = busRead s (mkAddr b o)) ∧
  (∀ s t : State, step s = .next t → t.rom = s.rom)

/-- 20_memory.md R57, R59 (D18): under LoROM, offsets 0x6000 to 0x7FFF of mirrored banks and offsets below 0x8000 of the other
banks but 0x7E, 0x7F raise `UnmappedAddress` on a read, and so does an offset of 0x8000 or more whose ROM index is beyond the image;
all of these and every other offset of 0x8000 or more raise it on a write. -/
def Obligations.UnmappedAccessesFault : Prop :=
  ∀ (s : State) (b : Byte) (o : Word) (v : Byte), s.map = .loROM → b ≠ 0x7E → b ≠ 0x7F →
    ((inMirror b = true → 0x6000 ≤ o.toNat) →
      (o.toNat < 0x8000 → busRead s (mkAddr b o) = .error (.unmappedAddress (mkAddr b o))) ∧
      (0x8000 ≤ o.toNat → s.rom.size ≤ (o.toNat - 0x8000) + b.toNat * 0x8000 →
        busRead s (mkAddr b o) = .error (.unmappedAddress (mkAddr b o))) ∧
      busWrite s (mkAddr b o) v = .error (.unmappedAddress (mkAddr b o)))

/-- 20_memory.md R53, R58 (D19): under HiROM every write raises `UnsupportedAddressingScheme`, whatever the address, and so does every
read outside work RAM and the I/O window; work RAM still answers. -/
def Obligations.HiRomFaults : Prop :=
  ∀ (s : State) (b : Byte) (o : Word) (v : Byte), s.map = .hiROM →
    busWrite s (mkAddr b o) v = .error (.unsupportedAddressingScheme (.address (mkAddr b o))) ∧
    (b ≠ 0x7E → b ≠ 0x7F → (inMirror b = true → 0x6000 ≤ o.toNat) →
      busRead s (mkAddr b o) = .error (.unsupportedAddressingScheme (.address (mkAddr b o)))) ∧
    (inMirror b = true → o.toNat < 0x2000 → busRead s (mkAddr b o) = .ok (s.wram.read o.toNat)) ∧
    (b = 0x7E → busRead s (mkAddr b o) = .ok (s.wram.read o.toNat)) ∧
    (b = 0x7F → busRead s (mkAddr b o) = .ok (s.wram.read (0x10000 + o.toNat)))

/-- 20_memory.md R60 (D16): on every mirrored bank a write to one of the nine offsets stores the byte, whole, in that latch and in
no other, and is seen outside as one latch write; a write to any other offset of the window raises `UnsupportedIoRegister`. -/
def Obligations.IoWriteMap : Prop :=
  ∀ (s : State) (b : Byte) (o : Word) (v : Byte), s.map = .loROM → inMirror b = true → 0x2000 ≤ o.toNat → o.toNat < 0x6000 →
    busWrite s (mkAddr b o) v =
      if o = 0x2100 then .ok { s with io := { s.io with inidisp := v }, ioLog := s.ioLog ++ [(o, v)] }
      else if o = 0x2101 then .ok { s with io := { s.io with obsel := v }, ioLog := s.ioLog ++ [(o, v)] }
      else if o = 0x2140 then .ok { s with io := { s.io with apuio0 := v }, ioLog := s.ioLog ++ [(o, v)] }
      else if o = 0x2141 then .ok { s with io := { s.io with apuio1 := v }, ioLog := s.ioLog ++ [(o, v)] }
      else if o = 0x2142 then .ok { s with io := { s.io with apuio2 := v }, ioLog := s.ioLog ++ [(o, v)] }
      else if o = 0x2143 then .ok { s with io := { s.io with apuio3 := v }, ioLog := s.ioLog ++ [(o, v)] }
      else if o = 0x4200 then .ok { s with io := { s.io with nmitimen := v }, ioLog := s.ioLog ++ [(o, v)] }
      else if o = 0x420B then .ok { s with io := { s.io with mdmaen := v }, ioLog := s.ioLog ++ [(o, v)] }
      else if o = 0x420C then .ok { s with io := { s.io with hdmaen := v }, ioLog := s.ioLog ++ [(o, v)] }
      else .error (.unsupportedIoRegister o .write)

/-- 20_memory.md R61 (D17): on every mirrored bank, under either scheme, the four audio-port latches read back and every other
offset of the window raises `UnsupportedIoRegister`. -/
def Obligations.IoReadMap : Prop :=
  ∀ (s : State) (b : Byte) (o : Word), inMirror b = true → 0x2000 ≤ o.toNat → o.toNat < 0x6000 →
    busRead s (mkAddr b o) =
      if o = 0x2140 then .ok s.io.apuio0
      else if o = 0x2141 then .ok s.io.apuio1
      else if o = 0x2142 then .ok s.io.apuio2
      else if o = 0x2143 then .ok s.io.apuio3
      else .error (.unsupportedIoRegister o .read)

/-- 20_memory.md R61, R64 (D17, D14): a 16-bit read at an audio-port latch of a mirrored bank gives the little-endian pair of two
adjacent latches; at the last latch it raises for offset 0x2144. -/
def Obligations.LatchPairReadsLittleEndian : Prop :=
  ∀ (s : State) (b : Byte), inMirror b = true →
    memReadW s true (mkAddr b 0x2140) = .ok (mk16 s.io.apuio1 s.io.apuio0) ∧
    memReadW s true (mkAddr b 0x2141) = .ok (mk16 s.io.apuio2 s.io.apuio1) ∧
    memReadW s true (mkAddr b 0x2142) = .ok (mk16 s.io.apuio3 s.io.apuio2) ∧
    memReadW s true (mkAddr b 0x2143) = .error (.unsupportedIoRegister 0x2144 .read)

/-- 20_memory.md R52, R53, R60: a successful write changes one location and nothing else. It stores exactly its byte: a byte of work RAM
or one latch, every other byte and every other latch, readable or not, being what it was. No register, parameter or latch of `FAULT`
changes. -/
def Obligations.BusWriteFrame : Prop :=
  ∀ (s t : State) (a : Addr) (v : Byte), busWrite s a v = .ok t →
    StoredExactly s t [(region a, v)] ∧ t = { s with wram := t.wram, io := t.io, ioLog := t.ioLog } ∧
    (∀ i, region a = .wram i → t.io = s.io ∧ t.ioLog = s.ioLog) ∧
    (∀ o, region a = .io o → t.wram = s.wram ∧ ∃ r : IoReg, r.offset = o ∧ t.io = s.io.set r v)

/-! ### Widths and the register write -/

/-- 10_state.md R20: the width queries, from `P.M`, `P.X` and `E`, and the width of each register name; an instruction that changes
`P.M`, `P.X` or `E` affects the operand fetch of the next one, which decodes at the queries' values of that moment. -/
def Obligations.WidthQueries : Prop :=
  (∀ s : State,
    (s.acc16 = true ↔ s.flag .m = false ∧ s.e = false) ∧ (s.idx16 = true ↔ s.flag .x = false ∧ s.e = false) ∧
    s.reg16 .a = s.acc16 ∧ s.reg16 .x = s.idx16 ∧ s.reg16 .y = s.idx16) ∧
  (∀ s t : State, step s = .next t → t.fault = none ∧
    ∀ (bs : List Byte) (i : Instr), BytesAt t t.pc bs → decode ⟨!t.flag .m && !t.e, !t.flag .x && !t.e⟩ bs = .ok (i, []) →
      step t = exec i t)

/-- 10_state.md R21: the width-aware read gives all 16 bits of a 16-bit register and the low byte of an 8-bit one; `SetReg` followed
by it gives the value truncated to the active width, with `N` and `Z` of the value at that width, for every value and every
combination of width and mode. -/
def Obligations.SetRegReadsBackTruncated : Prop :=
  ∀ (s : State) (r : Reg) (v : Word),
    s.regW r = (if s.reg16 r then s.reg r else s.reg r &&& 0x00FF) ∧
    (s.setReg r v).regW r = (if s.reg16 r then v else zext16 (loByte v)) ∧
    (s.setReg r v).flag .n = (if s.reg16 r then v.msb else (loByte v).msb) ∧
    (s.setReg r v).flag .z = (if s.reg16 r then v == 0 else loByte v == 0)

/-- 10_state.md R22 (D8): `SetReg` at width 8 preserves the high byte and writes no flag but `N` and `Z`, and nothing else. -/
def Obligations.SetRegResult : Prop :=
  ∀ (s : State) (v : Word),
    s.setReg .a v = { s with a := written s.acc16 s.a v, p := writtenP s.acc16 s.p v } ∧
    s.setReg .x v = { s with x := written s.idx16 s.x v, p := writtenP s.idx16 s.p v } ∧
    s.setReg .y v = { s with y := written s.idx16 s.y v, p := writtenP s.idx16 s.p v }

/-! ### The instructions -/

/-- 40_status_flag.md R110 to R116 (opcode bytes: D2; bits of `P`: D7): each of the seven clears or sets one flag and changes nothing else but `PC`
and `CYC`; none faults once decoded. -/
def Obligations.StatusBitInstructions : Prop :=
  (∀ (wd : Widths) (rest : List Byte),
    decode wd (0x18 :: rest) = .ok (.clc, rest) ∧ decode wd (0x58 :: rest) = .ok (.cli, rest) ∧
    decode wd (0xB8 :: rest) = .ok (.clv, rest) ∧ decode wd (0xD8 :: rest) = .ok (.cld, rest) ∧
    decode wd (0x38 :: rest) = .ok (.sec, rest) ∧ decode wd (0x78 :: rest) = .ok (.sei, rest) ∧
    decode wd (0xF8 :: rest) = .ok (.sed, rest)) ∧
  (∀ s : State,
    exec .clc s = .next { s with pc := s.pc + 1, cyc := s.cyc + s.cycles .clc false, p := s.p &&& 0xFE } ∧
    exec .cli s = .next { s with pc := s.pc + 1, cyc := s.cyc + s.cycles .cli false, p := s.p &&& 0xFB } ∧
    exec .clv s = .next { s with pc := s.pc + 1, cyc := s.cyc + s.cycles .clv false, p := s.p &&& 0xBF } ∧
    exec .cld s = .next { s with pc := s.pc + 1, cyc := s.cyc + s.cycles .cld false, p := s.p &&& 0xF7 } ∧
    exec .sec s = .next { s with pc := s.pc + 1, cyc := s.cyc + s.cycles .sec false, p := s.p ||| 0x01 } ∧
    exec .sei s = .next { s with pc := s.pc + 1, cyc := s.cyc + s.cycles .sei false, p := s.p ||| 0x04 } ∧
    exec .sed s = .next { s with pc := s.pc + 1, cyc := s.cyc + s.cycles .sed false, p := s.p ||| 0x08 })

/-- 41_stack_push.md R121, R123, R125 (D10, D11): PHP, PHB and PHK write one byte at `{0x00, S}` and lower `S` by one, its high byte
pinned when `E = 1`, whenever the bus takes the byte; otherwise they raise the bus fault. PHK pushes the bank byte of `PC` after
the opcode fetch. -/
def Obligations.BytePushes : Prop :=
  ∀ (s : State) (i : Instr) (b : Byte),
    (i = .php ∧ b = s.p ∨ i = .phb ∧ b = s.dbr ∨ i = .phk ∧ b = bankOf (s.pc + 1)) →
    (∀ t, busWrite s (mkAddr 0 s.sp) b = .ok t →
      exec i s = .next { t with pc := s.pc + 1, cyc := s.cyc + s.cycles i false, sp := below s.e s.sp }) ∧
    (∀ f, busWrite s (mkAddr 0 s.sp) b = .error f → exec i s = .fault f)

/-- 41_stack_push.md R122, R124, R126, R127 (D10, D11): PHA, PHX and PHY push at their register's width and PHD pushes 16 bits; a
16-bit push writes the high byte at `{0x00, S}`, then the low byte one below, `S` pinned after each byte when `E = 1`; a bus fault
at either byte is the outcome. -/
def Obligations.RegisterPushes : Prop :=
  ∀ (s : State) (i : Instr) (w16 : Bool) (v : Word),
    (i = .pha ∧ w16 = s.acc16 ∧ v = s.a ∨ i = .phx ∧ w16 = s.idx16 ∧ v = s.x ∨ i = .phy ∧ w16 = s.idx16 ∧ v = s.y ∨
      i = .phd ∧ w16 = true ∧ v = s.d) →
    (w16 = false →
      (∀ t, busWrite s (mkAddr 0 s.sp) (loByte v) = .ok t →
        exec i s = .next { t with pc := s.pc + 1, cyc := s.cyc + s.cycles i false, sp := below s.e s.sp }) ∧
      (∀ f, busWrite s (mkAddr 0 s.sp) (loByte v) = .error f → exec i s = .fault f)) ∧
    (w16 = true →
      (∀ t u, busWrite s (mkAddr 0 s.sp) (hiByte v) = .ok t → busWrite t (mkAddr 0 (below s.e s.sp)) (loByte v) = .ok u →
        exec i s = .next { u with
          pc := s.pc + 1, cyc := s.cyc + s.cycles i false,
          sp := below s.e (below s.e s.sp) }) ∧
      (∀ f, busWrite s (mkAddr 0 s.sp) (hiByte v) = .error f → exec i s = .fault f) ∧
      (∀ t f, busWrite s (mkAddr 0 s.sp) (hiByte v) = .ok t → busWrite t (mkAddr 0 (below s.e s.sp)) (loByte v) = .error f →
        exec i s = .fault f))

/-- 70_reset_and_hazards.md R206, 41_stack_push.md R120 (D10): in emulation mode under LoROM the stack is page 1 of work RAM, so
every push and JSR completes, touches page 1 alone and leaves `S` in page 1. -/
def Obligations.EmulationPushesStayInPageOne : Prop :=
  ∀ (s : State) (i : Instr), s.map = .loROM → s.e = true → hiByte s.sp = 0x01 → Dest.memory ∈ writes i → Dest.s ∈ writes i →
    ∃ t, exec i s = .next t ∧ hiByte t.sp = 0x01 ∧ t.io = s.io ∧
      ∀ k, k < 0x100 ∨ 0x200 ≤ k → t.wram.read k = s.wram.read k

/-- 42_branch_call.md R130 to R133 (D4; bits of `P`: D7): `PC` ends at the next instruction, or at that plus the sign-extended displacement
`mod 2^24` when the condition holds; nothing else changes but `CYC`. -/
def Obligations.Branches : Prop :=
  ∀ (s : State) (rel : Byte),
    exec (.bpl rel) s = .next { s with
      pc := if s.p &&& 0x80 = 0 then s.pc + 2 + rel.signExtend 24 else s.pc + 2,
      cyc := s.cyc + s.cycles (.bpl rel) (decide (s.p &&& 0x80 = 0)) } ∧
    exec (.bne rel) s = .next { s with
      pc := if s.p &&& 0x02 = 0 then s.pc + 2 + rel.signExtend 24 else s.pc + 2,
      cyc := s.cyc + s.cycles (.bne rel) (decide (s.p &&& 0x02 = 0)) } ∧
    exec (.bra rel) s = .next { s with
      pc := s.pc + 2 + rel.signExtend 24, cyc := s.cyc + s.cycles (.bra rel) true }

/-- 42_branch_call.md R133: "`80 FE` is the idiom for "stop here": the state no longer changes except `CYC`". For any number of
steps the machine stays where it is and never faults. -/
def Obligations.BranchToItselfIdlesForever : Prop :=
  ∀ (s : State) (n : Nat), s.fault = none → BytesAt s s.pc [0x80, 0xFE] →
    RunsTo n s { s with cyc := s.cyc + n * s.cycles (.bra 0xFE) true }

/-- 42_branch_call.md R134 (D5, D10): JSR pushes the low 16 bits of the address of its own last byte, high byte first, then jumps
to `{DBR, addr16}`; a bus fault at either stack byte is the outcome. -/
def Obligations.SubroutineCall : Prop :=
  ∀ (s : State) (a : Word),
    (∀ t u, busWrite s (mkAddr 0 s.sp) (hiByte (offOf (s.pc + 2))) = .ok t →
      busWrite t (mkAddr 0 (below s.e s.sp)) (loByte (offOf (s.pc + 2))) = .ok u →
      exec (.jsr a) s = .next { u with
        pc := mkAddr s.dbr a, cyc := s.cyc + s.cycles (.jsr a) false,
        sp := below s.e (below s.e s.sp) }) ∧
    (∀ f, busWrite s (mkAddr 0 s.sp) (hiByte (offOf (s.pc + 2))) = .error f → exec (.jsr a) s = .fault f) ∧
    (∀ t f, busWrite s (mkAddr 0 s.sp) (hiByte (offOf (s.pc + 2))) = .ok t →
      busWrite t (mkAddr 0 (below s.e s.sp)) (loByte (offOf (s.pc + 2))) = .error f → exec (.jsr a) s = .fault f)

/-- 43_transfer.md R140, R141, R144 (D8): TAX, TAY and TYA copy at the destination's width, the source read in full; `N` and `Z`
come from the value at that width. -/
def Obligations.WidthGovernedTransfers : Prop :=
  ∀ s : State,
    exec .tax s = .next { s with
      pc := s.pc + 1, cyc := s.cyc + s.cycles .tax false,
      x := written s.idx16 s.x s.a, p := writtenP s.idx16 s.p s.a } ∧
    exec .tay s = .next { s with
      pc := s.pc + 1, cyc := s.cyc + s.cycles .tay false,
      y := written s.idx16 s.y s.a, p := writtenP s.idx16 s.p s.a } ∧
    exec .tya s = .next { s with
      pc := s.pc + 1, cyc := s.cyc + s.cycles .tya false,
      a := written s.acc16 s.a s.y, p := writtenP s.acc16 s.p s.y }

/-- 43_transfer.md R142, R143 (D12): TCD copies all 16 bits of `A` and sets `N`, `Z` from them; TCS copies all 16 bits, pins the
high byte when `E = 1` and writes no flag. -/
def Obligations.SixteenBitTransfers : Prop :=
  ∀ s : State,
    exec .tcd s = .next { s with pc := s.pc + 1, cyc := s.cyc + s.cycles .tcd false, d := s.a, p := nz16 s.p s.a } ∧
    exec .tcs s = .next { s with
      pc := s.pc + 1, cyc := s.cyc + s.cycles .tcs false,
      sp := if s.e then mk16 0x01 (loByte s.a) else s.a }

/-- 44_incdec.md R150 to R153 (opcode bytes: D2): the index register changes by one `mod 2^wX`, at width 8 with no carry or borrow
into the high byte; `N` and `Z` come from the result; nothing else changes but `PC` and `CYC`. -/
def Obligations.IndexIncrementDecrement : Prop :=
  (∀ (wd : Widths) (rest : List Byte),
    decode wd (0xE8 :: rest) = .ok (.inx, rest) ∧ decode wd (0xC8 :: rest) = .ok (.iny, rest) ∧
    decode wd (0xCA :: rest) = .ok (.dex, rest) ∧ decode wd (0x88 :: rest) = .ok (.dey, rest)) ∧
  (∀ s : State, s.idx16 = true →
    exec .inx s = .next { s with pc := s.pc + 1, cyc := s.cyc + s.cycles .inx false, x := s.x + 1, p := nz16 s.p (s.x + 1) } ∧
    exec .iny s = .next { s with pc := s.pc + 1, cyc := s.cyc + s.cycles .iny false, y := s.y + 1, p := nz16 s.p (s.y + 1) } ∧
    exec .dex s = .next { s with pc := s.pc + 1, cyc := s.cyc + s.cycles .dex false, x := s.x - 1, p := nz16 s.p (s.x - 1) } ∧
    exec .dey s = .next { s with pc := s.pc + 1, cyc := s.cyc + s.cycles .dey false, y := s.y - 1, p := nz16 s.p (s.y - 1) }) ∧
  (∀ s : State, s.idx16 = false →
    exec .inx s = .next { s with
      pc := s.pc + 1, cyc := s.cyc + s.cycles .inx false,
      x := mk16 (hiByte s.x) (loByte s.x + 1), p := nz8 s.p (loByte s.x + 1) } ∧
    exec .iny s = .next { s with
      pc := s.pc + 1, cyc := s.cyc + s.cycles .iny false,
      y := mk16 (hiByte s.y) (loByte s.y + 1), p := nz8 s.p (loByte s.y + 1) } ∧
    exec .dex s = .next { s with
      pc := s.pc + 1, cyc := s.cyc + s.cycles .dex false,
      x := mk16 (hiByte s.x) (loByte s.x - 1), p := nz8 s.p (loByte s.x - 1) } ∧
    exec .dey s = .next { s with
      pc := s.pc + 1, cyc := s.cyc + s.cycles .dey false,
      y := mk16 (hiByte s.y) (loByte s.y - 1), p := nz8 s.p (loByte s.y - 1) })

/-- 45_compare.md R155 (D13): CMP reads `{DBR, addr16}` at the accumulator width; `N` is the sign of the truncated difference, `Z`
equality, `C` an unsigned `>=`; `A`, `V` and everything else stay; a bus fault at any data byte is the outcome. -/
def Obligations.CompareAbsolute : Prop :=
  ∀ (s : State) (a : Word),
    (s.acc16 = false → ∀ m, busRead s (mkAddr s.dbr a) = .ok m →
      exec (.cmpAbs a) s = .next { s with
        pc := s.pc + 3, cyc := s.cyc + s.cycles (.cmpAbs a) false,
        p := withC (withNZ s.p (loByte s.a - m).msb (loByte s.a == m)) (decide (m.toNat ≤ (loByte s.a).toNat)) }) ∧
    (s.acc16 = true → ∀ lo hi, busRead s (mkAddr s.dbr a) = .ok lo → busRead s (mkAddr s.dbr a + 1) = .ok hi →
      exec (.cmpAbs a) s = .next { s with
        pc := s.pc + 3, cyc := s.cyc + s.cycles (.cmpAbs a) false,
        p := withC (withNZ s.p (s.a - mk16 hi lo).msb (s.a == mk16 hi lo)) (decide ((mk16 hi lo).toNat ≤ s.a.toNat)) }) ∧
    (∀ f, busRead s (mkAddr s.dbr a) = .error f → exec (.cmpAbs a) s = .fault f) ∧
    (s.acc16 = true → ∀ lo f, busRead s (mkAddr s.dbr a) = .ok lo → busRead s (mkAddr s.dbr a + 1) = .error f →
      exec (.cmpAbs a) s = .fault f)

/-- 46_store.md R160 to R163 (D13, D3): where each store puts what. At width 8 one byte, at width 16 two, the low byte first and the
high byte at the next address `mod 2^24`; a bus fault at either byte is the outcome. Opcode 0x9F stores `X` at the index width, or
`A` at the accumulator width, as `P_9F_SOURCE` says, at the base plus all 16 bits of `X`. -/
def Obligations.StoreResults : Prop :=
  ∀ (s : State) (i : Instr) (n : Nat) (addr : Addr) (w16 : Bool) (v : Word),
    ((∃ a, i = .staAbs a ∧ n = 3 ∧ addr = mkAddr s.dbr a ∧ w16 = s.acc16 ∧ v = s.a) ∨
     (∃ a, i = .staLong a ∧ n = 4 ∧ addr = a ∧ w16 = s.acc16 ∧ v = s.a) ∨
     (∃ a, i = .stzAbs a ∧ n = 3 ∧ addr = mkAddr s.dbr a ∧ w16 = s.acc16 ∧ v = 0) ∨
     (∃ a, i = .stxLongX a ∧ n = 4 ∧ addr = a + s.x.setWidth 24 ∧
       (s.p9f = .x ∧ w16 = s.idx16 ∧ v = s.x ∨ s.p9f = .a ∧ w16 = s.acc16 ∧ v = s.a))) →
    (w16 = false →
      (∀ t, busWrite s addr (loByte v) = .ok t →
        exec i s = .next { t with pc := s.pc + BitVec.ofNat 24 n, cyc := s.cyc + s.cycles i false })) ∧
    (w16 = true →
      (∀ t u, busWrite s addr (loByte v) = .ok t → busWrite t (addr + 1) (hiByte v) = .ok u →
        exec i s = .next { u with pc := s.pc + BitVec.ofNat 24 n, cyc := s.cyc + s.cycles i false }) ∧
      (∀ t f, busWrite s addr (loByte v) = .ok t → busWrite t (addr + 1) (hiByte v) = .error f → exec i s = .fault f)) ∧
    (∀ f, busWrite s addr (loByte v) = .error f → exec i s = .fault f)

/-- The frame of the stores (46_store.md R160 to R163, 20_memory.md R60, R65; D3, D13): no register and no flag changes, and exactly the
stored bytes are stored, each in work RAM or in a latch; every other byte reads as before, every other latch holds what it held,
and the output grows by the stored latch writes alone. The address is the one the meaning computes. -/
def Obligations.StoreFrame : Prop :=
  ∀ (s t : State) (i : Instr) (addr : Addr) (w16 : Bool) (v : Word),
    ((∃ a, i = .staAbs a ∧ addr = absAddr s a ∧ w16 = s.acc16 ∧ v = s.a) ∨
     (∃ a, i = .staLong a ∧ addr = longAddr a ∧ w16 = s.acc16 ∧ v = s.a) ∨
     (∃ a, i = .stzAbs a ∧ addr = absAddr s a ∧ w16 = s.acc16 ∧ v = 0) ∨
     (∃ a, i = .stxLongX a ∧ addr = longXAddr s a ∧ w16 = s.reg16 (stored9f s) ∧ v = s.reg (stored9f s))) →
    exec i s = .next t →
    StoredExactly s t (span w16 addr v) ∧ SameButStore s t ∧ t.sp = s.sp

/-- The frame of the pushes and of JSR (41_stack_push.md R120 to R127, 42_branch_call.md R134; D10): nothing changes but `PC`, `CYC`, `S`
and the pushed bytes in bank 0, each in work RAM or, where `S` points into the I/O window, in a latch; every other byte reads as
before, every other latch holds what it held, and the output grows by the pushed latch writes alone. -/
def Obligations.PushFrame : Prop :=
  ∀ (s t : State) (i : Instr) (w16 : Bool) (v : Word),
    (w16 = false ∧ (i = .php ∧ v = zext16 s.p ∨ i = .phb ∧ v = zext16 s.dbr ∨ i = .phk ∧ v = zext16 (bankOf (s.pc + 1))) ∨
      w16 = s.acc16 ∧ i = .pha ∧ v = s.a ∨
      w16 = s.idx16 ∧ (i = .phx ∧ v = s.x ∨ i = .phy ∧ v = s.y) ∨
      w16 = true ∧ (i = .phd ∧ v = s.d ∨ (∃ a, i = .jsr a) ∧ v = offOf (s.pc + 2))) →
    exec i s = .next t →
    StoredExactly s t (pushSpan w16 s v) ∧ SameButStore s t ∧
    t.sp = (if w16 then below s.e (below s.e s.sp) else below s.e s.sp)

/-- 47_load.md R165 to R167 (opcode bytes: D2): an immediate load takes its operand at the register's width, writes the register at
that width and sets `N` and `Z` from the value; at width 8 the high byte is preserved and `PC` advances by 2, at width 16 by 3. -/
def Obligations.ImmediateLoads : Prop :=
  (∀ (x : Bool) (lo hi : Byte) (rest : List Byte),
    decode ⟨true, x⟩ (0xA9 :: lo :: hi :: rest) = .ok (.ldaImm (mk16 hi lo), rest) ∧
    decode ⟨false, x⟩ (0xA9 :: lo :: rest) = .ok (.ldaImm (zext16 lo), rest) ∧
    decode ⟨x, true⟩ (0xA2 :: lo :: hi :: rest) = .ok (.ldxImm (mk16 hi lo), rest) ∧
    decode ⟨x, false⟩ (0xA2 :: lo :: rest) = .ok (.ldxImm (zext16 lo), rest) ∧
    decode ⟨x, true⟩ (0xA0 :: lo :: hi :: rest) = .ok (.ldyImm (mk16 hi lo), rest) ∧
    decode ⟨x, false⟩ (0xA0 :: lo :: rest) = .ok (.ldyImm (zext16 lo), rest)) ∧
  (∀ (s : State) (v : Word),
    exec (.ldaImm v) s = .next { s with
      pc := s.pc + (if s.acc16 then 3 else 2), cyc := s.cyc + s.cycles (.ldaImm v) false,
      a := written s.acc16 s.a v, p := writtenP s.acc16 s.p v } ∧
    exec (.ldxImm v) s = .next { s with
      pc := s.pc + (if s.idx16 then 3 else 2), cyc := s.cyc + s.cycles (.ldxImm v) false,
      x := written s.idx16 s.x v, p := writtenP s.idx16 s.p v } ∧
    exec (.ldyImm v) s = .next { s with
      pc := s.pc + (if s.idx16 then 3 else 2), cyc := s.cyc + s.cycles (.ldyImm v) false,
      y := written s.idx16 s.y v, p := writtenP s.idx16 s.p v })

/-- 47_load.md R168 (D13): LDA [dp],Y reads a 24-bit pointer, low byte first, in bank 0 at `D + dp` with a 16-bit wrap of each byte
address, adds `Y` at the index width `mod 2^24`, and loads at the accumulator width; a bus fault at any of the bytes, in that order,
is the outcome. -/
def Obligations.IndirectLongLoad : Prop :=
  ∀ (s : State) (dp : Byte) (p0 p1 p2 : Byte),
    let q : Word := s.d + dp.setWidth 16
    let addr : Addr := mk24 p2 p1 p0 + (if s.idx16 then s.y.setWidth 24 else (loByte s.y).setWidth 24)
    (busRead s (mkAddr 0 q) = .ok p0 → busRead s (mkAddr 0 (q + 1)) = .ok p1 → busRead s (mkAddr 0 (q + 2)) = .ok p2 →
      (s.acc16 = false → ∀ b, busRead s addr = .ok b →
        exec (.ldaDpily dp) s = .next { s with
          pc := s.pc + 2, cyc := s.cyc + s.cycles (.ldaDpily dp) false,
          a := mk16 (hiByte s.a) b, p := nz8 s.p b }) ∧
      (s.acc16 = true → ∀ lo hi, busRead s addr = .ok lo → busRead s (addr + 1) = .ok hi →
        exec (.ldaDpily dp) s = .next { s with
          pc := s.pc + 2, cyc := s.cyc + s.cycles (.ldaDpily dp) false,
          a := mk16 hi lo, p := nz16 s.p (mk16 hi lo) }) ∧
      (∀ f, busRead s addr = .error f → exec (.ldaDpily dp) s = .fault f) ∧
      (s.acc16 = true → ∀ lo f, busRead s addr = .ok lo → busRead s (addr + 1) = .error f → exec (.ldaDpily dp) s = .fault f)) ∧
    (∀ f, busRead s (mkAddr 0 q) = .error f → exec (.ldaDpily dp) s = .fault f) ∧
    (∀ f, busRead s (mkAddr 0 q) = .ok p0 → busRead s (mkAddr 0 (q + 1)) = .error f → exec (.ldaDpily dp) s = .fault f) ∧
    (∀ f, busRead s (mkAddr 0 q) = .ok p0 → busRead s (mkAddr 0 (q + 1)) = .ok p1 → busRead s (mkAddr 0 (q + 2)) = .error f →
      exec (.ldaDpily dp) s = .fault f)

/-- 48_sbc.md R170, R171 at a 16-bit accumulator: the result is `A - imm - (1 - C)` `mod 2^16`; `C` is set exactly when no borrow
occurs; `V` exactly when the signed result leaves the 16-bit range; `N`, `Z` come from the result. The decimal flag makes no
difference here (D23, assumption 10). -/
def Obligations.SubtractAtWidth16 : Prop :=
  ∀ (s : State) (imm : Word), s.acc16 = true →
    let bw := borrow (s.flag .c)
    let res : Word := s.a - imm - BitVec.ofNat 16 bw
    let signed : Int := s.a.toInt - imm.toInt - bw
    exec (.sbcImm imm) s = .next { s with
      pc := s.pc + 3, cyc := s.cyc + s.cycles (.sbcImm imm) false, a := res,
      p := withNZ (withV (withC s.p (decide (imm.toNat + bw ≤ s.a.toNat))) (decide (signed < -0x8000 ∨ 0x7FFF < signed))) res.msb (res == 0) }

/-- 48_sbc.md R170, R171, 60_exceptions.md R180 (D21) at an 8-bit accumulator: with `P.D = 0` the same laws on the low bytes, the
high byte of `A` preserved and taking no part; with `P.D = 1` SBC raises `UnsupportedInstructionVariant` for 0xE9 at the address of
the instruction. -/
def Obligations.SubtractAtWidth8 : Prop :=
  ∀ (s : State) (imm : Word), s.acc16 = false →
    let bw := borrow (s.flag .c)
    let av : Byte := loByte s.a
    let m : Byte := loByte imm
    let res : Byte := av - m - BitVec.ofNat 8 bw
    let signed : Int := av.toInt - m.toInt - bw
    (s.flag .d = false → exec (.sbcImm imm) s = .next { s with
      pc := s.pc + 2, cyc := s.cyc + s.cycles (.sbcImm imm) false,
      a := mk16 (hiByte s.a) res,
      p := withNZ (withV (withC s.p (decide (m.toNat + bw ≤ av.toNat))) (decide (signed < -0x80 ∨ 0x7F < signed))) res.msb (res == 0) }) ∧
    (s.flag .d = true → exec (.sbcImm imm) s = .fault (.unsupportedInstructionVariant 0xE9 s.pc))

/-- 49_mode.md R175 (opcode byte: D2; bits of `P`: D7): REP clears the flags of its mask and, when `E = 1`, forces `M` and `X` to 1; no other register
changes. -/
def Obligations.ResetStatusBits : Prop :=
  (∀ (wd : Widths) (m : Byte) (rest : List Byte), decode wd (0xC2 :: m :: rest) = .ok (.rep m, rest)) ∧
  (∀ (s : State) (m : Byte),
    exec (.rep m) s = .next { s with
      pc := s.pc + 2, cyc := s.cyc + s.cycles (.rep m) false,
      p := if s.e then (s.p &&& ~~~m) ||| 0x30 else s.p &&& ~~~m })

/-- 49_mode.md R176 (D9; bits of `P`: D7): SEP sets the flags of its mask; mask bit 4 zeroes the high bytes of `X` and `Y`, mask bit 5 that of `A`,
whether or not the flag was set before; `N` and `Z` are not recomputed. -/
def Obligations.SetStatusBits : Prop :=
  ∀ (s : State) (m : Byte),
    exec (.sep m) s = .next { s with
      pc := s.pc + 2, cyc := s.cyc + s.cycles (.sep m) false, p := s.p ||| m,
      x := if m &&& 0x10 = 0 then s.x else s.x &&& 0x00FF, y := if m &&& 0x10 = 0 then s.y else s.y &&& 0x00FF,
      a := if m &&& 0x20 = 0 then s.a else s.a &&& 0x00FF }

/-- 49_mode.md R177 (opcode byte: D2; bits of `P`: D7): XCE exchanges `E` and `C`; when the new `E` is 1 it forces `M`, `X`, the high byte of `S` and
those of `X` and `Y`, whatever the old `E` was; when it is 0 nothing else changes; twice in a row it restores `E` and `C`. -/
def Obligations.ExchangeCarryAndEmulation : Prop :=
  (∀ (wd : Widths) (rest : List Byte), decode wd (0xFB :: rest) = .ok (.xce, rest)) ∧
  (∀ s : State, s.flag .c = false →
    exec .xce s = .next { s with pc := s.pc + 1, cyc := s.cyc + s.cycles .xce false, e := false, p := withC s.p s.e }) ∧
  (∀ s : State, s.flag .c = true →
    exec .xce s = .next { s with
      pc := s.pc + 1, cyc := s.cyc + s.cycles .xce false, e := true,
      p := withC s.p s.e ||| 0x30, sp := mk16 0x01 (loByte s.sp), x := s.x &&& 0x00FF, y := s.y &&& 0x00FF }) ∧
  (∀ s t u : State, exec .xce s = .next t → exec .xce t = .next u → u.e = s.e ∧ u.flag .c = s.flag .c)

/-! ### Reset -/

/-- 10_state.md R40, 70_reset_and_hazards.md R205 (D5, D6, the default `RESET_REGS`): what a successful reset leaves, for every
image. -/
def Obligations.ResetValues : Prop :=
  ∀ (src : P9FSource) (costs : CycleTable) (raw : Image) (s : State), resetMachine Config.resetRegs src costs raw = .next s →
    s = { a := 0x0000, x := 0x0000, y := 0x0000, sp := 0x01FF, d := 0x0000, dbr := 0x00, p := 0x34, e := true,
          pc := mkAddr 0x00 (wordAt s.rom (if s.map = .hiROM then 0xFFFC else 0x7FFC)), cyc := 0, fault := none,
          wram := [], io := ⟨0, 0, 0, 0, 0, 0, 0, 0, 0⟩, ioLog := [], rom := s.rom, map := s.map, p9f := src, costs := costs } ∧
    (∀ a b, busRead s a = .ok b → ∀ k, region a = .wram k → b = 0x00)

/-- 70_reset_and_hazards.md R201, R202 (D26), for an image without a copier header: too small a buffer raises `IoError`; map-mode
nibble 3 at a reachable candidate raises `UnsupportedAddressingScheme`; otherwise the strictly better candidate is chosen and a
tie or an unreachable HiROM header keeps LoROM. -/
def Obligations.HeaderLocation : Prop :=
  ∀ (regs : ResetRegs) (src : P9FSource) (costs : CycleTable) (rom : Image), rom.size % 1024 ≠ 512 →
    let lo := headerScore false (nibbleAt rom 0x7FD5) (wordAt rom 0x7FFC)
    let hi := headerScore true (nibbleAt rom 0xFFD5) (wordAt rom 0xFFFC)
    (rom.size < 0x7FFE → resetMachine regs src costs rom = .fault (.ioError rom.size)) ∧
    (0x7FFE ≤ rom.size → nibbleAt rom 0x7FD5 = 3 →
      resetMachine regs src costs rom = .fault (.unsupportedAddressingScheme (.mapMode 3))) ∧
    (0x7FFE ≤ rom.size → rom.size < 0xFFFE → nibbleAt rom 0x7FD5 ≠ 3 →
      resetMachine regs src costs rom = .next (initialState regs src costs rom .loROM)) ∧
    (0xFFFE ≤ rom.size → nibbleAt rom 0x7FD5 ≠ 3 → nibbleAt rom 0xFFD5 = 3 →
      resetMachine regs src costs rom = .fault (.unsupportedAddressingScheme (.mapMode 3))) ∧
    (0xFFFE ≤ rom.size → nibbleAt rom 0x7FD5 ≠ 3 → nibbleAt rom 0xFFD5 ≠ 3 →
      resetMachine regs src costs rom = .next (initialState regs src costs rom (if lo < hi then .hiROM else .loROM)))

/-- 70_reset_and_hazards.md R200 (D35): a buffer of size 512 `mod` 1024 loses its first 512 bytes before anything else is read; any
other buffer is taken whole. -/
def Obligations.CopierHeaderStripped : Prop :=
  ∀ (regs : ResetRegs) (src : P9FSource) (costs : CycleTable) (raw : Image),
    (raw.size % 1024 = 512 →
      resetMachine regs src costs raw = resetMachine regs src costs (raw.drop 512) ∧ (raw.drop 512).size = raw.size - 512 ∧
      ∀ i, (raw.drop 512).byte i = raw.byte (512 + i)) ∧
    (∀ s, raw.size % 1024 ≠ 512 → resetMachine regs src costs raw = .next s → s.rom = raw)

/-- 70_reset_and_hazards.md R205: a reset that ends with a fault leaves it latched, and no step is ever taken (the other fields of
that machine are the model's choice: assumption 9). -/
def Obligations.FailedResetNeverSteps : Prop :=
  ∀ (regs : ResetRegs) (src : P9FSource) (costs : CycleTable) (raw : Image) (f : Fault), resetMachine regs src costs raw = .fault f →
    (boot regs src costs raw).fault = some { cause := f, pc := none } ∧ step (boot regs src costs raw) = .fault f ∧
    stateAfter (boot regs src costs raw) (step (boot regs src costs raw)) = boot regs src costs raw

/-- 70_reset_and_hazards.md R227, 20_memory.md R58 (D5, D6, D19): a HiROM image whose reset vector is at 0xC000 or above faults at its first
opcode fetch. -/
def Obligations.HiRomImageCannotRun : Prop :=
  ∀ (src : P9FSource) (costs : CycleTable) (raw : Image) (s : State), resetMachine Config.resetRegs src costs raw = .next s → s.map = .hiROM →
    0xC000 ≤ (offOf s.pc).toNat → step s = .fault (.unsupportedAddressingScheme (.address s.pc))
end

