-- ==== Sys2Proof/Laws/Bits.lean ====
section
/-! SUPPORT. Byte order and the fields of an address, first as numbers, then as the round trips the other laws cite. -/

namespace Sys2Proof

theorem toNat_mk16 (hi lo : Byte) : (mk16 hi lo).toNat = hi.toNat * 0x100 + lo.toNat := by
  unfold mk16
  rw [BitVec.toNat_append, ← Nat.shiftLeft_add_eq_or_of_lt lo.isLt, Nat.shiftLeft_eq]

theorem toNat_mkAddr (b : Byte) (o : Word) : (mkAddr b o).toNat = b.toNat * 0x10000 + o.toNat := by
  unfold mkAddr
  rw [BitVec.toNat_append, ← Nat.shiftLeft_add_eq_or_of_lt o.isLt, Nat.shiftLeft_eq]

theorem toNat_loByte (v : Word) : (loByte v).toNat = v.toNat % 0x100 := by
  simp [loByte]

theorem toNat_hiByte (v : Word) : (hiByte v).toNat = v.toNat / 0x100 := by
  have := v.isLt
  simp [hiByte, Nat.shiftRight_eq_div_pow]; omega

theorem toNat_offOf (a : Addr) : (offOf a).toNat = a.toNat % 0x10000 := by
  simp [offOf]

theorem toNat_bankOf (a : Addr) : (bankOf a).toNat = a.toNat / 0x10000 := by
  have := a.isLt
  simp [bankOf, Nat.shiftRight_eq_div_pow]; omega

theorem toNat_zext16 (b : Byte) : (zext16 b).toNat = b.toNat := by
  have := b.isLt
  simp [zext16]; omega

@[simp] theorem loByte_mk16 (hi lo : Byte) : loByte (mk16 hi lo) = lo := by
  apply BitVec.eq_of_toNat_eq; have := lo.isLt; simp only [toNat_loByte, toNat_mk16]; omega

@[simp] theorem hiByte_mk16 (hi lo : Byte) : hiByte (mk16 hi lo) = hi := by
  apply BitVec.eq_of_toNat_eq; have := lo.isLt; simp only [toNat_hiByte, toNat_mk16]; omega

@[simp] theorem mk16_hiByte_loByte (v : Word) : mk16 (hiByte v) (loByte v) = v := by
  apply BitVec.eq_of_toNat_eq; simp only [toNat_hiByte, toNat_loByte, toNat_mk16]; omega

@[simp] theorem bankOf_mkAddr (b : Byte) (o : Word) : bankOf (mkAddr b o) = b := by
  apply BitVec.eq_of_toNat_eq; have := o.isLt; simp only [toNat_bankOf, toNat_mkAddr]; omega

@[simp] theorem offOf_mkAddr (b : Byte) (o : Word) : offOf (mkAddr b o) = o := by
  apply BitVec.eq_of_toNat_eq; have := o.isLt; simp only [toNat_offOf, toNat_mkAddr]; omega

@[simp] theorem mkAddr_bankOf_offOf (a : Addr) : mkAddr (bankOf a) (offOf a) = a := by
  apply BitVec.eq_of_toNat_eq; simp only [toNat_bankOf, toNat_offOf, toNat_mkAddr]; omega

theorem mk24_eq (bank mid lo : Byte) : mk24 bank mid lo = mkAddr bank (mk16 mid lo) := rfl

@[simp] theorem loByte_zext16 (b : Byte) : loByte (zext16 b) = b := by
  apply BitVec.eq_of_toNat_eq; have := b.isLt; simp only [toNat_loByte, toNat_zext16]; omega

theorem zext16_eq (b : Byte) : zext16 b = mk16 0 b := by
  apply BitVec.eq_of_toNat_eq; simp [toNat_zext16, toNat_mk16]

@[simp] theorem hiByte_zext16 (b : Byte) : hiByte (zext16 b) = 0 := by rw [zext16_eq, hiByte_mk16]

/-- Two words with the same bytes are the same word. -/
theorem word_ext {v w : Word} (hh : hiByte v = hiByte w) (hl : loByte v = loByte w) : v = w := by
  rw [← mk16_hiByte_loByte v, ← mk16_hiByte_loByte w, hh, hl]

/-- Every word is a pair of bytes. -/
theorem word_cases (v : Word) : ∃ hi lo, v = mk16 hi lo := ⟨hiByte v, loByte v, by simp⟩

/-- Every address is a bank and an offset. -/
theorem addr_cases (a : Addr) : ∃ b o, a = mkAddr b o := ⟨bankOf a, offOf a, by simp⟩

end Sys2Proof
end

