-- ==== Sys2Proof/Laws/State.lean ====
section
/-! SUPPORT. One lemma per field per named update of the state, so that no proof unfolds an update. Plain record updates need none:
their projections reduce by themselves. -/

namespace Sys2Proof.Machine

@[simp] theorem State.setFlag_a (s : State) (f : Flag) (b : Bool) : (s.setFlag f b).a = s.a := rfl
@[simp] theorem State.setFlag_x (s : State) (f : Flag) (b : Bool) : (s.setFlag f b).x = s.x := rfl
@[simp] theorem State.setFlag_y (s : State) (f : Flag) (b : Bool) : (s.setFlag f b).y = s.y := rfl
@[simp] theorem State.setFlag_sp (s : State) (f : Flag) (b : Bool) : (s.setFlag f b).sp = s.sp := rfl
@[simp] theorem State.setFlag_d (s : State) (f : Flag) (b : Bool) : (s.setFlag f b).d = s.d := rfl
@[simp] theorem State.setFlag_dbr (s : State) (f : Flag) (b : Bool) : (s.setFlag f b).dbr = s.dbr := rfl
@[simp] theorem State.setFlag_p (s : State) (f : Flag) (b : Bool) : (s.setFlag f b).p = putFlag s.p f b := rfl
@[simp] theorem State.setFlag_e (s : State) (f : Flag) (b : Bool) : (s.setFlag f b).e = s.e := rfl
@[simp] theorem State.setFlag_pc (s : State) (f : Flag) (b : Bool) : (s.setFlag f b).pc = s.pc := rfl
@[simp] theorem State.setFlag_cyc (s : State) (f : Flag) (b : Bool) : (s.setFlag f b).cyc = s.cyc := rfl
@[simp] theorem State.setFlag_fault (s : State) (f : Flag) (b : Bool) : (s.setFlag f b).fault = s.fault := rfl
@[simp] theorem State.setFlag_wram (s : State) (f : Flag) (b : Bool) : (s.setFlag f b).wram = s.wram := rfl
@[simp] theorem State.setFlag_io (s : State) (f : Flag) (b : Bool) : (s.setFlag f b).io = s.io := rfl
@[simp] theorem State.setFlag_ioLog (s : State) (f : Flag) (b : Bool) : (s.setFlag f b).ioLog = s.ioLog := rfl
@[simp] theorem State.setFlag_rom (s : State) (f : Flag) (b : Bool) : (s.setFlag f b).rom = s.rom := rfl
@[simp] theorem State.setFlag_map (s : State) (f : Flag) (b : Bool) : (s.setFlag f b).map = s.map := rfl
@[simp] theorem State.setFlag_p9f (s : State) (f : Flag) (b : Bool) : (s.setFlag f b).p9f = s.p9f := rfl
@[simp] theorem State.setFlag_costs (s : State) (f : Flag) (b : Bool) : (s.setFlag f b).costs = s.costs := rfl

@[simp] theorem State.setNZ_a (s : State) (w16 : Bool) (v : Word) : (s.setNZ w16 v).a = s.a := rfl
@[simp] theorem State.setNZ_x (s : State) (w16 : Bool) (v : Word) : (s.setNZ w16 v).x = s.x := rfl
@[simp] theorem State.setNZ_y (s : State) (w16 : Bool) (v : Word) : (s.setNZ w16 v).y = s.y := rfl
@[simp] theorem State.setNZ_sp (s : State) (w16 : Bool) (v : Word) : (s.setNZ w16 v).sp = s.sp := rfl
@[simp] theorem State.setNZ_d (s : State) (w16 : Bool) (v : Word) : (s.setNZ w16 v).d = s.d := rfl
@[simp] theorem State.setNZ_dbr (s : State) (w16 : Bool) (v : Word) : (s.setNZ w16 v).dbr = s.dbr := rfl
@[simp] theorem State.setNZ_p (s : State) (w16 : Bool) (v : Word) : (s.setNZ w16 v).p = putFlag (putFlag s.p .n (topBit w16 v)) .z (zeroAt w16 v) := rfl
@[simp] theorem State.setNZ_e (s : State) (w16 : Bool) (v : Word) : (s.setNZ w16 v).e = s.e := rfl
@[simp] theorem State.setNZ_pc (s : State) (w16 : Bool) (v : Word) : (s.setNZ w16 v).pc = s.pc := rfl
@[simp] theorem State.setNZ_cyc (s : State) (w16 : Bool) (v : Word) : (s.setNZ w16 v).cyc = s.cyc := rfl
@[simp] theorem State.setNZ_fault (s : State) (w16 : Bool) (v : Word) : (s.setNZ w16 v).fault = s.fault := rfl
@[simp] theorem State.setNZ_wram (s : State) (w16 : Bool) (v : Word) : (s.setNZ w16 v).wram = s.wram := rfl
@[simp] theorem State.setNZ_io (s : State) (w16 : Bool) (v : Word) : (s.setNZ w16 v).io = s.io := rfl
@[simp] theorem State.setNZ_ioLog (s : State) (w16 : Bool) (v : Word) : (s.setNZ w16 v).ioLog = s.ioLog := rfl
@[simp] theorem State.setNZ_rom (s : State) (w16 : Bool) (v : Word) : (s.setNZ w16 v).rom = s.rom := rfl
@[simp] theorem State.setNZ_map (s : State) (w16 : Bool) (v : Word) : (s.setNZ w16 v).map = s.map := rfl
@[simp] theorem State.setNZ_p9f (s : State) (w16 : Bool) (v : Word) : (s.setNZ w16 v).p9f = s.p9f := rfl
@[simp] theorem State.setNZ_costs (s : State) (w16 : Bool) (v : Word) : (s.setNZ w16 v).costs = s.costs := rfl

@[simp] theorem State.putReg_sp (s : State) (r : Reg) (v : Word) : (s.putReg r v).sp = s.sp := by cases r <;> rfl
@[simp] theorem State.putReg_d (s : State) (r : Reg) (v : Word) : (s.putReg r v).d = s.d := by cases r <;> rfl
@[simp] theorem State.putReg_dbr (s : State) (r : Reg) (v : Word) : (s.putReg r v).dbr = s.dbr := by cases r <;> rfl
@[simp] theorem State.putReg_p (s : State) (r : Reg) (v : Word) : (s.putReg r v).p = s.p := by cases r <;> rfl
@[simp] theorem State.putReg_e (s : State) (r : Reg) (v : Word) : (s.putReg r v).e = s.e := by cases r <;> rfl
@[simp] theorem State.putReg_pc (s : State) (r : Reg) (v : Word) : (s.putReg r v).pc = s.pc := by cases r <;> rfl
@[simp] theorem State.putReg_cyc (s : State) (r : Reg) (v : Word) : (s.putReg r v).cyc = s.cyc := by cases r <;> rfl
@[simp] theorem State.putReg_fault (s : State) (r : Reg) (v : Word) : (s.putReg r v).fault = s.fault := by cases r <;> rfl
@[simp] theorem State.putReg_wram (s : State) (r : Reg) (v : Word) : (s.putReg r v).wram = s.wram := by cases r <;> rfl
@[simp] theorem State.putReg_io (s : State) (r : Reg) (v : Word) : (s.putReg r v).io = s.io := by cases r <;> rfl
@[simp] theorem State.putReg_ioLog (s : State) (r : Reg) (v : Word) : (s.putReg r v).ioLog = s.ioLog := by cases r <;> rfl
@[simp] theorem State.putReg_rom (s : State) (r : Reg) (v : Word) : (s.putReg r v).rom = s.rom := by cases r <;> rfl
@[simp] theorem State.putReg_map (s : State) (r : Reg) (v : Word) : (s.putReg r v).map = s.map := by cases r <;> rfl
@[simp] theorem State.putReg_p9f (s : State) (r : Reg) (v : Word) : (s.putReg r v).p9f = s.p9f := by cases r <;> rfl
@[simp] theorem State.putReg_costs (s : State) (r : Reg) (v : Word) : (s.putReg r v).costs = s.costs := by cases r <;> rfl

@[simp] theorem State.setReg_sp (s : State) (r : Reg) (v : Word) : (s.setReg r v).sp = s.sp := by cases r <;> rfl
@[simp] theorem State.setReg_d (s : State) (r : Reg) (v : Word) : (s.setReg r v).d = s.d := by cases r <;> rfl
@[simp] theorem State.setReg_dbr (s : State) (r : Reg) (v : Word) : (s.setReg r v).dbr = s.dbr := by cases r <;> rfl
@[simp] theorem State.setReg_p (s : State) (r : Reg) (v : Word) : (s.setReg r v).p = putFlag (putFlag s.p .n (topBit (s.reg16 r) v)) .z (zeroAt (s.reg16 r) v) := by cases r <;> rfl
@[simp] theorem State.setReg_e (s : State) (r : Reg) (v : Word) : (s.setReg r v).e = s.e := by cases r <;> rfl
@[simp] theorem State.setReg_pc (s : State) (r : Reg) (v : Word) : (s.setReg r v).pc = s.pc := by cases r <;> rfl
@[simp] theorem State.setReg_cyc (s : State) (r : Reg) (v : Word) : (s.setReg r v).cyc = s.cyc := by cases r <;> rfl
@[simp] theorem State.setReg_fault (s : State) (r : Reg) (v : Word) : (s.setReg r v).fault = s.fault := by cases r <;> rfl
@[simp] theorem State.setReg_wram (s : State) (r : Reg) (v : Word) : (s.setReg r v).wram = s.wram := by cases r <;> rfl
@[simp] theorem State.setReg_io (s : State) (r : Reg) (v : Word) : (s.setReg r v).io = s.io := by cases r <;> rfl
@[simp] theorem State.setReg_ioLog (s : State) (r : Reg) (v : Word) : (s.setReg r v).ioLog = s.ioLog := by cases r <;> rfl
@[simp] theorem State.setReg_rom (s : State) (r : Reg) (v : Word) : (s.setReg r v).rom = s.rom := by cases r <;> rfl
@[simp] theorem State.setReg_map (s : State) (r : Reg) (v : Word) : (s.setReg r v).map = s.map := by cases r <;> rfl
@[simp] theorem State.setReg_p9f (s : State) (r : Reg) (v : Word) : (s.setReg r v).p9f = s.p9f := by cases r <;> rfl
@[simp] theorem State.setReg_costs (s : State) (r : Reg) (v : Word) : (s.setReg r v).costs = s.costs := by cases r <;> rfl

@[simp] theorem State.advance_a (s : State) (i : Instr) : (s.advance i).a = s.a := rfl
@[simp] theorem State.advance_x (s : State) (i : Instr) : (s.advance i).x = s.x := rfl
@[simp] theorem State.advance_y (s : State) (i : Instr) : (s.advance i).y = s.y := rfl
@[simp] theorem State.advance_sp (s : State) (i : Instr) : (s.advance i).sp = s.sp := rfl
@[simp] theorem State.advance_d (s : State) (i : Instr) : (s.advance i).d = s.d := rfl
@[simp] theorem State.advance_dbr (s : State) (i : Instr) : (s.advance i).dbr = s.dbr := rfl
@[simp] theorem State.advance_p (s : State) (i : Instr) : (s.advance i).p = s.p := rfl
@[simp] theorem State.advance_e (s : State) (i : Instr) : (s.advance i).e = s.e := rfl
@[simp] theorem State.advance_pc (s : State) (i : Instr) : (s.advance i).pc = s.pc + BitVec.ofNat 24 (i.length s.widths) := rfl
@[simp] theorem State.advance_cyc (s : State) (i : Instr) : (s.advance i).cyc = s.cyc := rfl
@[simp] theorem State.advance_fault (s : State) (i : Instr) : (s.advance i).fault = s.fault := rfl
@[simp] theorem State.advance_wram (s : State) (i : Instr) : (s.advance i).wram = s.wram := rfl
@[simp] theorem State.advance_io (s : State) (i : Instr) : (s.advance i).io = s.io := rfl
@[simp] theorem State.advance_ioLog (s : State) (i : Instr) : (s.advance i).ioLog = s.ioLog := rfl
@[simp] theorem State.advance_rom (s : State) (i : Instr) : (s.advance i).rom = s.rom := rfl
@[simp] theorem State.advance_map (s : State) (i : Instr) : (s.advance i).map = s.map := rfl
@[simp] theorem State.advance_p9f (s : State) (i : Instr) : (s.advance i).p9f = s.p9f := rfl
@[simp] theorem State.advance_costs (s : State) (i : Instr) : (s.advance i).costs = s.costs := rfl

@[simp] theorem State.force8_a (s : State) : (s.force8).a = s.a := rfl
@[simp] theorem State.force8_x (s : State) : (s.force8).x = s.x := rfl
@[simp] theorem State.force8_y (s : State) : (s.force8).y = s.y := rfl
@[simp] theorem State.force8_sp (s : State) : (s.force8).sp = s.sp := rfl
@[simp] theorem State.force8_d (s : State) : (s.force8).d = s.d := rfl
@[simp] theorem State.force8_dbr (s : State) : (s.force8).dbr = s.dbr := rfl
@[simp] theorem State.force8_p (s : State) : (s.force8).p = putFlag (putFlag s.p .m true) .x true := rfl
@[simp] theorem State.force8_e (s : State) : (s.force8).e = s.e := rfl
@[simp] theorem State.force8_pc (s : State) : (s.force8).pc = s.pc := rfl
@[simp] theorem State.force8_cyc (s : State) : (s.force8).cyc = s.cyc := rfl
@[simp] theorem State.force8_fault (s : State) : (s.force8).fault = s.fault := rfl
@[simp] theorem State.force8_wram (s : State) : (s.force8).wram = s.wram := rfl
@[simp] theorem State.force8_io (s : State) : (s.force8).io = s.io := rfl
@[simp] theorem State.force8_ioLog (s : State) : (s.force8).ioLog = s.ioLog := rfl
@[simp] theorem State.force8_rom (s : State) : (s.force8).rom = s.rom := rfl
@[simp] theorem State.force8_map (s : State) : (s.force8).map = s.map := rfl
@[simp] theorem State.force8_p9f (s : State) : (s.force8).p9f = s.p9f := rfl
@[simp] theorem State.force8_costs (s : State) : (s.force8).costs = s.costs := rfl

@[simp] theorem State.enterEmulation_a (s : State) : (s.enterEmulation).a = s.a := rfl
@[simp] theorem State.enterEmulation_x (s : State) : (s.enterEmulation).x = clearHigh s.x := rfl
@[simp] theorem State.enterEmulation_y (s : State) : (s.enterEmulation).y = clearHigh s.y := rfl
@[simp] theorem State.enterEmulation_sp (s : State) : (s.enterEmulation).sp = pinSp true s.sp := rfl
@[simp] theorem State.enterEmulation_d (s : State) : (s.enterEmulation).d = s.d := rfl
@[simp] theorem State.enterEmulation_dbr (s : State) : (s.enterEmulation).dbr = s.dbr := rfl
@[simp] theorem State.enterEmulation_p (s : State) : (s.enterEmulation).p = putFlag (putFlag s.p .m true) .x true := rfl
@[simp] theorem State.enterEmulation_e (s : State) : (s.enterEmulation).e = s.e := rfl
@[simp] theorem State.enterEmulation_pc (s : State) : (s.enterEmulation).pc = s.pc := rfl
@[simp] theorem State.enterEmulation_cyc (s : State) : (s.enterEmulation).cyc = s.cyc := rfl
@[simp] theorem State.enterEmulation_fault (s : State) : (s.enterEmulation).fault = s.fault := rfl
@[simp] theorem State.enterEmulation_wram (s : State) : (s.enterEmulation).wram = s.wram := rfl
@[simp] theorem State.enterEmulation_io (s : State) : (s.enterEmulation).io = s.io := rfl
@[simp] theorem State.enterEmulation_ioLog (s : State) : (s.enterEmulation).ioLog = s.ioLog := rfl
@[simp] theorem State.enterEmulation_rom (s : State) : (s.enterEmulation).rom = s.rom := rfl
@[simp] theorem State.enterEmulation_map (s : State) : (s.enterEmulation).map = s.map := rfl
@[simp] theorem State.enterEmulation_p9f (s : State) : (s.enterEmulation).p9f = s.p9f := rfl
@[simp] theorem State.enterEmulation_costs (s : State) : (s.enterEmulation).costs = s.costs := rfl

@[simp] theorem State.putReg_reg (s : State) (r : Reg) (v : Word) : (s.putReg r v).reg r = v := by cases r <;> rfl

theorem State.takeFault_of_none {s : State} (f : Fault) (h : s.fault = none) :
    s.takeFault f = { s with fault := some { cause := f, pc := some s.pc } } := by simp [State.takeFault, h]

theorem State.takeFault_of_some {s : State} {l : FaultLatch} (f : Fault) (h : s.fault = some l) : s.takeFault f = s := by
  simp [State.takeFault, h]

end Sys2Proof.Machine
end

