-- ==== Sys2Proof/Laws/Flags.lean ====
section
/-! SUPPORT. The flags of `P`: a flag written reads back and no other flag moves; the width queries follow. -/

namespace Sys2Proof.Machine

theorem getLsbD_putFlag (p : Byte) (f g : Flag) (b : Bool) :
    (putFlag p f b).getLsbD g.bit = if g = f then b else p.getLsbD g.bit := by
  cases f <;> cases g <;> cases b <;> simp [putFlag, Flag.mask, Flag.bit]

/-- A flag after a flag was written. -/
theorem State.flag_setFlag (s : State) (f g : Flag) (b : Bool) :
    (s.setFlag f b).flag g = if g = f then b else s.flag g := getLsbD_putFlag s.p f g b

@[simp] theorem State.flag_setFlag_same (s : State) (f : Flag) (b : Bool) : (s.setFlag f b).flag f = b := by
  simp [State.flag_setFlag]

theorem State.flag_setFlag_other (s : State) {f g : Flag} (b : Bool) (h : g ≠ f) : (s.setFlag f b).flag g = s.flag g := by
  simp [State.flag_setFlag, h]

/-- A flag after `N` and `Z` were written. -/
theorem State.flag_setNZ (s : State) (w16 : Bool) (v : Word) (g : Flag) :
    (s.setNZ w16 v).flag g = if g = .z then zeroAt w16 v else if g = .n then topBit w16 v else s.flag g := by
  simp [State.setNZ, State.flag_setFlag]

/-- Writing a flag other than `M` leaves the accumulator width. -/
theorem State.acc16_setFlag (s : State) {f : Flag} (b : Bool) (h : f ≠ .m) : (s.setFlag f b).acc16 = s.acc16 := by
  simp [State.acc16, State.flag_setFlag, h.symm]

/-- Writing a flag other than `X` leaves the index width. -/
theorem State.idx16_setFlag (s : State) {f : Flag} (b : Bool) (h : f ≠ .x) : (s.setFlag f b).idx16 = s.idx16 := by
  simp [State.idx16, State.flag_setFlag, h.symm]

@[simp] theorem State.acc16_setNZ (s : State) (w16 : Bool) (v : Word) : (s.setNZ w16 v).acc16 = s.acc16 := by
  simp [State.setNZ, State.acc16_setFlag]

@[simp] theorem State.idx16_setNZ (s : State) (w16 : Bool) (v : Word) : (s.setNZ w16 v).idx16 = s.idx16 := by
  simp [State.setNZ, State.idx16_setFlag]

@[simp] theorem State.flag_putReg (s : State) (r : Reg) (v : Word) (g : Flag) : (s.putReg r v).flag g = s.flag g := by
  simp [State.flag]

/-- A flag after `SetReg`. -/
theorem State.flag_setReg (s : State) (r : Reg) (v : Word) (g : Flag) :
    (s.setReg r v).flag g =
      if g = .z then zeroAt (s.reg16 r) v else if g = .n then topBit (s.reg16 r) v else s.flag g := by
  simp [State.setReg, State.flag_setNZ]

@[simp] theorem State.flag_advance (s : State) (i : Instr) (g : Flag) : (s.advance i).flag g = s.flag g := rfl
@[simp] theorem State.acc16_advance (s : State) (i : Instr) : (s.advance i).acc16 = s.acc16 := rfl
@[simp] theorem State.idx16_advance (s : State) (i : Instr) : (s.advance i).idx16 = s.idx16 := rfl
@[simp] theorem State.widths_advance (s : State) (i : Instr) : (s.advance i).widths = s.widths := rfl
@[simp] theorem State.reg16_advance (s : State) (i : Instr) (r : Reg) : (s.advance i).reg16 r = s.reg16 r := by cases r <;> rfl
@[simp] theorem State.reg_advance (s : State) (i : Instr) (r : Reg) : (s.advance i).reg r = s.reg r := by cases r <;> rfl

/-- The flags of a state in emulation mode after the forcing of `M` and `X`. -/
theorem State.flag_force8 (s : State) (g : Flag) : s.force8.flag g = (decide (g = .m) || decide (g = .x) || s.flag g) := by
  cases g <;> simp [State.force8, State.flag_setFlag]

/-- `SetReg` on each register, spelled out. -/
theorem State.setReg_a (s : State) (v : Word) :
    s.setReg .a v = { s.setNZ s.acc16 v with a := mergeW s.acc16 s.a v } := rfl

theorem State.setReg_x (s : State) (v : Word) :
    s.setReg .x v = { s.setNZ s.idx16 v with x := mergeW s.idx16 s.x v } := rfl

theorem State.setReg_y (s : State) (v : Word) :
    s.setReg .y v = { s.setNZ s.idx16 v with y := mergeW s.idx16 s.y v } := rfl

@[simp] theorem mergeW_true (old v : Word) : mergeW true old v = v := rfl
@[simp] theorem mergeW_false (old v : Word) : mergeW false old v = mk16 (hiByte old) (loByte v) := rfl

/-- A register written at width 8 keeps its high byte. -/
theorem hiByte_mergeW_false (old v : Word) : hiByte (mergeW false old v) = hiByte old := by simp

@[simp] theorem maskW_true (v : Word) : maskW true v = v := rfl

theorem maskW_false (v : Word) : maskW false v = zext16 (loByte v) := by
  unfold maskW zext16 loByte
  ext i h
  simp only [Bool.false_eq_true, if_false, BitVec.getElem_and, BitVec.getElem_setWidth, BitVec.getLsbD_extractLsb']
  by_cases hi : i < 8
  · interval_cases i <;> simp
  · interval_cases i <;> simp at hi ⊢

@[simp] theorem loByte_maskW (w16 : Bool) (v : Word) : loByte (maskW w16 v) = loByte v := by
  cases w16 <;> simp [maskW_false]

@[simp] theorem pinSp_false (sp : Word) : pinSp false sp = sp := rfl
@[simp] theorem hiByte_pinSp_true (sp : Word) : hiByte (pinSp true sp) = 0x01 := by simp [pinSp]
@[simp] theorem loByte_pinSp (e : Bool) (sp : Word) : loByte (pinSp e sp) = loByte sp := by cases e <;> simp [pinSp]
@[simp] theorem hiByte_clearHigh (v : Word) : hiByte (clearHigh v) = 0 := by simp [clearHigh]
@[simp] theorem loByte_clearHigh (v : Word) : loByte (clearHigh v) = loByte v := by simp [clearHigh]

end Sys2Proof.Machine
end

