-- ==== Sys2Proof/Laws/Memory.lean ====
section
/-! SUPPORT. The laws of byte arrays: read after write, and every operation keeps the canonical form. The reading laws hold of
every list, canonical or not. -/

namespace Sys2Proof.Machine

@[simp] theorem Memory.read_nil (i : Nat) : Memory.read [] i = Memory.unlisted := rfl

theorem Memory.read_cons (c : Host.Cell) (m : Memory) (i : Nat) :
    Memory.read (c :: m) i = if c.1 = i then c.2 else Memory.read m i := rfl

theorem Memory.read_erase (m : Memory) (i j : Nat) :
    (m.erase i).read j = if j = i then Memory.unlisted else m.read j := by
  induction m with
  | nil => simp [Memory.erase]
  | cons c m ih => grind [Memory.erase, Memory.read]

theorem Memory.read_insert (m : Memory) (i j : Nat) (v : Byte) (h : ∀ c ∈ m, c.1 ≠ i) :
    (m.insert i v).read j = if j = i then v else m.read j := by
  induction m with
  | nil => grind [Memory.insert, Memory.read]
  | cons c m ih => grind [Memory.insert, Memory.read]

theorem Memory.not_mem_erase (m : Memory) (i : Nat) : ∀ c ∈ m.erase i, c.1 ≠ i := by
  induction m with
  | nil => simp [Memory.erase]
  | cons c m ih => grind [Memory.erase]

/-- What every index reads as after a write. -/
theorem Memory.read_write (m : Memory) (i j : Nat) (v : Byte) :
    (m.write i v).read j = if j = i then v else m.read j := by
  unfold Memory.write
  split
  · next h => rw [Memory.read_erase, h]
  · rw [Memory.read_insert _ _ _ _ (Memory.not_mem_erase m i), Memory.read_erase]
    split <;> rfl

@[simp] theorem Memory.read_write_same (m : Memory) (i : Nat) (v : Byte) : (m.write i v).read i = v := by
  simp [Memory.read_write]

theorem Memory.read_write_other (m : Memory) {i j : Nat} (v : Byte) (h : j ≠ i) : (m.write i v).read j = m.read j := by
  simp [Memory.read_write, h]

/-! ### The canonical form -/

@[simp] theorem Memory.wf_nil : Memory.wf [] = true := rfl

@[simp] theorem Memory.below_nil (n : Nat) : Memory.below n [] = true := rfl

theorem Memory.wfFrom_mono {m : Memory} {lo hi : Nat} (hle : lo ≤ hi) (h : m.wfFrom hi = true) : m.wfFrom lo = true := by
  cases m with
  | nil => rfl
  | cons c m =>
    simp only [Memory.wfFrom, Bool.and_eq_true, decide_eq_true_eq] at h ⊢
    exact ⟨⟨by omega, h.1.2⟩, h.2⟩

theorem Memory.erase_wfFrom (m : Memory) (i : Nat) : ∀ lo, m.wfFrom lo = true → (m.erase i).wfFrom lo = true := by
  induction m with
  | nil => simp [Memory.erase]
  | cons c m ih =>
    intro lo h
    simp only [Memory.wfFrom, Bool.and_eq_true, decide_eq_true_eq] at h
    simp only [Memory.erase]
    split
    · exact ih lo (Memory.wfFrom_mono (by omega) h.2)
    · simp only [Memory.wfFrom, Bool.and_eq_true, decide_eq_true_eq]; exact ⟨h.1, ih _ h.2⟩

theorem Memory.insert_wfFrom (m : Memory) (i : Nat) (v : Byte) (hv : v ≠ Memory.unlisted) :
    ∀ lo, lo ≤ i → (∀ c ∈ m, c.1 ≠ i) → m.wfFrom lo = true → (m.insert i v).wfFrom lo = true := by
  induction m with
  | nil => intro lo hlo _ _; simp [Memory.insert, Memory.wfFrom, hlo, hv]
  | cons c m ih =>
    intro lo hlo hne h
    have hc : c.1 ≠ i := hne c (by simp)
    simp only [Memory.wfFrom, Bool.and_eq_true, decide_eq_true_eq] at h
    simp only [Memory.insert]
    split
    · simp only [Memory.wfFrom, Bool.and_eq_true, decide_eq_true_eq]
      exact ⟨⟨hlo, hv⟩, ⟨by omega, h.1.2⟩, h.2⟩
    · simp only [Memory.wfFrom, Bool.and_eq_true, decide_eq_true_eq]
      exact ⟨h.1, ih _ (by omega) (fun d hd => hne d (by simp [hd])) h.2⟩

/-- A write keeps the canonical form. -/
theorem Memory.write_wf {m : Memory} (i : Nat) (v : Byte) (h : m.wf = true) : (m.write i v).wf = true := by
  unfold Memory.write
  split
  · exact Memory.erase_wfFrom m i 0 h
  · next hv => exact Memory.insert_wfFrom _ i v hv 0 (Nat.zero_le i) (Memory.not_mem_erase m i) (Memory.erase_wfFrom m i 0 h)

theorem Memory.erase_below {m : Memory} {n : Nat} (i : Nat) (h : m.below n = true) : (m.erase i).below n = true := by
  induction m with
  | nil => rfl
  | cons c m ih => grind [Memory.erase, Memory.below]

theorem Memory.insert_below {m : Memory} {n i : Nat} (v : Byte) (hi : i < n) (h : m.below n = true) :
    (m.insert i v).below n = true := by
  induction m with
  | nil => simp [Memory.insert, Memory.below, hi]
  | cons c m ih => grind [Memory.insert, Memory.below]

/-- A write below the size stays below the size. -/
theorem Memory.write_below {m : Memory} {n i : Nat} (v : Byte) (hi : i < n) (h : m.below n = true) :
    (m.write i v).below n = true := by
  unfold Memory.write
  split
  · exact Memory.erase_below i h
  · exact Memory.insert_below v hi (Memory.erase_below i h)

theorem Memory.below_mono {m : Memory} {n k : Nat} (hle : n ≤ k) (h : m.below n = true) : m.below k = true := by
  simp only [Memory.below, List.all_eq_true, decide_eq_true_eq] at h ⊢
  exact fun c hc => Nat.lt_of_lt_of_le (h c hc) hle

/-! ### Dropping a header, placing a byte -/

theorem Memory.read_drop (n : Nat) (m : Memory) (i : Nat) : (m.drop n).read i = m.read (n + i) := by
  induction m with
  | nil => rfl
  | cons c m ih =>
    simp only [Memory.drop, Memory.read_cons]
    split
    · rw [Memory.read_cons, ih]
      by_cases h : c.1 = n + i
      · have : c.1 - n = i := by omega
        simp [h]
      · have : c.1 - n ≠ i := by omega
        simp [h, this]
    · have : c.1 ≠ n + i := by omega
      simp [this, ih]

theorem Memory.drop_wfFrom (n : Nat) (m : Memory) : ∀ lo, m.wfFrom lo = true → (m.drop n).wfFrom (lo - n) = true := by
  induction m with
  | nil => intro lo _; rfl
  | cons c m ih =>
    intro lo h
    simp only [Memory.wfFrom, Bool.and_eq_true, decide_eq_true_eq] at h
    simp only [Memory.drop]
    split
    · simp only [Memory.wfFrom, Bool.and_eq_true, decide_eq_true_eq]
      refine ⟨⟨by omega, h.1.2⟩, ?_⟩
      have := ih _ h.2
      rwa [show c.1 + 1 - n = c.1 - n + 1 by omega] at this
    · exact Memory.wfFrom_mono (by omega) (ih _ h.2)

theorem Memory.drop_below {n k : Nat} {m : Memory} (h : m.below k = true) : (m.drop n).below (k - n) = true := by
  induction m with
  | nil => rfl
  | cons c m ih =>
    simp only [Memory.below, List.all_cons, Bool.and_eq_true, decide_eq_true_eq] at h
    simp only [Memory.drop]
    split
    · simp only [Memory.below, List.all_cons, Bool.and_eq_true, decide_eq_true_eq]
      exact ⟨by omega, ih h.2⟩
    · exact ih h.2

/-- Dropping the front keeps the form. -/
theorem Image.drop_wf {r : Image} (n : Nat) (h : r.wf = true) : (r.drop n).wf = true := by
  simp only [Image.wf, Bool.and_eq_true] at h ⊢
  exact ⟨Memory.wfFrom_mono (Nat.zero_le _) (Memory.drop_wfFrom n r.cells 0 h.1), Memory.drop_below h.2⟩

theorem Image.byte_drop (r : Image) (n i : Nat) : (r.drop n).byte i = r.byte (n + i) := Memory.read_drop n r.cells i

/-- Placing a byte keeps the form. -/
theorem Image.place_wf {r : Image} (i : Nat) (v : Byte) (h : r.wf = true) : (r.place i v).wf = true := by
  simp only [Image.wf, Bool.and_eq_true] at h ⊢
  refine ⟨Memory.write_wf i v h.1, Memory.write_below v ?_ (Memory.below_mono ?_ h.2)⟩ <;> simp only [Image.place] <;> omega

end Sys2Proof.Machine
end

