-- ==== Sys2Proof/Laws/Bus.lean ====
section
/-! SUPPORT. Everything a bus access can do, said once: where an address can decode to, what a successful write changes, and what
every address reads as after it. -/

namespace Sys2Proof.Machine

/-! ### Regions -/

/-- A work-RAM index is below the size of work RAM. -/
theorem region_wram_lt {a : Addr} {i : Nat} (h : region a = .wram i) : i < Config.wramSize := by
  have ho := (offOf a).isLt
  simp only [region] at h
  split at h
  · simp only [Region.wram.injEq] at h; simp only [Config.wramSize]; omega
  · split at h
    · cases h
    · split at h
      · next hb =>
        simp only [Region.wram.injEq] at h
        simp only [Bool.or_eq_true, decide_eq_true_eq] at hb
        simp only [Config.wramSize]
        rcases hb with hb | hb <;> rw [hb] at h <;> simp at h <;> omega
      · cases h

/-- An address that decodes to the I/O window does so by its own offset, which lies in the window of a mirrored bank. -/
theorem region_io {a : Addr} {o : Word} (h : region a = .io o) :
    o = offOf a ∧ inMirror (bankOf a) = true ∧ 0x2000 ≤ o.toNat ∧ o.toNat < 0x6000 := by
  simp only [region] at h
  split at h
  · cases h
  · next h0 =>
    split at h
    · next h1 =>
      simp only [Region.io.injEq] at h
      simp only [Bool.and_eq_true, decide_eq_true_eq] at h0 h1
      subst h
      exact ⟨rfl, h1.1, by simp [h1.1] at h0; omega, h1.2⟩
    · split at h <;> cases h

theorem region_mirror_wram {b : Byte} {o : Word} (hb : inMirror b = true) (ho : o.toNat < 0x2000) :
    region (mkAddr b o) = .wram o.toNat := by
  simp [region, hb, ho]

theorem region_mirror_io {b : Byte} {o : Word} (hb : inMirror b = true) (h0 : 0x2000 ≤ o.toNat) (h1 : o.toNat < 0x6000) :
    region (mkAddr b o) = .io o := by
  have : ¬ o.toNat < 0x2000 := by omega
  simp [region, hb, this, h1]

theorem region_7e (o : Word) : region (mkAddr 0x7E o) = .wram o.toNat := by
  simp [region, inMirror]

theorem region_7f (o : Word) : region (mkAddr 0x7F o) = .wram (0x10000 + o.toNat) := by
  simp [region, inMirror]

/-- The cartridge answers outside banks 0x7E, 0x7F at offsets from 0x6000 of mirrored banks and at every offset of the others. -/
theorem region_cart {b : Byte} {o : Word} (he : b ≠ 0x7E) (hf : b ≠ 0x7F) (h : inMirror b = true → 0x6000 ≤ o.toNat) :
    region (mkAddr b o) = .cart := by
  have he' : ¬ b = 126#8 := he
  have hf' : ¬ b = 127#8 := hf
  simp only [region, bankOf_mkAddr, offOf_mkAddr]
  by_cases hb : inMirror b = true
  · have := h hb
    have h0 : ¬ o.toNat < 0x2000 := by omega
    have h1 : ¬ o.toNat < 0x6000 := by omega
    simp [h0, h1, he', hf']
  · simp [hb, he', hf']

/-- An address outside the cartridge decodes to its own offset, in work RAM up to whole banks. -/
theorem region_offset {a : Addr} (h : region a ≠ .cart) :
    (∃ k, region a = .wram k ∧ k % 0x10000 = (offOf a).toNat) ∨ region a = .io (offOf a) := by
  have := (offOf a).isLt
  simp only [region] at h ⊢
  split
  · exact .inl ⟨_, rfl, by omega⟩
  split
  · exact .inr rfl
  split
  · next hb =>
    refine .inl ⟨_, rfl, ?_⟩
    simp only [Bool.or_eq_true, decide_eq_true_eq] at hb
    rcases hb with hb | hb <;> rw [hb] <;> simp <;> omega
  · simp_all

/-- Two addresses with different offsets never decode to the same place outside the cartridge. -/
theorem region_ne_of_offset {a b : Addr} (h : region a ≠ .cart) (hne : offOf a ≠ offOf b) : region a ≠ region b := by
  intro he
  have hb := h
  rw [he] at hb
  rcases region_offset h with ⟨k, h1, h2⟩ | h1 <;> rcases region_offset hb with ⟨k', h3, h4⟩ | h3 <;> rw [h1, h3] at he
  · cases he; exact hne (BitVec.eq_of_toNat_eq (by omega))
  · cases he
  · cases he
  · exact hne (Region.io.inj he)

/-! ### Writes -/

/-- What a successful write is: a byte of work RAM, or a recognised latch and its record. -/
theorem busWrite_ok {s t : State} {a : Addr} {v : Byte} (h : busWrite s a v = .ok t) :
    s.map = .loROM ∧
    ((∃ i, region a = .wram i ∧ t = { s with wram := s.wram.write i v }) ∨
     (∃ o r, region a = .io o ∧ ioRegAt o = some r ∧
       t = { s with io := s.io.set r v, ioLog := s.ioLog ++ [(o, v)] })) := by
  have hm : s.map = .loROM := by
    cases hm : s.map with
    | hiROM => simp [busWrite, hm] at h
    | loROM => rfl
  refine ⟨hm, ?_⟩
  cases hr : region a with
  | wram i =>
    simp only [busWrite, hr] at h
    split at h
    · cases h
    · exact .inl ⟨i, rfl, (Except.ok.inj h).symm⟩
  | io o =>
    simp only [busWrite, hr, ioWrite] at h
    split at h
    · cases h
    · cases hg : ioRegAt o with
      | none => simp [hg] at h
      | some r => simp only [hg] at h; exact .inr ⟨o, r, rfl, hg, (Except.ok.inj h).symm⟩
  | cart =>
    simp only [busWrite, hr] at h
    split at h <;> cases h

/-- A successful write touches work RAM, the latches and their record, nothing else. -/
theorem busWrite_only {s t : State} {a : Addr} {v : Byte} (h : busWrite s a v = .ok t) :
    t = { s with wram := t.wram, io := t.io, ioLog := t.ioLog } := by
  obtain ⟨-, ⟨i, -, rfl⟩ | ⟨o, r, -, -, rfl⟩⟩ := busWrite_ok h <;> rfl

/-- What a failed write raises. -/
theorem busWrite_error {s : State} {a : Addr} {v : Byte} {f : Fault} (h : busWrite s a v = .error f) :
    (s.map = .hiROM ∧ f = .unsupportedAddressingScheme (.address a)) ∨
    (s.map = .loROM ∧ region a = .cart ∧ f = .unmappedAddress a) ∨
    (s.map = .loROM ∧ ∃ o, region a = .io o ∧ ioRegAt o = none ∧ f = .unsupportedIoRegister o .write) := by
  unfold busWrite at h
  cases hm : s.map with
  | hiROM => simp only [hm, Except.error.injEq] at h; exact .inl ⟨rfl, h.symm⟩
  | loROM =>
    simp only [hm] at h
    cases hr : region a with
    | wram i => simp [hr] at h
    | io o =>
      simp only [hr, ioWrite] at h
      cases hg : ioRegAt o with
      | none => simp only [hg, Except.error.injEq] at h; exact .inr (.inr ⟨rfl, o, rfl, hg, h.symm⟩)
      | some r => simp [hg] at h
    | cart => simp only [hr, Except.error.injEq] at h; exact .inr (.inl ⟨rfl, rfl, h.symm⟩)

/-- What a failed read raises, and why. -/
theorem busRead_error {s : State} {a : Addr} {f : Fault} (h : busRead s a = .error f) :
    (s.map = .hiROM ∧ region a = .cart ∧ f = .unsupportedAddressingScheme (.address a)) ∨
    (s.map = .loROM ∧ region a = .cart ∧ ((offOf a).toNat < 0x8000 ∨ s.rom.size ≤ loRomIndex a) ∧ f = .unmappedAddress a) ∨
    (∃ o, region a = .io o ∧ (∀ r, ioRegAt o = some r → r.readable = false) ∧ f = .unsupportedIoRegister o .read) := by
  unfold busRead at h
  cases hr : region a with
  | wram i => simp [hr] at h
  | io o =>
    simp only [hr, ioRead] at h
    cases hg : ioRegAt o with
    | none => simp only [hg, Except.error.injEq] at h; exact .inr (.inr ⟨o, rfl, by simp [hg], h.symm⟩)
    | some r =>
      simp only [hg] at h
      split at h
      · cases h
      · next hn => simp only [Except.error.injEq] at h; exact .inr (.inr ⟨o, rfl, by simpa [hg] using hn, h.symm⟩)
  | cart =>
    simp only [hr] at h
    cases hm : s.map with
    | hiROM => simp only [hm, Except.error.injEq] at h; exact .inl ⟨rfl, rfl, h.symm⟩
    | loROM =>
      simp only [hm] at h
      split at h
      · cases h
      · next hn => simp only [Except.error.injEq] at h; exact .inr (.inl ⟨rfl, rfl, by omega, h.symm⟩)

/-! ### A bus access sees only the bus -/

/-- A read depends on work RAM, the latches, the ROM and the strap alone. -/
theorem busRead_congr {s t : State} (hw : t.wram = s.wram) (hi : t.io = s.io) (hr : t.rom = s.rom) (hm : t.map = s.map)
    (a : Addr) : busRead t a = busRead s a := by
  unfold busRead ioRead; rw [hw, hi, hr, hm]

@[simp] theorem busRead_advance (s : State) (i : Instr) (a : Addr) : busRead (s.advance i) a = busRead s a := rfl

/-- A write commutes with an update of `PC`, `CYC` and `S`. -/
theorem busWrite_update (s : State) (q : Addr) (n : Nat) (z : Word) (a : Addr) (v : Byte) :
    busWrite { s with pc := q, cyc := n, sp := z } a v =
      (busWrite s a v).map fun t => { t with pc := q, cyc := n, sp := z } := by
  unfold busWrite ioWrite
  cases s.map with
  | hiROM => rfl
  | loROM =>
    cases region a with
    | wram i => rfl
    | io o => simp only []; cases ioRegAt o <;> rfl
    | cart => rfl

/-- A write at a state whose `PC` has moved. -/
theorem busWrite_advance (s : State) (i : Instr) (a : Addr) (v : Byte) :
    busWrite (s.advance i) a v = (busWrite s a v).map fun t => { t with pc := (s.advance i).pc } := by
  unfold busWrite ioWrite State.advance
  cases s.map with
  | hiROM => rfl
  | loROM =>
    cases region a with
    | wram i => rfl
    | io o => simp only []; cases ioRegAt o <;> rfl
    | cart => rfl

/-! ### Reads after writes -/

theorem ioRegAt_offset {o : Word} {r : IoReg} (h : ioRegAt o = some r) : r.offset = o := by
  have := List.find?_some h
  simpa using this

theorem ioRegAt_of_offset (r : IoReg) : ioRegAt r.offset = some r := by cases r <;> rfl

theorem IoRegs.get_set (io : IoRegs) (r r' : IoReg) (v : Byte) :
    (io.set r v).get r' = if r' = r then v else io.get r' := by
  cases r <;> cases r' <;> rfl

/-- An address that decodes elsewhere reads as before. -/
theorem busRead_busWrite_other {s t : State} {a b : Addr} {v : Byte} (h : busWrite s a v = .ok t) (hne : region b ≠ region a) :
    busRead t b = busRead s b := by
  obtain ⟨-, ⟨i, hr, rfl⟩ | ⟨o, r, hr, hg, rfl⟩⟩ := busWrite_ok h
  · unfold busRead
    cases hb : region b with
    | wram j =>
      have : j ≠ i := fun e => hne (by rw [hb, hr, e])
      simp [Memory.read_write_other _ _ this]
    | io o => rfl
    | cart => rfl
  · unfold busRead
    cases hb : region b with
    | wram j => rfl
    | io o' =>
      simp only [ioRead]
      cases hg' : ioRegAt o' with
      | none => rfl
      | some r' =>
        have : r' ≠ r := by
          rintro rfl
          exact hne (by rw [hb, hr, ← ioRegAt_offset hg', ← ioRegAt_offset hg])
        simp [IoRegs.get_set, this]
    | cart => rfl

/-- A byte written to work RAM reads back at every address that decodes to the same index. -/
theorem busRead_busWrite_wram {s t : State} {a b : Addr} {v : Byte} {i : Nat} (h : busWrite s a v = .ok t)
    (ha : region a = .wram i) (hb : region b = .wram i) : busRead t b = .ok v := by
  obtain ⟨-, ⟨j, hr, rfl⟩ | ⟨o, r, hr, -, -⟩⟩ := busWrite_ok h
  · rw [ha] at hr; cases hr
    simp [busRead, hb]
  · rw [ha] at hr; cases hr

/-- A write to work RAM succeeds under LoROM. -/
theorem busWrite_wram {s : State} {a : Addr} {i : Nat} (v : Byte) (hm : s.map = .loROM) (ha : region a = .wram i) :
    busWrite s a v = .ok { s with wram := s.wram.write i v } := by
  simp [busWrite, hm, ha]

/-- A successful write keeps work RAM canonical and within its size. -/
theorem busWrite_wf {s t : State} {a : Addr} {v : Byte} (h : busWrite s a v = .ok t) (hw : s.wram.wf = true)
    (hb : s.wram.below Config.wramSize = true) : t.wram.wf = true ∧ t.wram.below Config.wramSize = true := by
  obtain ⟨-, ⟨i, hr, rfl⟩ | ⟨o, r, -, -, rfl⟩⟩ := busWrite_ok h
  · exact ⟨Memory.write_wf i v hw, Memory.write_below v (region_wram_lt hr) hb⟩
  · exact ⟨hw, hb⟩

end Sys2Proof.Machine
end

