-- ==== Sys2Proof/Laws/Cycles.lean ====
section
/-! SUPPORT. What a completed step charges: the parameter where it says something, the default table elsewhere, and every cost
function is some value of the parameter. -/

namespace Sys2Proof.Machine

@[simp] theorem encode_head (wd : Widths) (i : Instr) : (encode wd i).head? = some i.opcode := rfl

/-- Where the parameter gives a cost, that is charged. -/
theorem State.cycles_of_some {s : State} {i : Instr} {taken : Bool} {n : Nat} (h : s.costs.lookup (s.cycleKey i taken) = some n) :
    s.cycles i taken = n := by simp [State.cycles, h]

/-- Where the parameter gives none, the default is charged. -/
theorem State.cycles_of_none {s : State} {i : Instr} {taken : Bool} (h : s.costs.lookup (s.cycleKey i taken) = none) :
    s.cycles i taken = defaultCycles i s.widths s.e taken s.p9f := by simp [State.cycles, h]

/-- With the default parameter, the default is charged. -/
theorem State.cycles_default {s : State} (h : s.costs = []) (i : Instr) (taken : Bool) :
    s.cycles i taken = defaultCycles i s.widths s.e taken s.p9f := State.cycles_of_none (by simp [h])

/-- A default cost is between 2 and 7. -/
theorem defaultCycles_bounds (i : Instr) (wd : Widths) (e taken : Bool) (src : P9FSource) :
    2 ≤ defaultCycles i wd e taken src ∧ defaultCycles i wd e taken src ≤ 7 := by
  obtain ⟨wa, wx⟩ := wd
  cases i <;> cases wa <;> cases wx <;> cases e <;> cases taken <;> cases src <;> simp [defaultCycles]

/-- Every argument of `CYCLES`. -/
def allCycleKeys : List CycleKey :=
  (List.range 256).flatMap fun n => [false, true].flatMap fun a => [false, true].flatMap fun x => [false, true].flatMap fun e =>
    [false, true].map fun taken => ⟨BitVec.ofNat 8 n, a, x, e, taken⟩

theorem mem_allCycleKeys (k : CycleKey) : k ∈ allCycleKeys := by
  obtain ⟨op, a, x, e, taken⟩ := k
  have : BitVec.ofNat 8 op.toNat = op := by simp
  simp only [allCycleKeys, List.mem_flatMap, List.mem_map, List.mem_range]
  exact ⟨op.toNat, op.isLt, a, by cases a <;> simp, x, by cases x <;> simp, e, by cases e <;> simp, taken, by cases taken <;> simp,
    by rw [this]⟩

/-- Looking a listed key up in the graph of a function gives the function's value. -/
theorem lookup_graph (f : CycleKey → Nat) (k : CycleKey) :
    ∀ ks : List CycleKey, k ∈ ks → (ks.map fun j => (j, f j)).lookup k = some (f k)
  | j :: ks, h => by
    by_cases hj : k = j
    · simp [hj]
    · have : (k == j) = false := by simpa using hj
      simp only [List.map_cons, List.lookup, this]
      exact lookup_graph f k ks (by simpa [hj] using h)

/-- Every cost function is some value of the parameter. -/
theorem exists_cycleTable (f : CycleKey → Nat) : ∃ costs : CycleTable, ∀ k, costs.lookup k = some (f k) :=
  ⟨_, fun k => lookup_graph f k allCycleKeys (mem_allCycleKeys k)⟩

end Sys2Proof.Machine
end

