-- ==== Sys2Proof/Laws/Decode.lean ====
section
/-! SUPPORT. The operand readers against the operand writers, in both directions, and what a decoding consumes. -/

namespace Sys2Proof

theorem extractLsb'_mk24 (bank mid lo : Byte) :
    (mk24 bank mid lo).extractLsb' 0 8 = lo ∧ (mk24 bank mid lo).extractLsb' 8 8 = mid ∧
    (mk24 bank mid lo).extractLsb' 16 8 = bank := by
  have h0 := lo.isLt; have h1 := mid.isLt; have h2 := bank.isLt
  refine ⟨?_, ?_, ?_⟩ <;> apply BitVec.eq_of_toNat_eq <;>
    simp only [mk24_eq, BitVec.extractLsb'_toNat, toNat_mkAddr, toNat_mk16, Nat.shiftRight_eq_div_pow] <;> omega

theorem mk24_extractLsb' (a : Addr) : mk24 (a.extractLsb' 16 8) (a.extractLsb' 8 8) (a.extractLsb' 0 8) = a := by
  have h0 := a.isLt
  apply BitVec.eq_of_toNat_eq
  simp only [mk24_eq, BitVec.extractLsb'_toNat, toNat_mkAddr, toNat_mk16, Nat.shiftRight_eq_div_pow]; omega

@[simp] theorem takeByte_cons (b : Byte) (rest : List Byte) : takeByte (b :: rest) = some (b, rest) := rfl

@[simp] theorem takeWord_wordBytes (v : Word) (rest : List Byte) : takeWord (wordBytes v ++ rest) = some (v, rest) := by
  simp [takeWord, wordBytes]

@[simp] theorem takeLong_longBytes (a : Addr) (rest : List Byte) : takeLong (longBytes a ++ rest) = some (a, rest) := by
  simp [takeLong, longBytes, mk24_extractLsb']

/-- An immediate that fits its width is read back from its bytes. -/
theorem takeImm_immBytes {w16 : Bool} {v : Word} (rest : List Byte) (h : immFits w16 v = true) :
    takeImm w16 (immBytes w16 v ++ rest) = some (v, rest) := by
  cases w16 with
  | true => exact takeWord_wordBytes v rest
  | false =>
    simp only [immFits, Bool.false_or, decide_eq_true_eq] at h
    simp only [takeImm, immBytes, Bool.false_eq_true, if_false, List.cons_append, List.nil_append, takeByte_cons, Option.map_some,
      Option.some.injEq, Prod.mk.injEq, and_true]
    apply BitVec.eq_of_toNat_eq
    rw [toNat_zext16, toNat_loByte]; omega

theorem takeByte_eq_some {bs : List Byte} {b : Byte} {rest : List Byte} (h : takeByte bs = some (b, rest)) : bs = b :: rest := by
  cases bs with
  | nil => simp [takeByte] at h
  | cons c cs => simp [takeByte] at h; simp [h]

theorem takeWord_eq_some {bs : List Byte} {v : Word} {rest : List Byte} (h : takeWord bs = some (v, rest)) :
    bs = wordBytes v ++ rest := by
  unfold takeWord at h
  split at h
  · simp only [Option.some.injEq, Prod.mk.injEq] at h
    obtain ⟨rfl, rfl⟩ := h
    simp [wordBytes]
  · cases h

theorem takeLong_eq_some {bs : List Byte} {a : Addr} {rest : List Byte} (h : takeLong bs = some (a, rest)) :
    bs = longBytes a ++ rest := by
  unfold takeLong at h
  split at h
  · next lo mid bank r =>
    simp only [Option.some.injEq, Prod.mk.injEq] at h
    obtain ⟨rfl, rfl⟩ := h
    have := extractLsb'_mk24 bank mid lo
    simp [longBytes, this]
  · cases h

/-- Whatever an immediate is read from are its bytes, and it fits its width. -/
theorem takeImm_eq_some {w16 : Bool} {bs : List Byte} {v : Word} {rest : List Byte} (h : takeImm w16 bs = some (v, rest)) :
    bs = immBytes w16 v ++ rest ∧ immFits w16 v = true := by
  cases w16 with
  | true => exact ⟨takeWord_eq_some h, rfl⟩
  | false =>
    simp only [takeImm, Bool.false_eq_true, if_false, Option.map_eq_some_iff, Prod.mk.injEq] at h
    obtain ⟨p, hp, rfl, rfl⟩ := h
    refine ⟨by simpa [immBytes] using takeByte_eq_some hp, ?_⟩
    have := p.1.isLt
    simpa [immFits, toNat_zext16] using this

/-- A row's operand is as long as its format says, and what follows it plays no part. -/
theorem OpRow.read_eq_some {wd : Widths} {bs rest : List Byte} {row : OpRow} {i : Instr} (h : row.read wd bs = some (i, rest)) :
    bs.length = row.format.length wd - 1 + rest.length ∧ row.read wd (bs.take (row.format.length wd - 1)) = some (i, []) := by
  obtain ⟨a, x⟩ := wd
  cases row with
  | imp i' =>
    simp only [OpRow.read, Option.some.injEq, Prod.mk.injEq] at h
    obtain ⟨rfl, rfl⟩ := h
    simp [OpRow.read, OpRow.format, Format.length]
  | imm8 | rel8 | dpily | abs | long | longX | immM | immX =>
    cases a <;> cases x <;>
      simp only [OpRow.read, OpRow.format, Format.length, takeImm, Bool.false_eq_true, if_true, if_false, Option.map_eq_some_iff,
        Prod.mk.injEq] at h ⊢
    all_goals
      obtain ⟨q, hq, rfl, rfl⟩ := h
      first
      | (have e := takeByte_eq_some hq; subst e; simp [takeByte]; omega)
      | (have e := takeWord_eq_some hq; subst e; simp [takeWord, wordBytes]; omega)
      | (have e := takeLong_eq_some hq; subst e; simp [takeLong, longBytes, mk24_extractLsb']; omega)
      | (obtain ⟨r, hr, rfl⟩ := hq; have e := takeByte_eq_some hr; subst e; simp [takeByte]; omega)

/-- A row reads its operand from any bytes of the right number. -/
theorem OpRow.read_of_length {wd : Widths} {bs : List Byte} {row : OpRow} (h : bs.length = row.format.length wd - 1) :
    ∃ i, row.read wd bs = some (i, []) := by
  obtain ⟨a, x⟩ := wd
  cases row <;> cases a <;> cases x <;>
    simp only [OpRow.format, Format.length, Bool.false_eq_true, if_true, if_false] at h <;>
    (rcases bs with _ | ⟨b0, _ | ⟨b1, _ | ⟨b2, _ | ⟨b3, bs⟩⟩⟩⟩) <;> simp at h <;>
    simp [OpRow.read, takeByte, takeWord, takeLong, takeImm]

/-- A decoded instruction has the opcode byte it was decoded from. -/
theorem opcode_of_decode {wd : Widths} {op : Byte} {bs rest : List Byte} {i : Instr} (h : decode wd (op :: bs) = .ok (i, rest)) :
    i.opcode = op := by
  simp only [decode] at h
  split at h
  · cases h
  next row hr =>
  split at h
  · cases h
  next p hp =>
  cases h
  unfold opRow at hr
  split at hr <;> simp only [Option.some.injEq, reduceCtorEq] at hr <;> subst hr <;>
    simp only [OpRow.read, Option.map_eq_some_iff, Option.some.injEq, Prod.mk.injEq] at hp <;>
    (apply BitVec.eq_of_toNat_eq) <;> first
      | (obtain ⟨rfl, rfl⟩ := hp; simp only [Instr.opcode]; symm; assumption)
      | (obtain ⟨q, hq, rfl, rfl⟩ := hp; simp only [Instr.opcode]; symm; assumption)

end Sys2Proof
end

