-- ==== Sys2Proof/Laws/Ops.lean ====
section
/-! SUPPORT. What the shared operations can do, said once: multi-byte accesses, pushes, the frame of an instruction, and the
fetch. Each comes as an equation or as an inversion of its success and of its failure. -/

namespace Sys2Proof.Machine

/-! ### Sequences of operations that may raise -/

/-- A sequence succeeds exactly when both parts do. -/
theorem bind_eq_ok {α β : Type} {x : Except Fault α} {g : α → Except Fault β} {b : β} :
    (x >>= g) = .ok b ↔ ∃ a, x = .ok a ∧ g a = .ok b := by
  cases x <;> simp [Bind.bind, Except.bind]

/-- A sequence raises what its first failing part raises. -/
theorem bind_eq_error {α β : Type} {x : Except Fault α} {g : α → Except Fault β} {f : Fault} :
    (x >>= g) = .error f ↔ x = .error f ∨ ∃ a, x = .ok a ∧ g a = .error f := by
  cases x <;> simp [Bind.bind, Except.bind]

theorem map_eq_ok {α β : Type} {x : Except Fault α} {g : α → β} {b : β} :
    x.map g = .ok b ↔ ∃ a, x = .ok a ∧ g a = b := by
  cases x <;> simp [Except.map]

theorem map_eq_error {α β : Type} {x : Except Fault α} {g : α → β} {f : Fault} : x.map g = .error f ↔ x = .error f := by
  cases x <;> simp [Except.map]

/-! ### Multi-byte accesses -/

theorem memReadW_8 {s : State} {a : Addr} {v : Word} :
    memReadW s false a = .ok v ↔ ∃ b, busRead s a = .ok b ∧ v = zext16 b := by
  simp only [memReadW, Bool.false_eq_true, if_false, bind_eq_ok, Except.ok.injEq]
  grind

theorem memReadW_16 {s : State} {a : Addr} {v : Word} :
    memReadW s true a = .ok v ↔ ∃ lo hi, busRead s a = .ok lo ∧ busRead s (a + 1) = .ok hi ∧ v = mk16 hi lo := by
  simp only [memReadW, if_true, bind_eq_ok, Except.ok.injEq]
  grind

theorem memReadW_8_error {s : State} {a : Addr} {f : Fault} : memReadW s false a = .error f ↔ busRead s a = .error f := by
  simp [memReadW, bind_eq_error]

theorem memReadW_16_error {s : State} {a : Addr} {f : Fault} :
    memReadW s true a = .error f ↔ busRead s a = .error f ∨ ∃ lo, busRead s a = .ok lo ∧ busRead s (a + 1) = .error f := by
  simp [memReadW, bind_eq_error]

theorem memWriteW_8 (s : State) (a : Addr) (v : Word) : memWriteW s false a v = busWrite s a (loByte v) := rfl

theorem memWriteW_16 {s u : State} {a : Addr} {v : Word} :
    memWriteW s true a v = .ok u ↔ ∃ t, busWrite s a (loByte v) = .ok t ∧ busWrite t (a + 1) (hiByte v) = .ok u := by
  simp [memWriteW, bind_eq_ok]

theorem memWriteW_16_error {s : State} {a : Addr} {v : Word} {f : Fault} :
    memWriteW s true a v = .error f ↔
      busWrite s a (loByte v) = .error f ∨ ∃ t, busWrite s a (loByte v) = .ok t ∧ busWrite t (a + 1) (hiByte v) = .error f := by
  simp [memWriteW, bind_eq_error]

/-- A store at a width touches work RAM, the latches and their record, nothing else. -/
theorem memWriteW_only {s t : State} {w16 : Bool} {a : Addr} {v : Word} (h : memWriteW s w16 a v = .ok t) :
    t = { s with wram := t.wram, io := t.io, ioLog := t.ioLog } := by
  cases w16 with
  | false => exact busWrite_only h
  | true =>
    obtain ⟨u, h1, h2⟩ := memWriteW_16.mp h
    rw [busWrite_only h2, busWrite_only h1]

/-- A store at a width keeps work RAM canonical and within its size. -/
theorem memWriteW_wf {s t : State} {w16 : Bool} {a : Addr} {v : Word} (h : memWriteW s w16 a v = .ok t)
    (hw : s.wram.wf = true) (hb : s.wram.below Config.wramSize = true) :
    t.wram.wf = true ∧ t.wram.below Config.wramSize = true := by
  cases w16 with
  | false => exact busWrite_wf h hw hb
  | true =>
    obtain ⟨u, h1, h2⟩ := memWriteW_16.mp h
    obtain ⟨hw1, hb1⟩ := busWrite_wf h1 hw hb
    exact busWrite_wf h2 hw1 hb1

/-- Every address that decodes to none of the stored bytes reads as before a store at a width. -/
theorem busRead_memWriteW_other {s t : State} {w16 : Bool} {a b : Addr} {v : Word} (h : memWriteW s w16 a v = .ok t)
    (h0 : region b ≠ region a) (h1 : w16 = true → region b ≠ region (a + 1)) : busRead t b = busRead s b := by
  cases w16 with
  | false => exact busRead_busWrite_other h h0
  | true =>
    obtain ⟨u, hu, ht⟩ := memWriteW_16.mp h
    rw [busRead_busWrite_other ht (h1 rfl), busRead_busWrite_other hu h0]

theorem memRead0Long_ok {s : State} {off : Word} {p : Addr} :
    memRead0Long s off = .ok p ↔ ∃ lo mid bank, busRead s (mkAddr 0 off) = .ok lo ∧ busRead s (mkAddr 0 (off + 1)) = .ok mid ∧
      busRead s (mkAddr 0 (off + 2)) = .ok bank ∧ p = mk24 bank mid lo := by
  simp only [memRead0Long, bind_eq_ok, Except.ok.injEq]
  grind

theorem memRead0Long_error {s : State} {off : Word} {f : Fault} :
    memRead0Long s off = .error f ↔ busRead s (mkAddr 0 off) = .error f ∨
      ∃ lo, busRead s (mkAddr 0 off) = .ok lo ∧ (busRead s (mkAddr 0 (off + 1)) = .error f ∨
        ∃ mid, busRead s (mkAddr 0 (off + 1)) = .ok mid ∧ busRead s (mkAddr 0 (off + 2)) = .error f) := by
  simp [memRead0Long, bind_eq_error]

@[simp] theorem memReadW_advance (s : State) (i : Instr) (w16 : Bool) (a : Addr) :
    memReadW (s.advance i) w16 a = memReadW s w16 a := rfl

@[simp] theorem memRead0Long_advance (s : State) (i : Instr) (off : Word) :
    memRead0Long (s.advance i) off = memRead0Long s off := rfl

/-- A store at a state whose `PC` has moved. -/
theorem memWriteW_advance (s : State) (i : Instr) (w16 : Bool) (a : Addr) (v : Word) :
    memWriteW (s.advance i) w16 a v = (memWriteW s w16 a v).map fun t => { t with pc := (s.advance i).pc } := by
  cases w16 with
  | false => exact busWrite_advance s i a _
  | true =>
    simp only [memWriteW, if_true, busWrite_advance]
    cases h : busWrite s a (loByte v) with
    | error f => rfl
    | ok t =>
      have hu := busWrite_update t (s.advance i).pc t.cyc t.sp (a + 1) (hiByte v)
      simp only [Except.map, Bind.bind, Except.bind]
      refine hu.trans ?_
      cases h' : busWrite t (a + 1) (hiByte v) with
      | error f => rfl
      | ok u => rw [busWrite_only h']; rfl

/-- Stepping an address by one, then by `k`. -/
theorem addr_add_succ (a : Addr) (k : Nat) : a + BitVec.ofNat 24 (k + 1) = a + 1 + BitVec.ofNat 24 k := by
  rw [BitVec.add_assoc, Nat.add_comm, BitVec.ofNat_add]; rfl

/-- The bytes read in order are exactly those that single reads give. -/
theorem readBytes_ok {s : State} {n : Nat} : ∀ {a : Addr} {bs : List Byte}, readBytes s a n = .ok bs ↔
    bs.length = n ∧ ∀ k, (h : k < bs.length) → busRead s (a + BitVec.ofNat 24 k) = .ok bs[k] := by
  induction n with
  | zero =>
    intro a bs
    simp only [readBytes, Except.ok.injEq]
    constructor
    · rintro rfl; simp
    · rintro ⟨h, -⟩; exact (List.length_eq_zero_iff.mp h).symm
  | succ n ih =>
    intro a bs
    simp only [readBytes, bind_eq_ok, Except.ok.injEq]
    constructor
    · rintro ⟨b, hb, bs', hbs, rfl⟩
      obtain ⟨hl, hk⟩ := ih.mp hbs
      refine ⟨by simp [hl], fun k h => ?_⟩
      cases k with
      | zero => simpa using hb
      | succ k =>
        have := hk k (by simpa using h)
        rw [addr_add_succ]
        exact this
    · rintro ⟨hl, hk⟩
      cases bs with
      | nil => simp at hl
      | cons b bs =>
        have hb : busRead s (a + BitVec.ofNat 24 0) = .ok b := hk 0 (by simp)
        refine ⟨b, by simpa using hb, bs, ih.mpr ⟨by simpa using hl, fun k h => ?_⟩, rfl⟩
        have := hk (k + 1) (by simpa using h)
        rw [addr_add_succ] at this
        exact this

/-- What is raised when bytes cannot all be read: the fault of the first that cannot. -/
theorem readBytes_error {s : State} {n : Nat} : ∀ {a : Addr} {f : Fault}, readBytes s a n = .error f ↔
    ∃ k, k < n ∧ (∀ j, j < k → ∃ b, busRead s (a + BitVec.ofNat 24 j) = .ok b) ∧ busRead s (a + BitVec.ofNat 24 k) = .error f := by
  induction n with
  | zero => intro a f; simp [readBytes]
  | succ n ih =>
    intro a f
    simp only [readBytes, bind_eq_error, reduceCtorEq, and_false, exists_false, or_false]
    constructor
    · rintro (h | ⟨b, hb, h⟩)
      · exact ⟨0, by omega, fun j hj => absurd hj (by omega), by simpa using h⟩
      · obtain ⟨k, hk, hj, hf⟩ := ih.mp h
        refine ⟨k + 1, by omega, fun j hlt => ?_, by rw [addr_add_succ]; exact hf⟩
        cases j with
        | zero => exact ⟨b, by simpa using hb⟩
        | succ j => rw [addr_add_succ]; exact hj j (by omega)
    · rintro ⟨k, hk, hj, hf⟩
      cases k with
      | zero => exact .inl (by simpa using hf)
      | succ k =>
        obtain ⟨b, hb⟩ := hj 0 (by omega)
        refine .inr ⟨b, by simpa using hb, ih.mpr ⟨k, by omega, fun j hlt => ?_, by rw [← addr_add_succ]; exact hf⟩⟩
        rw [← addr_add_succ]; exact hj (j + 1) (by omega)

/-! ### Pushes -/

/-- One push is one write at `S` in bank 0, then the lowered `S`. -/
theorem push8_eq (s : State) (b : Byte) :
    push8 s b = (busWrite s (mkAddr 0 s.sp) b).map fun t => { t with sp := pinSp s.e (s.sp - 1) } := by
  unfold push8
  cases h : busWrite s (mkAddr 0 s.sp) b with
  | error f => rfl
  | ok t =>
    have ht := busWrite_only h
    have he : t.e = s.e := by rw [ht]
    have hs : t.sp = s.sp := by rw [ht]
    simp [Except.map, Bind.bind, Except.bind, he, hs]

theorem push8_ok {s t : State} {b : Byte} :
    push8 s b = .ok t ↔ ∃ u, busWrite s (mkAddr 0 s.sp) b = .ok u ∧ { u with sp := pinSp s.e (s.sp - 1) } = t := by
  rw [push8_eq, map_eq_ok]

theorem push8_error {s : State} {b : Byte} {f : Fault} : push8 s b = .error f ↔ busWrite s (mkAddr 0 s.sp) b = .error f := by
  rw [push8_eq, map_eq_error]

/-- Two pushes are two writes, the high byte first, then the twice lowered `S`. -/
theorem push16_ok {s t : State} {v : Word} :
    push16 s v = .ok t ↔ ∃ u w, busWrite s (mkAddr 0 s.sp) (hiByte v) = .ok u ∧
      busWrite u (mkAddr 0 (pinSp s.e (s.sp - 1))) (loByte v) = .ok w ∧
      { w with sp := pinSp s.e (pinSp s.e (s.sp - 1) - 1) } = t := by
  simp only [push16, bind_eq_ok, push8_ok]
  constructor
  · rintro ⟨-, ⟨u, hu, rfl⟩, w, hw, rfl⟩
    have he : u.e = s.e := by rw [busWrite_only hu]
    have := busWrite_update u u.pc u.cyc (pinSp s.e (s.sp - 1)) (mkAddr 0 (pinSp s.e (s.sp - 1))) (loByte v)
    rw [this, map_eq_ok] at hw
    obtain ⟨w', hw', rfl⟩ := hw
    refine ⟨u, w', hu, hw', ?_⟩
    rw [busWrite_only hw', he]
  · rintro ⟨u, w, hu, hw, rfl⟩
    have he : u.e = s.e := by rw [busWrite_only hu]
    have := busWrite_update u u.pc u.cyc (pinSp s.e (s.sp - 1)) (mkAddr 0 (pinSp s.e (s.sp - 1))) (loByte v)
    refine ⟨_, ⟨u, hu, rfl⟩, _, this.trans (map_eq_ok.mpr ⟨w, hw, rfl⟩), ?_⟩
    rw [busWrite_only hw, he]

theorem push16_error {s : State} {v : Word} {f : Fault} :
    push16 s v = .error f ↔ busWrite s (mkAddr 0 s.sp) (hiByte v) = .error f ∨
      ∃ u, busWrite s (mkAddr 0 s.sp) (hiByte v) = .ok u ∧
        busWrite u (mkAddr 0 (pinSp s.e (s.sp - 1))) (loByte v) = .error f := by
  simp only [push16, bind_eq_error, push8_error, push8_ok]
  have key : ∀ u : State, busWrite { u with sp := pinSp s.e (s.sp - 1) } (mkAddr 0 (pinSp s.e (s.sp - 1))) (loByte v) = .error f ↔
      busWrite u (mkAddr 0 (pinSp s.e (s.sp - 1))) (loByte v) = .error f := fun u => by
    have := busWrite_update u u.pc u.cyc (pinSp s.e (s.sp - 1)) (mkAddr 0 (pinSp s.e (s.sp - 1))) (loByte v)
    rw [this, map_eq_error]
  constructor
  · rintro (h | ⟨-, ⟨u, hu, rfl⟩, h⟩)
    · exact .inl h
    · exact .inr ⟨u, hu, (key u).mp h⟩
  · rintro (h | ⟨u, hu, h⟩)
    · exact .inl h
    · exact .inr ⟨_, ⟨u, hu, rfl⟩, (key u).mpr h⟩

theorem pushW_8 (s : State) (v : Word) : pushW s false v = push8 s (loByte v) := rfl

theorem pushW_16 (s : State) (v : Word) : pushW s true v = push16 s v := rfl

/-- A push touches `S`, work RAM, the latches and their record, nothing else. -/
theorem pushW_only {s t : State} {w16 : Bool} {v : Word} (h : pushW s w16 v = .ok t) :
    t = { s with sp := t.sp, wram := t.wram, io := t.io, ioLog := t.ioLog } := by
  cases w16 with
  | false =>
    obtain ⟨u, hu, rfl⟩ := push8_ok.mp h
    rw [busWrite_only hu]
  | true =>
    obtain ⟨u, w, hu, hw, rfl⟩ := push16_ok.mp h
    rw [busWrite_only hw, busWrite_only hu]

/-- `S` after a push at a width. -/
theorem pushW_sp {s t : State} {w16 : Bool} {v : Word} (h : pushW s w16 v = .ok t) :
    t.sp = if w16 then pinSp s.e (pinSp s.e (s.sp - 1) - 1) else pinSp s.e (s.sp - 1) := by
  cases w16 with
  | false => obtain ⟨u, -, rfl⟩ := push8_ok.mp h; rfl
  | true => obtain ⟨u, w, -, -, rfl⟩ := push16_ok.mp h; rfl

/-- A push keeps work RAM canonical and within its size. -/
theorem pushW_wf {s t : State} {w16 : Bool} {v : Word} (h : pushW s w16 v = .ok t)
    (hw : s.wram.wf = true) (hb : s.wram.below Config.wramSize = true) :
    t.wram.wf = true ∧ t.wram.below Config.wramSize = true := by
  cases w16 with
  | false =>
    obtain ⟨u, hu, rfl⟩ := push8_ok.mp h
    have := busWrite_wf hu hw hb
    exact this
  | true =>
    obtain ⟨u, w, hu, hw', rfl⟩ := push16_ok.mp h
    obtain ⟨h1, h2⟩ := busWrite_wf hu hw hb
    have := busWrite_wf hw' h1 h2
    exact this

/-! ### One instruction -/

/-- An instruction completes exactly when its body succeeds past its bytes; `CYC` is charged last. -/
theorem instr_eq_next {i : Instr} {tk : Bool} {s t : State} {body : State → Except Fault State} :
    instr i tk s body = .next t ↔
      ∃ u, body (s.advance i) = .ok u ∧ { u with cyc := s.cyc + s.cycles i tk } = t := by
  unfold instr
  cases body (s.advance i) <;> simp

/-- An instruction faults exactly when its body raises, with that fault. -/
theorem instr_eq_fault {i : Instr} {tk : Bool} {s : State} {body : State → Except Fault State} {f : Fault} :
    instr i tk s body = .fault f ↔ body (s.advance i) = .error f := by
  unfold instr
  cases body (s.advance i) <;> simp

/-- No instruction is turned away. -/
theorem instr_ne_refused {i : Instr} {tk : Bool} {s : State} {body : State → Except Fault State} {r : Refusal} :
    instr i tk s body ≠ .refused r := by
  unfold instr
  cases body (s.advance i) <;> simp

/-! ### The fetch -/

/-- A fetch that succeeds has read the opcode byte of a row and exactly the operand bytes the row needs, and decoded them. -/
theorem fetchInstr_eq_ok {s : State} {i : Instr} :
    fetchInstr s = .ok i ↔ ∃ op row bs, busRead s s.pc = .ok op ∧ opRow op = some row ∧
      readBytes s (s.pc + 1) (row.format.length s.widths - 1) = .ok bs ∧ decode s.widths (op :: bs) = .ok (i, []) := by
  have hdec : ∀ {op row bs}, opRow op = some row → readBytes s (s.pc + 1) (row.format.length s.widths - 1) = .ok bs →
      ∃ j, decode s.widths (op :: bs) = .ok (j, []) := fun {op row bs} hrow hbs => by
    obtain ⟨j, hj⟩ := OpRow.read_of_length (row := row) (wd := s.widths) (readBytes_ok.mp hbs).1
    exact ⟨j, by simp only [decode, hrow, hj]⟩
  unfold fetchInstr
  constructor
  · intro h
    obtain ⟨op, hop, h⟩ := bind_eq_ok.mp h
    split at h
    · cases h
    next row hrow =>
    obtain ⟨bs, hbs, h⟩ := bind_eq_ok.mp h
    obtain ⟨j, hj⟩ := hdec hrow hbs
    simp only [hj, Except.ok.injEq] at h
    subst h
    exact ⟨op, row, bs, hop, hrow, hbs, hj⟩
  · rintro ⟨op, row, bs, hop, hrow, hbs, hd⟩
    simp only [bind, Except.bind, hop, hrow, hbs, hd]

/-- A fetch that fails met a byte that cannot be read, or an unassigned opcode byte. -/
theorem fetchInstr_error {s : State} {f : Fault} (h : fetchInstr s = .error f) :
    (∃ a, busRead s a = .error f) ∨ ∃ op, busRead s s.pc = .ok op ∧ opRow op = none ∧ f = .undefinedOpcode op s.pc := by
  unfold fetchInstr at h
  rcases bind_eq_error.mp h with h | ⟨op, hop, h⟩
  · exact .inl ⟨_, h⟩
  split at h
  next hrow => cases h; exact .inr ⟨op, hop, hrow, rfl⟩
  next row hrow =>
  rcases bind_eq_error.mp h with h | ⟨bs, hbs, h⟩
  · obtain ⟨k, _, _, h⟩ := readBytes_error.mp h; exact .inl ⟨_, h⟩
  · obtain ⟨j, hj⟩ := OpRow.read_of_length (row := row) (wd := s.widths) (readBytes_ok.mp hbs).1
    have hd : decode s.widths (op :: bs) = .ok (j, []) := by simp only [decode, hrow, hj]
    simp only [hd] at h
    cases h

/-! ### The step -/

/-- A latched machine repeats its fault. -/
theorem step_latched {s : State} {l : FaultLatch} (h : s.fault = some l) : step s = .fault l.cause := by
  simp [step, h]

/-- A step that completes fetched an instruction and ran it, on a machine with no fault latched. -/
theorem step_eq_next {s t : State} : step s = .next t ↔ s.fault = none ∧ ∃ i, fetchInstr s = .ok i ∧ exec i s = .next t := by
  unfold step
  cases s.fault with
  | some l => simp
  | none => cases fetchInstr s <;> simp

end Sys2Proof.Machine
end

