-- ==== Sys2Proof/Laws/PerInstr.lean ====
section
/-! SUPPORT. Statements about every instruction as syntax, one lemma per constructor. -/

namespace Sys2Proof.Laws.EncodedLength

/-- An instruction encodes to as many bytes as 30_encoding.md R96 says it has, its opcode byte first, at every width. -/
def Statement (i : Instr) : Prop := ∀ wd : Widths, (encode wd i).length = i.length wd ∧ ∃ op, (encode wd i).head? = some op

theorem php : Statement .php := fun _ => ⟨rfl, _, rfl⟩

theorem phd : Statement .phd := fun _ => ⟨rfl, _, rfl⟩

theorem bpl (rel : Byte) : Statement (.bpl rel) := fun _ => ⟨rfl, _, rfl⟩

theorem clc : Statement .clc := fun _ => ⟨rfl, _, rfl⟩

theorem tcs : Statement .tcs := fun _ => ⟨rfl, _, rfl⟩

theorem jsr (addr : Word) : Statement (.jsr addr) := fun _ => ⟨rfl, _, rfl⟩

theorem sec : Statement .sec := fun _ => ⟨rfl, _, rfl⟩

theorem pha : Statement .pha := fun _ => ⟨rfl, _, rfl⟩

theorem phk : Statement .phk := fun _ => ⟨rfl, _, rfl⟩

theorem cli : Statement .cli := fun _ => ⟨rfl, _, rfl⟩

theorem phy : Statement .phy := fun _ => ⟨rfl, _, rfl⟩

theorem tcd : Statement .tcd := fun _ => ⟨rfl, _, rfl⟩

theorem sei : Statement .sei := fun _ => ⟨rfl, _, rfl⟩

theorem bra (rel : Byte) : Statement (.bra rel) := fun _ => ⟨rfl, _, rfl⟩

theorem dey : Statement .dey := fun _ => ⟨rfl, _, rfl⟩

theorem phb : Statement .phb := fun _ => ⟨rfl, _, rfl⟩

theorem staAbs (addr : Word) : Statement (.staAbs addr) := fun _ => ⟨rfl, _, rfl⟩

theorem staLong (addr : Addr) : Statement (.staLong addr) := fun _ => ⟨rfl, _, rfl⟩

theorem tya : Statement .tya := fun _ => ⟨rfl, _, rfl⟩

theorem stzAbs (addr : Word) : Statement (.stzAbs addr) := fun _ => ⟨rfl, _, rfl⟩

theorem stxLongX (base : Addr) : Statement (.stxLongX base) := fun _ => ⟨rfl, _, rfl⟩

theorem ldyImm (imm : Word) : Statement (.ldyImm imm) := fun wd =>
  ⟨by cases h : wd.idx16 <;> simp [encode, Instr.operandBytes, immBytes, wordBytes, Instr.length, Instr.format, Format.length, h], _, rfl⟩

theorem ldxImm (imm : Word) : Statement (.ldxImm imm) := fun wd =>
  ⟨by cases h : wd.idx16 <;> simp [encode, Instr.operandBytes, immBytes, wordBytes, Instr.length, Instr.format, Format.length, h], _, rfl⟩

theorem tay : Statement .tay := fun _ => ⟨rfl, _, rfl⟩

theorem ldaImm (imm : Word) : Statement (.ldaImm imm) := fun wd =>
  ⟨by cases h : wd.acc16 <;> simp [encode, Instr.operandBytes, immBytes, wordBytes, Instr.length, Instr.format, Format.length, h], _, rfl⟩

theorem tax : Statement .tax := fun _ => ⟨rfl, _, rfl⟩

theorem ldaDpily (dp : Byte) : Statement (.ldaDpily dp) := fun _ => ⟨rfl, _, rfl⟩

theorem clv : Statement .clv := fun _ => ⟨rfl, _, rfl⟩

theorem rep (mask : Byte) : Statement (.rep mask) := fun _ => ⟨rfl, _, rfl⟩

theorem iny : Statement .iny := fun _ => ⟨rfl, _, rfl⟩

theorem dex : Statement .dex := fun _ => ⟨rfl, _, rfl⟩

theorem cmpAbs (addr : Word) : Statement (.cmpAbs addr) := fun _ => ⟨rfl, _, rfl⟩

theorem bne (rel : Byte) : Statement (.bne rel) := fun _ => ⟨rfl, _, rfl⟩

theorem cld : Statement .cld := fun _ => ⟨rfl, _, rfl⟩

theorem phx : Statement .phx := fun _ => ⟨rfl, _, rfl⟩

theorem sep (mask : Byte) : Statement (.sep mask) := fun _ => ⟨rfl, _, rfl⟩

theorem inx : Statement .inx := fun _ => ⟨rfl, _, rfl⟩

theorem sbcImm (imm : Word) : Statement (.sbcImm imm) := fun wd =>
  ⟨by cases h : wd.acc16 <;> simp [encode, Instr.operandBytes, immBytes, wordBytes, Instr.length, Instr.format, Format.length, h], _, rfl⟩

theorem sed : Statement .sed := fun _ => ⟨rfl, _, rfl⟩

theorem xce : Statement .xce := fun _ => ⟨rfl, _, rfl⟩

end Sys2Proof.Laws.EncodedLength
end

