-- ==== Sys2Proof/Tests/Slice0.lean ====
section
/-! SUPPORT. Tests of the model against values from outside it: the encodings of 30_encoding.md R90, R93, the worked examples and the
hand-derived vectors of 95_test_vectors.md; and for each obligation with hypotheses a named witness that meets them. -/

namespace Sys2Proof.Tests
open Sys2Proof.Machine Sys2Proof.Claims

/-! ### Helpers -/

/-- A 32 KB image with code at its start, zero elsewhere. -/
def codeImage (code : List Byte) : Image :=
  { size := 0x8000, cells := (code.zipIdx.filter fun c => c.1 != 0).map fun c => (c.2, c.1) }

/-- The state `RS` of 95_test_vectors.md section 0 with code at 00:8000. -/
def at8000 (code : List Byte) : State := { State.reset with pc := 0x008000, rom := codeImage code }

/-- What a projection gives after one step that completes. -/
def after {α : Type} (s : State) (f : State → α) : Option α :=
  match step s with
  | .next t => some (f t)
  | _ => none

/-- The fault of one step. -/
def faultOf (s : State) : Option Fault :=
  match step s with
  | .fault f => some f
  | _ => none

/-- Does `exec` complete? -/
def completes (i : Instr) (s : State) : Bool :=
  match exec i s with
  | .next _ => true
  | _ => false

/-- The result of a read. -/
def readAt (s : State) (a : Addr) : Option Byte := (busRead s a).toOption

theorem ok_of_readAt {s : State} {a : Addr} {b : Byte} (h : readAt s a = some b) : busRead s a = .ok b := by
  unfold readAt at h
  cases hr : busRead s a with
  | error f => rw [hr] at h; cases h
  | ok c => rw [hr] at h; exact congrArg _ (Option.some.inj h)

/-- Does a write succeed? -/
def writable (s : State) (a : Addr) : Bool := (busWrite s a 0x5A).toOption.isSome

/-- The state of a reset. -/
def resetState (raw : Image) : Option (MapMode × Addr) :=
  match resetMachine Config.resetRegs .x [] raw with
  | .next s => some (s.map, s.pc)
  | _ => none

/-- The fault of a reset. -/
def resetFault (raw : Image) : Option Fault :=
  match resetMachine Config.resetRegs .x [] raw with
  | .fault f => some f
  | _ => none

/-! ### Well-formedness -/

/-- A 16-bit immediate is no immediate of an 8-bit accumulator (30_encoding.md R92). -/
theorem test_wide_accumulator_immediate_refused :
    (Instr.ldaImm 0x1234).wellFormed ⟨false, true⟩ = false ∧ (Instr.sbcImm 0x0100).wellFormed ⟨false, true⟩ = false := by decide

/-- A 16-bit immediate is no immediate of 8-bit index registers (R92). -/
theorem test_wide_index_immediate_refused :
    (Instr.ldxImm 0x8000).wellFormed ⟨true, false⟩ = false ∧ (Instr.ldyImm 0x0100).wellFormed ⟨true, false⟩ = false := by decide

/-! ### Decoding: every constructor by bytes written out from 30_encoding.md R90, R93 -/

/-- What bytes decode to, with nothing left over. -/
def reads (wd : Widths) (bs : List Byte) (i : Instr) : Prop := decode wd bs = .ok (i, [])

theorem test_decode_status_flag :
    reads ⟨false, false⟩ [0x18] .clc ∧ reads ⟨false, false⟩ [0x58] .cli ∧ reads ⟨false, false⟩ [0xB8] .clv ∧
    reads ⟨false, false⟩ [0xD8] .cld ∧ reads ⟨false, false⟩ [0x38] .sec ∧ reads ⟨false, false⟩ [0x78] .sei ∧
    reads ⟨false, false⟩ [0xF8] .sed := ⟨rfl, rfl, rfl, rfl, rfl, rfl, rfl⟩

theorem test_decode_stack_push :
    reads ⟨false, false⟩ [0x08] .php ∧ reads ⟨false, false⟩ [0x48] .pha ∧ reads ⟨false, false⟩ [0x8B] .phb ∧
    reads ⟨false, false⟩ [0x0B] .phd ∧ reads ⟨false, false⟩ [0x4B] .phk ∧ reads ⟨false, false⟩ [0xDA] .phx ∧
    reads ⟨false, false⟩ [0x5A] .phy := ⟨rfl, rfl, rfl, rfl, rfl, rfl, rfl⟩

theorem test_decode_branch_call :
    reads ⟨true, true⟩ [0x10, 0x05] (.bpl 0x05) ∧ reads ⟨true, true⟩ [0xD0, 0xFC] (.bne 0xFC) ∧
    reads ⟨true, true⟩ [0x80, 0xFE] (.bra 0xFE) ∧ reads ⟨true, true⟩ [0x20, 0x34, 0x92] (.jsr 0x9234) := ⟨rfl, rfl, rfl, rfl⟩

theorem test_decode_transfer :
    reads ⟨false, false⟩ [0xAA] .tax ∧ reads ⟨false, false⟩ [0xA8] .tay ∧ reads ⟨false, false⟩ [0x5B] .tcd ∧
    reads ⟨false, false⟩ [0x1B] .tcs ∧ reads ⟨false, false⟩ [0x98] .tya := ⟨rfl, rfl, rfl, rfl, rfl⟩

theorem test_decode_incdec :
    reads ⟨false, false⟩ [0xE8] .inx ∧ reads ⟨false, false⟩ [0xC8] .iny ∧ reads ⟨false, false⟩ [0xCA] .dex ∧
    reads ⟨false, false⟩ [0x88] .dey := ⟨rfl, rfl, rfl, rfl⟩

theorem test_decode_compare_store :
    reads ⟨false, false⟩ [0xCD, 0x40, 0x21] (.cmpAbs 0x2140) ∧ reads ⟨false, false⟩ [0x8D, 0x0B, 0x42] (.staAbs 0x420B) ∧
    reads ⟨false, false⟩ [0x8F, 0x10, 0x34, 0x7E] (.staLong 0x7E3410) ∧ reads ⟨false, false⟩ [0x9C, 0x12, 0x00] (.stzAbs 0x0012) ∧
    reads ⟨false, false⟩ [0x9F, 0x01, 0x02, 0x7E] (.stxLongX 0x7E0201) := ⟨rfl, rfl, rfl, rfl, rfl⟩

theorem test_decode_load_sbc :
    reads ⟨true, false⟩ [0xA9, 0x34, 0x12] (.ldaImm 0x1234) ∧ reads ⟨false, true⟩ [0xA9, 0xAA] (.ldaImm 0x00AA) ∧
    reads ⟨false, true⟩ [0xA2, 0x00, 0x80] (.ldxImm 0x8000) ∧ reads ⟨true, false⟩ [0xA2, 0x03] (.ldxImm 0x0003) ∧
    reads ⟨false, true⟩ [0xA0, 0x04, 0x00] (.ldyImm 0x0004) ∧ reads ⟨true, false⟩ [0xA0, 0x80] (.ldyImm 0x0080) ∧
    reads ⟨true, true⟩ [0xB7, 0x10] (.ldaDpily 0x10) ∧ reads ⟨true, false⟩ [0xE9, 0x34, 0x02] (.sbcImm 0x0234) ∧
    reads ⟨false, true⟩ [0xE9, 0x01] (.sbcImm 0x0001) := ⟨rfl, rfl, rfl, rfl, rfl, rfl, rfl, rfl, rfl⟩

theorem test_decode_mode :
    reads ⟨true, true⟩ [0xC2, 0x30] (.rep 0x30) ∧ reads ⟨true, true⟩ [0xE2, 0x20] (.sep 0x20) ∧ reads ⟨true, true⟩ [0xFB] .xce :=
  ⟨rfl, rfl, rfl⟩

/-- 30_encoding.md R94 and 95_test_vectors.md section 2.12: 0xFF and 0xEA are not assigned. -/
theorem test_decode_unassigned :
    decode ⟨true, true⟩ [0xFF] = .error (.undefinedOpcode 0xFF) ∧ decode ⟨true, true⟩ [0xEA] = .error (.undefinedOpcode 0xEA) :=
  ⟨rfl, rfl⟩

/-- The bytes of an operand that has none are missing. -/
theorem test_decode_too_short :
    decode ⟨true, true⟩ [] = .error .noBytes ∧ decode ⟨true, true⟩ [0x8F, 0x00, 0x00] = .error (.missingOperand 0x8F) := ⟨rfl, rfl⟩

/-- An opcode-table word: the low byte first, then the operand bytes. -/
theorem test_table_words :
    decodeTableWord 8 0x18 = some .clc ∧ decodeTableWord 24 0x92_34_20 = some (.jsr 0x9234) ∧
    decodeTableWord 32 0x7E_00_10_8F = some (.staLong 0x7E0010) ∧ decodeTableWord 8 0xFF = none := by decide

/-- The step after a word is placed runs that instruction, at reset and where `PC` points outside work RAM. -/
theorem test_withFetchWord :
    after (State.reset.withFetchWord 8 0x38) (fun t => (t.p, t.pc)) = some (0x35, 0x000001) ∧
    after ((at8000 []).withFetchWord 24 0x10_00_8D) (fun t => t.pc) = some 0x008003 ∧
    after (State.withFetchWord { at8000 [] with pc := 0x006000 } 8 0x18) (fun t => t.pc) = some 0x000001 := by decide

/-! ### One step of each instruction -/

/-- 95_test_vectors.md section 2.1 row 1. -/
theorem test_clc :
    after { at8000 [0x18] with p := 0xFF } (fun t => (t.p, t.pc, t.cyc)) = some (0xFE, 0x008001, 2) := by decide

/-- 95_test_vectors.md section 2.1 row 2. -/
theorem test_sec :
    after (at8000 [0x38]) (fun t => (t.p, t.pc, t.cyc)) = some (0x35, 0x008001, 2) := by decide

/-- 95_test_vectors.md section 2.1 row 3. -/
theorem test_cli :
    after (at8000 [0x58]) (fun t => (t.p, t.cyc)) = some (0x30, 2) := by decide

/-- 95_test_vectors.md section 2.1 row 4. -/
theorem test_sei :
    after { at8000 [0x78] with p := 0x30 } (fun t => (t.p, t.cyc)) = some (0x34, 2) := by decide

/-- 95_test_vectors.md section 2.1 row 5. -/
theorem test_clv :
    after { at8000 [0xB8] with p := 0x74 } (fun t => (t.p, t.cyc)) = some (0x34, 2) := by decide

/-- 95_test_vectors.md section 2.1 row 6. -/
theorem test_cld :
    after { at8000 [0xD8] with p := 0x3C } (fun t => (t.p, t.cyc)) = some (0x34, 2) := by decide

/-- 95_test_vectors.md section 2.1 row 7. -/
theorem test_sed :
    after (at8000 [0xF8]) (fun t => (t.p, t.cyc)) = some (0x3C, 2) := by decide

/-- 95_test_vectors.md section 2.2 row 1. -/
theorem test_php :
    after { at8000 [0x08] with p := 0xB5 } (fun t => (t.wram.read 0x01FF, t.sp, t.cyc)) = some (0xB5, 0x01FE, 3) := by decide

/-- 95_test_vectors.md section 2.2 row 2. -/
theorem test_pha_16 :
    after { at8000 [0x48] with e := false, p := 0x00, a := 0x1234 } (fun t => (t.wram.read 0x01FF, t.wram.read 0x01FE, t.sp, t.cyc)) = some (0x12, 0x34, 0x01FD, 4) := by decide

/-- 95_test_vectors.md section 2.2 row 4. -/
theorem test_pha_emulation_wrap :
    after { at8000 [0x48] with a := 0x0077, sp := 0x0100 } (fun t => (t.wram.read 0x0100, t.sp, t.cyc)) = some (0x77, 0x01FF, 3) := by decide

/-- 95_test_vectors.md section 2.2 row 5. -/
theorem test_phb :
    after { at8000 [0x8B] with dbr := 0x7E } (fun t => (t.wram.read 0x01FF, t.sp, t.cyc)) = some (0x7E, 0x01FE, 3) := by decide

/-- 95_test_vectors.md section 2.2 row 6. -/
theorem test_phd_emulation_wrap :
    after { at8000 [0x0B] with d := 0xBEEF, sp := 0x0100 } (fun t => (t.wram.read 0x0100, t.wram.read 0x01FF, t.sp, t.cyc)) = some (0xBE, 0xEF, 0x01FE, 4) := by decide

/-- 95_test_vectors.md section 2.2 row 7. -/
theorem test_phd_off_work_ram :
    faultOf { at8000 [0x0B] with e := false, p := 0x30, d := 0x1234, sp := 0x0000 } = some (.unmappedAddress 0x00FFFF) := by decide

/-- 95_test_vectors.md section 2.2 row 8. -/
theorem test_phk :
    after (at8000 [0x4B]) (fun t => (t.wram.read 0x01FF, t.sp, t.cyc)) = some (0x00, 0x01FE, 3) := by decide

/-- 95_test_vectors.md section 2.2 row 9. -/
theorem test_phx_16 :
    after { at8000 [0xDA] with e := false, p := 0x20, x := 0xABCD, sp := 0x1FFF } (fun t => (t.wram.read 0x1FFF, t.wram.read 0x1FFE, t.sp, t.cyc)) = some (0xAB, 0xCD, 0x1FFD, 4) := by decide

/-- 95_test_vectors.md section 2.2 row 10. -/
theorem test_phy_8 :
    after { at8000 [0x5A] with y := 0x00EE } (fun t => (t.wram.read 0x01FF, t.sp, t.cyc)) = some (0xEE, 0x01FE, 3) := by decide

/-- 95_test_vectors.md section 2.3 row 1. -/
theorem test_bpl_taken_emulation :
    after (at8000 [0x10, 0x05]) (fun t => (t.pc, t.cyc)) = some (0x008007, 4) := by decide

/-- 95_test_vectors.md section 2.3 row 4. -/
theorem test_bpl_not_taken_native :
    after { at8000 [0x10, 0x05] with e := false, p := 0xB0 } (fun t => (t.pc, t.cyc)) = some (0x008002, 2) := by decide

/-- 95_test_vectors.md section 2.3 row 5. -/
theorem test_bne_taken_backward :
    after (at8000 [0xD0, 0xFC]) (fun t => (t.pc, t.cyc)) = some (0x007FFE, 4) := by decide

/-- 95_test_vectors.md section 2.3 row 6. -/
theorem test_bne_not_taken :
    after { at8000 [0xD0, 0xFC] with p := 0x36 } (fun t => (t.pc, t.cyc)) = some (0x008002, 3) := by decide

/-- 95_test_vectors.md section 2.3 row 7. -/
theorem test_bra_to_itself :
    after (at8000 [0x80, 0xFE]) (fun t => (t.pc, t.cyc)) = some (0x008000, 4) := by decide

/-- 95_test_vectors.md section 2.3 row 9. -/
theorem test_bra_largest_backward :
    after { at8000 [0x80, 0x80] with e := false, p := 0x30 } (fun t => (t.pc, t.cyc)) = some (0x007F82, 3) := by decide

/-- 95_test_vectors.md section 2.3 row 10. -/
theorem test_jsr :
    after { at8000 [0x20, 0x34, 0x92] with e := false, p := 0x30, sp := 0x1FFF } (fun t => (t.wram.read 0x1FFF, t.wram.read 0x1FFE, t.sp, t.pc, t.cyc)) = some (0x80, 0x02, 0x1FFD, 0x009234, 6) := by decide

/-- 95_test_vectors.md section 2.3 row 11. -/
theorem test_jsr_through_dbr :
    after { at8000 [0x20, 0x00, 0x00] with dbr := 0x7E } (fun t => (t.sp, t.pc)) = some (0x01FD, 0x7E0000) := by decide

/-- 95_test_vectors.md section 2.4 row 1. -/
theorem test_tax_narrow :
    after { at8000 [0xAA] with e := false, p := 0x10, a := 0x1280 } (fun t => (t.x, t.p)) = some (0x0080, 0x90) := by decide

/-- 95_test_vectors.md section 2.4 row 2. -/
theorem test_tax_wide :
    after { at8000 [0xAA] with e := false, p := 0x20, a := 0x12FF } (fun t => (t.x, t.p)) = some (0x12FF, 0x20) := by decide

/-- 95_test_vectors.md section 2.4 row 3. -/
theorem test_tay_zero :
    after { at8000 [0xA8] with e := false, p := 0x00, a := 0x0000, y := 0x1111 } (fun t => (t.y, t.p)) = some (0x0000, 0x02) := by decide

/-- 95_test_vectors.md section 2.4 row 4. -/
theorem test_tya_keeps_high_byte :
    after { at8000 [0x98] with a := 0x5500, y := 0x0042 } (fun t => (t.a, t.p)) = some (0x5542, 0x34) := by decide

/-- 95_test_vectors.md section 2.4 row 5. -/
theorem test_tya_low_byte_zero :
    after { at8000 [0x98] with e := false, p := 0x20, a := 0x5577, y := 0x1200 } (fun t => (t.a, t.p)) = some (0x5500, 0x22) := by decide

/-- 95_test_vectors.md section 2.4 row 7. -/
theorem test_tcd_negative :
    after { at8000 [0x5B] with a := 0x8000 } (fun t => (t.d, t.p)) = some (0x8000, 0xB4) := by decide

/-- 95_test_vectors.md section 2.4 row 9. -/
theorem test_tcs_native :
    after { at8000 [0x1B] with e := false, p := 0x30, a := 0x1FFF } (fun t => (t.sp, t.p)) = some (0x1FFF, 0x30) := by decide

/-- 95_test_vectors.md section 2.4 row 10. -/
theorem test_tcs_emulation :
    after { at8000 [0x1B] with a := 0x1FF0 } (fun t => (t.sp, t.p)) = some (0x01F0, 0x34) := by decide

/-- 95_test_vectors.md section 2.5 row 1. -/
theorem test_inx_8_wrap :
    after { at8000 [0xE8] with x := 0x00FF } (fun t => (t.x, t.p)) = some (0x0000, 0x36) := by decide

/-- 95_test_vectors.md section 2.5 row 2. -/
theorem test_inx_16_carry :
    after { at8000 [0xE8] with e := false, p := 0x20, x := 0x00FF } (fun t => (t.x, t.p)) = some (0x0100, 0x20) := by decide

/-- 95_test_vectors.md section 2.5 row 4. -/
theorem test_iny_into_negative :
    after { at8000 [0xC8] with y := 0x007F } (fun t => (t.y, t.p)) = some (0x0080, 0xB4) := by decide

/-- 95_test_vectors.md section 2.5 row 5. -/
theorem test_dex_8_wrap :
    after { at8000 [0xCA] with x := 0x0000 } (fun t => (t.x, t.p)) = some (0x00FF, 0xB4) := by decide

/-- 95_test_vectors.md section 2.5 row 6. -/
theorem test_dex_16_wrap :
    after { at8000 [0xCA] with e := false, p := 0x20, x := 0x0000 } (fun t => (t.x, t.p)) = some (0xFFFF, 0xA0) := by decide

/-- 95_test_vectors.md section 2.5 row 7. -/
theorem test_dey_to_zero :
    after { at8000 [0x88] with y := 0x0001 } (fun t => (t.y, t.p)) = some (0x0000, 0x36) := by decide

/-- 95_test_vectors.md section 2.5 row 8. -/
theorem test_dey_16 :
    after { at8000 [0x88] with e := false, p := 0x20, y := 0x8000 } (fun t => (t.y, t.p)) = some (0x7FFF, 0x20) := by decide

/-- 95_test_vectors.md section 2.6 row 2. -/
theorem test_cmp_16_latch_pair :
    after { at8000 [0xCD, 0x40, 0x21] with e := false, p := 0x00, a := 0xBBAA, io := { IoRegs.zero with apuio0 := 0xAA, apuio1 := 0xBB } } (fun t => (t.a, t.p, t.pc, t.cyc)) = some (0xBBAA, 0x03, 0x008003, 5) := by decide

/-- 95_test_vectors.md section 2.6 row 4. -/
theorem test_cmp_8_less :
    after { at8000 [0xCD, 0x00, 0x10] with a := 0x0000, wram := [(0x1000, 0x01)] } (fun t => (t.p, t.cyc)) = some (0xB4, 4) := by decide

/-- 95_test_vectors.md section 2.7 row 2. -/
theorem test_sta_abs_16 :
    after { at8000 [0x8D, 0x00, 0x10] with e := false, p := 0x10, a := 0x1234 } (fun t => (t.wram.read 0x1000, t.wram.read 0x1001, t.pc, t.cyc)) = some (0x34, 0x12, 0x008003, 5) := by decide

/-- 95_test_vectors.md section 2.7 row 6. -/
theorem test_sta_abs_no_partial_commit :
    faultOf { at8000 [0x8D, 0x0C, 0x42] with e := false, p := 0x10, a := 0x0102 } = some (.unsupportedIoRegister 0x420D .write) := by decide

/-- 95_test_vectors.md section 2.7 row 11. -/
theorem test_sta_long_across_banks :
    after { at8000 [0x8F, 0xFF, 0xFF, 0x7E] with e := false, p := 0x10, a := 0xBEEF } (fun t => (t.wram.read 0x0FFFF, t.wram.read 0x10000, t.pc, t.cyc)) = some (0xEF, 0xBE, 0x008004, 6) := by decide

/-- 95_test_vectors.md section 2.7 row 14. -/
theorem test_sta_long_unmapped :
    faultOf { at8000 [0x8F, 0x00, 0x00, 0x40] with a := 0x0066 } = some (.unmappedAddress 0x400000) := by decide

/-- 95_test_vectors.md section 2.7 row 15. -/
theorem test_stz_8 :
    after { at8000 [0x9C, 0x12, 0x00] with wram := [(0x0012, 0xEE), (0x0013, 0xDD)] } (fun t => (t.wram.read 0x0012, t.wram.read 0x0013, t.cyc)) = some (0x00, 0xDD, 4) := by decide

/-- 95_test_vectors.md section 2.7 row 16. -/
theorem test_stz_16 :
    after { at8000 [0x9C, 0x12, 0x00] with e := false, p := 0x10, wram := [(0x0012, 0xEE), (0x0013, 0xDD)] } (fun t => (t.wram.read 0x0012, t.wram.read 0x0013, t.cyc)) = some (0x00, 0x00, 5) := by decide

/-- 95_test_vectors.md section 2.7 row 18. -/
theorem test_stx_long_x_source_x :
    after { at8000 [0x9F, 0x00, 0x00, 0x7E] with e := false, p := 0x20, x := 0x0102, a := 0x0099 } (fun t => (t.wram.read 0x00102, t.wram.read 0x00103, t.pc, t.cyc)) = some (0x02, 0x01, 0x008004, 6) := by decide

/-- 95_test_vectors.md section 2.7 row 18. -/
theorem test_stx_long_x_source_a :
    after { at8000 [0x9F, 0x00, 0x00, 0x7E] with e := false, p := 0x20, x := 0x0102, a := 0x0099, p9f := .a } (fun t => (t.wram.read 0x00102, t.wram.read 0x00103, t.cyc)) = some (0x99, 0x00, 5) := by decide

/-- 95_test_vectors.md section 2.8 row 1. -/
theorem test_lda_imm_8 :
    after { at8000 [0xA9, 0xAA] with a := 0x5500 } (fun t => (t.a, t.p, t.pc, t.cyc)) = some (0x55AA, 0xB4, 0x008002, 2) := by decide

/-- 95_test_vectors.md section 2.8 row 4. -/
theorem test_lda_imm_16 :
    after { at8000 [0xA9, 0x00, 0x80] with e := false, p := 0x10 } (fun t => (t.a, t.p, t.pc, t.cyc)) = some (0x8000, 0x90, 0x008003, 3) := by decide

/-- 95_test_vectors.md section 2.8 row 5. -/
theorem test_ldx_imm_8 :
    after (at8000 [0xA2, 0x03]) (fun t => (t.x, t.p, t.pc)) = some (0x0003, 0x34, 0x008002) := by decide

/-- 95_test_vectors.md section 2.8 row 6. -/
theorem test_ldx_imm_16 :
    after { at8000 [0xA2, 0x00, 0x80] with e := false, p := 0x20 } (fun t => (t.x, t.p, t.pc)) = some (0x8000, 0xA0, 0x008003) := by decide

/-- 95_test_vectors.md section 2.8 row 7. -/
theorem test_ldy_imm_16 :
    after { at8000 [0xA0, 0x04, 0x00] with e := false, p := 0x20 } (fun t => (t.y, t.p, t.pc)) = some (0x0004, 0x20, 0x008003) := by decide

/-- 95_test_vectors.md section 2.8 row 8. -/
theorem test_ldy_imm_8 :
    after (at8000 [0xA0, 0x80]) (fun t => (t.y, t.p, t.pc)) = some (0x0080, 0xB4, 0x008002) := by decide

/-- 95_test_vectors.md section 2.9 row 2. -/
theorem test_lda_dpily_wraps_in_bank_0 :
    after { at8000 [0xB7, 0x02] with d := 0xFFFF, y := 0, wram := [(0x0002, 0x10), (0x0003, 0x7E), (0x1000, 0x5A)] } (fun t => (t.a, t.p, t.pc, t.cyc)) = some (0x005A, 0x34, 0x008002, 6) := by decide

/-- 95_test_vectors.md section 2.9 row 3. -/
theorem test_lda_dpily_carries_into_bank :
    after { at8000 [0xB7, 0x00] with d := 0x0020, y := 0x0010, wram := [(0x20, 0xF8), (0x21, 0xFF), (0x22, 0x7E), (0x10008, 0x80)] } (fun t => (t.a, t.p)) = some (0x0080, 0xB4) := by decide

/-- 95_test_vectors.md section 2.10 row 6. -/
theorem test_sbc_8_overflow :
    after { at8000 [0xE9, 0xFF] with e := false, p := 0x31, a := 0x007F } (fun t => (t.a, t.p, t.pc, t.cyc)) = some (0x0080, 0xF0, 0x008002, 2) := by decide

/-- 95_test_vectors.md section 2.10 row 14. -/
theorem test_sbc_16_borrow_in :
    after { at8000 [0xE9, 0x01, 0x00] with e := false, p := 0x10, a := 0x0100 } (fun t => (t.a, t.p, t.pc, t.cyc)) = some (0x00FE, 0x11, 0x008003, 3) := by decide

/-- 95_test_vectors.md section 2.10 row 17. -/
theorem test_sbc_8_decimal :
    faultOf { at8000 [0xE9, 0x01] with e := false, p := 0x39, a := 0x0005 } = some (.unsupportedInstructionVariant 0xE9 0x008000) := by decide

/-- 95_test_vectors.md section 2.11 row 3. -/
theorem test_rep_emulation :
    after { at8000 [0xC2, 0xFF] with p := 0xFF } (fun t => (t.p, t.pc, t.cyc)) = some (0x30, 0x008002, 3) := by decide

/-- 95_test_vectors.md section 2.11 row 1. -/
theorem test_rep_native :
    after { at8000 [0xC2, 0x30] with e := false, p := 0x35 } (fun t => (t.p, t.pc, t.cyc)) = some (0x05, 0x008002, 3) := by decide

/-- 95_test_vectors.md section 2.11 row 8. -/
theorem test_sep_native :
    after { at8000 [0xE2, 0x10] with e := false, p := 0x00, a := 0x1234, x := 0xABCD, y := 0x0102 } (fun t => (t.p, t.a, t.x, t.y)) = some (0x10, 0x1234, 0x00CD, 0x0002) := by decide

/-- 95_test_vectors.md section 2.11 row 7. -/
theorem test_sep_emulation :
    after { at8000 [0xE2, 0x20] with a := 0x1234 } (fun t => (t.a, t.p, t.cyc)) = some (0x0034, 0x34, 3) := by decide

/-- 95_test_vectors.md section 2.11 row 11. -/
theorem test_xce_to_native :
    after (at8000 [0xFB]) (fun t => (t.e, t.p, t.cyc)) = some (false, 0x35, 2) := by decide

/-- 95_test_vectors.md section 2.11 row 12. -/
theorem test_xce_to_emulation :
    after { at8000 [0xFB] with e := false, p := 0x01, sp := 0x1FF0, x := 0x1234, y := 0x00FF, a := 0xAAAA } (fun t => (t.e, t.p, t.sp, t.x, t.y, t.a)) = some (true, 0x30, 0x01F0, 0x0034, 0x00FF, 0xAAAA) := by decide

/-! ### Reset and faults -/

/-- A zero image but for a map-mode byte and a reset vector at each candidate. -/
def headerImage (size : Nat) (loMode hiMode : Byte) (loVec hiVec : Word) : Image :=
  { size := size
    cells := [(0x7FD5, loMode), (0x7FFC, loByte loVec), (0x7FFD, hiByte loVec), (0xFFD5, hiMode), (0xFFFC, loByte hiVec),
      (0xFFFD, hiByte hiVec)].filter fun c => c.2 != 0 }

/-- 95_test_vectors.md section 2.14 rows 1, 4, 15, 16. -/
theorem test_reset_small_images :
    resetState (headerImage 0x8000 0x20 0 0x8000 0) = some (.loROM, 0x008000) ∧
    resetState (headerImage 0x7FFE 0x20 0 0x8000 0) = some (.loROM, 0x008000) ∧
    resetState (headerImage 0x8000 0x25 0 0x8000 0) = some (.loROM, 0x008000) ∧
    resetState (headerImage 0x8000 0x35 0 0x7FFF 0) = some (.loROM, 0x007FFF) := by decide

/-- Section 2.14 rows 7 to 12, 17, 18. -/
theorem test_reset_two_candidates :
    resetState (headerImage 0x10000 0x20 0 0x8000 0) = some (.loROM, 0x008000) ∧
    resetState (headerImage 0x10000 0x05 0x21 0 0xC000) = some (.hiROM, 0x00C000) ∧
    resetState (headerImage 0x10000 0x20 0x21 0x8000 0xC000) = some (.loROM, 0x008000) ∧
    resetState (headerImage 0x10000 0x21 0x20 0x8000 0xC000) = some (.loROM, 0x008000) ∧
    resetState (headerImage 0x10000 0x20 0x21 0 0xC000) = some (.hiROM, 0x00C000) ∧
    resetState (headerImage 0x10000 0x20 0x21 0 0x8000) = some (.loROM, 0x000000) ∧
    resetState (headerImage 0xFFFD 0x20 0 0x8000 0) = some (.loROM, 0x008000) ∧
    resetState (headerImage 0xFFFE 0x20 0 0x8000 0) = some (.loROM, 0x008000) := by decide

/-- Section 2.14 rows 3, 13, 14. -/
theorem test_reset_faults :
    resetFault { size := 0x7FFD, cells := [] } = some (.ioError 0x7FFD) ∧
    resetFault (headerImage 0x10000 0x23 0x21 0 0xC000) = some (.unsupportedAddressingScheme (.mapMode 3)) ∧
    resetFault (headerImage 0x10000 0x20 0x23 0x8000 0) = some (.unsupportedAddressingScheme (.mapMode 3)) := by decide

/-- Section 2.14 row 6: the copier header goes. -/
theorem test_reset_copier_header :
    resetState { size := 0x8200, cells := [(0x000, 0xEE), (0x1FF, 0xEE), (0x81D5, 0x20), (0x81FD, 0x90)] } = some (.loROM, 0x009000) := by
  decide

/-- Section 2.13 rows 1 to 5, 7, 12 in part. -/
theorem test_bus_reads :
    readAt { at8000 [0xFF] with wram := [(0x0123, 0xAB)] } 0xBF0123 = some 0xAB ∧
    readAt { at8000 [0xFF] with wram := [(0x0123, 0xAB)] } 0x7E0123 = some 0xAB ∧
    readAt { at8000 [0xFF] with wram := [(0x0123, 0xAB)] } 0x7F0123 = some 0x00 ∧
    readAt { at8000 [0xFF] with io := { IoRegs.zero with apuio0 := 0x5A } } 0x3F2140 = some 0x5A ∧
    readAt { at8000 [0xFF] with io := { IoRegs.zero with apuio0 := 0x5A } } 0x7E2140 = some 0x00 ∧
    readAt (at8000 [0xFF]) 0x008000 = some 0xFF := by decide

/-- Section 2.13 rows 6, 8, 9, 13, 14, 17. -/
theorem test_bus_faults :
    readAt (at8000 []) 0x402140 = none ∧ readAt (at8000 []) 0x002100 = none ∧ readAt (at8000 []) 0x005FFF = none ∧
    readAt (at8000 []) 0x018000 = none ∧ readAt (at8000 []) 0x808000 = none ∧ readAt (at8000 []) 0x007FFF = none ∧
    readAt { at8000 [] with map := .hiROM } 0x00C000 = none ∧ readAt { at8000 [] with map := .hiROM } 0x7E0000 = some 0 := by decide

/-- Section 2.12: bytes that are instructions elsewhere are not here. -/
theorem test_undefined_opcodes :
    [0xFF, 0x00, 0xEA, 0x60, 0x40, 0xDB, 0xCB, 0x42, 0x9E, 0x8E, 0xAD, 0x69, 0xF0, 0x12].all
      (fun b => faultOf (at8000 [b]) == some (.undefinedOpcode b 0x008000)) = true := by decide

/-- Section 2.15 rows 3 and 4: the operand fetch comes before the variant check. -/
theorem test_order_of_detection :
    faultOf { at8000 [] with pc := 0x001FFE, e := false, p := 0x39, wram := [(0x1FFE, 0xE9), (0x1FFF, 0x01)] } =
      some (.unsupportedInstructionVariant 0xE9 0x001FFE) ∧
    faultOf { at8000 [] with pc := 0x001FFF, e := false, p := 0x39, wram := [(0x1FFF, 0xE9)] } =
      some (.unsupportedIoRegister 0x2000 .read) ∧
    faultOf { at8000 [] with pc := 0x006000 } = some (.unmappedAddress 0x006000) := by decide

/-- Section 2.15 row 2: a latched fault stays. -/
theorem test_sticky_fault :
    faultOf (stateAfter (at8000 [0xFF]) (step (at8000 [0xFF]))) = some (.undefinedOpcode 0xFF 0x008000) ∧
    (stateAfter (at8000 [0xFF]) (step (at8000 [0xFF]))).cyc = 0 := by decide

/-! ### Witnesses: states and operands that meet the hypotheses of each obligation -/

theorem witness_DecodeOfEncodeIsIdentity :
    (Instr.ldaImm 0xFFFF).wellFormed ⟨true, false⟩ = true ∧ (Instr.ldaImm 0x00FF).wellFormed ⟨false, false⟩ = true ∧
    (Instr.ldyImm 0x00FF).wellFormed ⟨true, false⟩ = true ∧ (Instr.staLong 0xFFFFFF).wellFormed ⟨false, false⟩ = true := by decide

theorem witness_EncodeOfDecodeIsIdentity :
    decode ⟨true, false⟩ [0xA9, 0x34, 0x12, 0x18] = .ok (.ldaImm 0x1234, [0x18]) ∧ decode ⟨true, false⟩ [0xFB] = .ok (.xce, []) :=
  ⟨rfl, rfl⟩

theorem witness_LengthFollowsOpcodeAndWidths :
    decode ⟨true, false⟩ [0xE9, 0x34, 0x02] = .ok (.sbcImm 0x0234, []) ∧ decode ⟨false, false⟩ [0xA2, 0x03] = .ok (.ldxImm 3, []) ∧
    decode ⟨false, false⟩ [0xB7, 0x10] = .ok (.ldaDpily 0x10, []) ∧ decode ⟨false, false⟩ [0xCD, 0x40, 0x21] = .ok (.cmpAbs 0x2140, []) ∧
    decode ⟨false, false⟩ [0x9F, 0, 0, 0x7E] = .ok (.stxLongX 0x7E0000, []) ∧ decode ⟨false, false⟩ [0x18, 0x12] = .ok (.clc, [0x12]) :=
  ⟨rfl, rfl, rfl, rfl, rfl, rfl⟩

theorem witness_UnassignedOpcodesRaiseUndefinedOpcode :
    (at8000 [0xFF]).fault = none ∧ readAt (at8000 [0xFF]) 0x008000 = some 0xFF ∧ (0xFF : Byte) ∉ assigned ∧ (0x00 : Byte) ∉ assigned := by
  decide

/-- The bytes of `REP #$30` stand at `PC`. -/
theorem witness_StepRunsDecodedInstruction :
    (at8000 [0xC2, 0x30]).fault = none ∧ BytesAt (at8000 [0xC2, 0x30]) 0x008000 [0xC2, 0x30] ∧
    decode (at8000 [0xC2, 0x30]).widths [0xC2, 0x30] = .ok (.rep 0x30, []) := by
  refine ⟨rfl, fun k h => ?_, rfl⟩
  match k, h with
  | 0, _ => exact ok_of_readAt (b := 0xC2) (by decide)
  | 1, _ => exact ok_of_readAt (b := 0x30) (by decide)

theorem witness_FaultIsLatchedAndSticky :
    faultOf (at8000 [0xFF]) = some (.undefinedOpcode 0xFF 0x008000) ∧
    ((at8000 [0xFF]).takeFault (.undefinedOpcode 0xFF 0x008000)).fault =
      some { cause := .undefinedOpcode 0xFF 0x008000, pc := some 0x008000 } := by decide

/-- `JSR` with its opcode at 00:1FFE: the first operand byte can be read, the second cannot. And `REP` at 00:1FFF. -/
theorem witness_FirstUnreadableFetchByteFaults :
    readAt { at8000 [] with pc := 0x006000 } 0x006000 = none ∧
    readAt { at8000 [] with pc := 0x001FFE, wram := [(0x1FFE, 0x20)] } 0x001FFE = some 0x20 ∧
    readAt { at8000 [] with pc := 0x001FFE, wram := [(0x1FFE, 0x20)] } 0x001FFF = some 0x00 ∧
    readAt { at8000 [] with pc := 0x001FFE, wram := [(0x1FFE, 0x20)] } 0x002000 = none ∧
    readAt { at8000 [] with pc := 0x001FFF, wram := [(0x1FFF, 0xC2)] } 0x001FFF = some 0xC2 ∧
    (opRow 0x20).map (fun r => r.format.length ⟨false, false⟩) = some 3 ∧
    (opRow 0xC2).map (fun r => r.format.length ⟨false, false⟩) = some 2 := by decide

/-- Each fault that a step can raise is raised by some step, for each of its causes. -/
theorem witness_StepFaultsOnlyForTheirCauses :
    faultOf { at8000 [] with map := .hiROM } = some (.unsupportedAddressingScheme (.address 0x008000)) ∧
    faultOf { State.reset with map := .hiROM, wram := [(0x0000, 0x08)] } = some (.unsupportedAddressingScheme (.address 0x0001FF)) ∧
    faultOf { at8000 [] with pc := 0x006000 } = some (.unmappedAddress 0x006000) ∧
    faultOf { at8000 [] with pc := 0x018000 } = some (.unmappedAddress 0x018000) ∧
    faultOf (at8000 [0x8D, 0x00, 0x80]) = some (.unmappedAddress 0x008000) ∧
    faultOf (at8000 [0x8D, 0xFF, 0x5F]) = some (.unsupportedIoRegister 0x5FFF .write) ∧
    faultOf (at8000 [0xCD, 0x00, 0x20]) = some (.unsupportedIoRegister 0x2000 .read) ∧
    faultOf (at8000 [0xFF]) = some (.undefinedOpcode 0xFF 0x008000) ∧
    faultOf { at8000 [0xE9, 0x01] with p := 0x3C } = some (.unsupportedInstructionVariant 0xE9 0x008000) := by decide

/-- A state in emulation mode that meets every invariant and steps. It serves `EmulationInvariantKept`, `MemoryFormKept`,
`ParametersAndDbrNeverChange` and `CycleCounterAdvances`. -/
theorem witness_invariants :
    (at8000 [0x48]).EmulationInv ∧ (at8000 [0x48]).IndexInv ∧ (at8000 [0x48]).MemoryWf ∧ (at8000 [0x48]).e = true ∧ (at8000 [0x48]).costs = [] ∧
    after (at8000 [0x48]) (fun t => t.pc) = some 0x008001 := by decide

/-- A state in native mode with 8-bit index registers that meets every invariant and steps. -/
theorem witness_IndexInvariantKept :
    ({ at8000 [0xE8] with e := false, x := 0x00FF } : State).IndexInv ∧ ({ at8000 [0xE8] with e := false, x := 0x00FF } : State).EmulationInv ∧
    after { at8000 [0xE8] with e := false, x := 0x00FF } (fun t => t.x) = some 0x0000 := by decide

theorem witness_EmulationInvariantKept : resetMachine Config.resetRegs .x [] blankImage = .next State.reset := rfl

theorem witness_CanonicalMemoriesAreEqualData :
    Memory.wf [(3, 0x01), (7, 0xFF)] = true ∧ (Memory.write [(7, 0xFF)] 3 0x01) = [(3, 0x01), (7, 0xFF)] ∧
    Memory.write [(3, 0x01)] 3 0x00 = [] := by decide

theorem witness_OnlyXceWritesE : Instr.rep 0xFF ≠ .xce ∧ completes (.rep 0xFF) State.reset = true := by decide

theorem witness_FlagsChangeOnlyByTheirWriters :
    Dest.flag .v ∉ writes (.cmpAbs 0x1000) ∧ completes (.cmpAbs 0x1000) State.reset = true ∧
    Dest.flag .z ∉ writes .clc ∧ completes .clc State.reset = true := by decide

theorem witness_StateChangesOnlyByItsWriters :
    Dest.a ∉ writes .pha ∧ Dest.x ∉ writes .tay ∧ Dest.y ∉ writes .tax ∧ Dest.s ∉ writes (.staAbs 0x1000) ∧ Dest.d ∉ writes .tcs ∧
    Dest.memory ∉ writes (.ldaDpily 0) ∧
    [Instr.pha, .tay, .tax, .staAbs 0x1000, .tcs, .ldaDpily 0].all (fun i => completes i State.reset) = true := by decide

theorem witness_WriteOnlyLatchesHaveNoEffect :
    SameButWriteOnly State.reset { State.reset with io := { IoRegs.zero with inidisp := 0x80, hdmaen := 0xFF } } ∧
    { State.reset with io := { IoRegs.zero with inidisp := 0x80, hdmaen := 0xFF } } ≠ State.reset := by
  unfold SameButWriteOnly; decide

/-- A cost that `CYCLES` gives is charged, and where it gives none the default is (70_reset_and_hazards.md R210, R215). -/
theorem witness_CycleCounterGatesNothing :
    after { at8000 [0x18] with costs := [(⟨0x18, false, false, true, false⟩, 9)] } (fun t => (t.cyc, t.pc)) = some (9, 0x008001) ∧
    after { at8000 [0x18] with costs := [(⟨0x38, false, false, true, false⟩, 9)] } (fun t => (t.cyc, t.pc)) = some (2, 0x008001) := by
  decide

/-- One instruction for each opcode byte that the table of costs names, in its order. -/
theorem witness_CyclesTable :
    ([Instr.clc, .cli, .clv, .cld, .sec, .sei, .sed, .tax, .tay, .tcd, .tcs, .tya, .inx, .iny, .dex, .dey, .xce, .rep 0, .sep 0, .php,
      .phb, .phk, .phd, .pha, .phx, .phy, .bpl 0, .bne 0, .bra 0, .jsr 0].map fun i => (encode ⟨false, false⟩ i).head?) =
      ([0x18, 0x58, 0xB8, 0xD8, 0x38, 0x78, 0xF8, 0xAA, 0xA8, 0x5B, 0x1B, 0x98, 0xE8, 0xC8, 0xCA, 0x88, 0xFB, 0xC2, 0xE2, 0x08,
        0x8B, 0x4B, 0x0B, 0x48, 0xDA, 0x5A, 0x10, 0xD0, 0x80, 0x20].map some) ∧
    ([Instr.ldaImm 0, .sbcImm 0, .ldxImm 0, .ldyImm 0, .cmpAbs 0, .staAbs 0, .stzAbs 0, .staLong 0, .stxLongX 0, .ldaDpily 0].map
      fun i => (encode ⟨true, true⟩ i).head?) =
      ([0xA9, 0xE9, 0xA2, 0xA0, 0xCD, 0x8D, 0x9C, 0x8F, 0x9F, 0xB7].map some) := by decide

theorem witness_WorkRamRoundTrip :
    State.reset.map = .loROM ∧ [0x00, 0x3F, 0x80, 0xBF].all (fun b => inMirror b) = true ∧ (0x1FFF : Word).toNat < 0x2000 ∧
    writable State.reset 0x3F1FFF = true ∧ writable State.reset 0x7EFFFF = true ∧ writable State.reset 0x7F0000 = true ∧
    readAt { State.reset with map := .hiROM, wram := [(0x00FF, 0x11), (0x10001, 0x5A)] } 0x8000FF = some 0x11 ∧
    readAt { State.reset with wram := [(0x00FF, 0x11), (0x10001, 0x5A)] } 0x7F0001 = some 0x5A := by decide

/-- The last byte of the image, and an image that bank 0x80 reaches. -/
theorem witness_LoRomReadFormula :
    State.reset.map = .loROM ∧ (0xFFFF : Word).toNat - 0x8000 + (0x00 : Byte).toNat * 0x8000 < State.reset.rom.size ∧
    0x400000 + ((0x8000 : Word).toNat - 0x8000) < ({ State.reset with rom := { size := 0x400001, cells := [(0x400000, 0x5A)] } } : State).rom.size ∧
    readAt { State.reset with rom := { size := 0x400001, cells := [(0x400000, 0x5A)] } } 0x808000 = some 0x5A := by decide

theorem witness_UnmappedAccessesFault :
    State.reset.map = .loROM ∧ inMirror 0x40 = false ∧ inMirror 0xC0 = false ∧ inMirror 0x3F = true ∧ 0x6000 ≤ (0x6000 : Word).toNat ∧
    (0x7FFF : Word).toNat < 0x8000 ∧ (0x40 : Byte) ≠ 0x7E ∧ (0x3F : Byte) ≠ 0x7F ∧
    State.reset.rom.size ≤ (0x8000 : Word).toNat - 0x8000 + (0x01 : Byte).toNat * 0x8000 := by decide

theorem witness_HiRomFaults :
    ({ State.reset with map := .hiROM } : State).map = .hiROM ∧ inMirror 0x00 = true ∧ 0x6000 ≤ (0xC000 : Word).toNat ∧
    (0x1FFF : Word).toNat < 0x2000 ∧ inMirror 0xC0 = false := by decide

/-- The window's first and last offset, and a latch's. It serves `IoReadMap` and `LatchPairReadsLittleEndian` as well. -/
theorem witness_IoWriteMap :
    State.reset.map = .loROM ∧ inMirror 0xBF = true ∧ 0x2000 ≤ (0x2000 : Word).toNat ∧ (0x5FFF : Word).toNat < 0x6000 ∧
    writable State.reset 0xBF420C = true ∧ writable State.reset 0xBF420D = false := by decide

theorem witness_BusWriteFrame :
    writable State.reset 0x001FFF = true ∧ region 0x001FFF = .wram 0x1FFF ∧ writable State.reset 0x002140 = true ∧
    region 0x002140 = .io 0x2140 ∧ writable State.reset 0x00420C = true ∧ region 0x00420C = .io IoReg.hdmaen.offset := by decide

/-- `S` on work RAM, on the last byte below the I/O window, and where a write faults. -/
theorem witness_BytePushes :
    writable State.reset (mkAddr 0 State.reset.sp) = true ∧ writable { State.reset with e := false, sp := 0x1FFF } 0x001FFF = true ∧
    writable { State.reset with e := false, sp := 0x2000 } 0x002000 = false := by decide

/-- Both bytes can be written; the first cannot; the first can and the second cannot. It serves `SubroutineCall` as
well. -/
theorem witness_RegisterPushes :
    ({ State.reset with e := false, p := 0x00 } : State).acc16 = true ∧ State.reset.acc16 = false ∧
    completes .pha { State.reset with e := false, p := 0x00 } = true ∧ completes .phd State.reset = true ∧
    completes (.jsr 0x8000) State.reset = true ∧
    writable { State.reset with e := false, p := 0x00, sp := 0x8000 } 0x008000 = false ∧
    writable { State.reset with e := false, p := 0x00, sp := 0x2100 } 0x002100 = true ∧
    completes .phd { State.reset with e := false, p := 0x00, sp := 0x2100 } = false := by decide

/-- A push into a latch that cannot be read (70_reset_and_hazards.md R222), at 8 and at 16 bits, and one into work RAM. -/
theorem witness_PushFrame :
    after { at8000 [0x08] with e := false, p := 0x35, sp := 0x2100 } (fun t => (t.io.inidisp, t.ioLog, t.sp)) =
      some (0x35, [(0x2100, 0x35)], 0x20FF) ∧
    after { at8000 [0x0B] with e := false, p := 0x30, sp := 0x420C, d := 0x1234 } (fun t => (t.io.hdmaen, t.io.mdmaen, t.ioLog)) =
      some (0x12, 0x34, [(0x420C, 0x12), (0x420B, 0x34)]) ∧
    completes .phk State.reset = true := by decide

theorem witness_EmulationPushesStayInPageOne :
    State.reset.map = .loROM ∧ State.reset.e = true ∧ hiByte State.reset.sp = 0x01 ∧ Dest.memory ∈ writes (.jsr 0) ∧
    Dest.s ∈ writes (.jsr 0) ∧ Dest.memory ∈ writes .phy ∧ Dest.s ∈ writes .phy := by decide

theorem witness_BranchToItselfIdlesForever :
    (at8000 [0x80, 0xFE]).fault = none ∧ BytesAt (at8000 [0x80, 0xFE]) 0x008000 [0x80, 0xFE] := by
  refine ⟨rfl, fun k h => ?_⟩
  match k, h with
  | 0, _ => exact ok_of_readAt (b := 0x80) (by decide)
  | 1, _ => exact ok_of_readAt (b := 0xFE) (by decide)

/-- `REP #$30` in native mode, then `LDA #$1234` at the new width (95_test_vectors.md S8). -/
theorem witness_WidthQueries :
    after { at8000 [0xC2, 0x30, 0xA9, 0x34, 0x12] with e := false, p := 0x35 } (fun t => (t.fault, t.pc, t.widths)) =
      some (none, 0x008002, ⟨true, true⟩) ∧
    (match step { at8000 [0xC2, 0x30, 0xA9, 0x34, 0x12] with e := false, p := 0x35 } with
      | .next t => after t fun u => (u.a, u.pc)
      | _ => none) = some (0x1234, 0x008005) := by decide

theorem witness_IndexIncrementDecrement :
    ({ State.reset with e := false, p := 0x20 } : State).idx16 = true ∧ State.reset.idx16 = false := by decide

/-- A readable operand at each width; none; and a second byte that cannot be read. -/
theorem witness_CompareAbsolute :
    State.reset.acc16 = false ∧ ({ State.reset with e := false, p := 0 } : State).acc16 = true ∧
    readAt State.reset 0x001FFF = some 0 ∧ readAt State.reset 0x001FFE = some 0 ∧ readAt State.reset 0x002000 = none := by decide

/-- Each store with a place it can write, at both widths and for both readings of 0x9F. -/
theorem witness_StoreResults :
    [Instr.staAbs 0x1000, .staLong 0x7FFFFE, .stzAbs 0x420B, .stxLongX 0x7E0000].all (fun i =>
      completes i State.reset && completes i { State.reset with e := false, p := 0x00 } &&
        completes i { State.reset with p9f := .a }) = true ∧
    writable State.reset 0x001FFF = true ∧ writable State.reset 0x002000 = false ∧
    completes (.staAbs 0x1FFF) { State.reset with e := false, p := 0x00 } = false := by decide

/-- A 16-bit store into two latches that cannot be read (70_reset_and_hazards.md R225), and one into work RAM. -/
theorem witness_StoreFrame :
    after { at8000 [0x8D, 0x00, 0x21] with e := false, p := 0x00, a := 0x1234 } (fun t => (t.io.inidisp, t.io.obsel, t.ioLog)) =
      some (0x34, 0x12, [(0x2100, 0x34), (0x2101, 0x12)]) ∧
    after { at8000 [0x8D, 0x00, 0x10] with e := false, p := 0x00, a := 0x1234 } (fun t => (t.wram.read 0x1000, t.wram.read 0x1001, t.ioLog)) =
      some (0x34, 0x12, []) := by decide

/-- A pointer in work RAM to work RAM; a pointer whose first, second or third byte cannot be read; data that cannot be read. -/
theorem witness_IndirectLongLoad :
    completes (.ldaDpily 0x10) State.reset = true ∧ completes (.ldaDpily 0x10) { State.reset with e := false, p := 0x00 } = true ∧
    readAt State.reset 0x002144 = none ∧ readAt State.reset 0x002143 = some 0 ∧ readAt State.reset 0x002142 = some 0 ∧
    completes (.ldaDpily 0) { State.reset with wram := [(0x01, 0x60)] } = false ∧
    completes (.ldaDpily 0) { State.reset with e := false, p := 0x00, wram := [(0x00, 0xFF), (0x01, 0x1F)] } = false := by decide

theorem witness_SubtractAtWidth16 : ({ State.reset with e := false, p := 0x09 } : State).acc16 = true := by decide

theorem witness_SubtractAtWidth8 :
    State.reset.acc16 = false ∧ State.reset.flag .d = false ∧ ({ State.reset with p := 0x3C } : State).acc16 = false ∧
    ({ State.reset with p := 0x3C } : State).flag .d = true := by decide

theorem witness_ExchangeCarryAndEmulation :
    State.reset.flag .c = false ∧ ({ State.reset with p := 0x35 } : State).flag .c = true ∧ completes .xce State.reset = true ∧
    completes .xce { State.reset with e := false, p := 0x35 } = true := by decide

/-- A LoROM and a HiROM image that reset accepts; they serve `HiRomImageCannotRun` as well. -/
theorem witness_ResetValues :
    resetState (headerImage 0x8000 0x20 0 0x8000 0) = some (.loROM, 0x008000) ∧
    resetState (headerImage 0x10000 0x05 0x21 0 0xC000) = some (.hiROM, 0x00C000) ∧ 0xC000 ≤ (offOf 0x00C000).toNat := by decide

/-- An image on each side of each bound. -/
theorem witness_HeaderLocation :
    0x7FFD % 1024 ≠ 512 ∧ 0x7FFE % 1024 ≠ 512 ∧ 0xFFFD % 1024 ≠ 512 ∧ 0xFFFE % 1024 ≠ 512 ∧
    nibbleAt (headerImage 0x7FFE 0x23 0 0 0) 0x7FD5 = 3 ∧ nibbleAt (headerImage 0xFFFD 0x20 0 0 0) 0x7FD5 ≠ 3 ∧
    nibbleAt (headerImage 0xFFFE 0x20 0x23 0 0) 0xFFD5 = 3 ∧ nibbleAt (headerImage 0xFFFE 0x20 0x21 0 0) 0xFFD5 ≠ 3 := by decide

theorem witness_CopierHeaderStripped :
    0x8200 % 1024 = 512 ∧ (0x8000 % 1024 ≠ 512) ∧ resetState (headerImage 0x8000 0x20 0 0x8000 0) = some (.loROM, 0x008000) := by
  decide

theorem witness_FailedResetNeverSteps :
    resetMachine Config.resetRegs .x [] { size := 0x7FFD, cells := [] } = .fault (.ioError 0x7FFD) := rfl

end Sys2Proof.Tests
end

section
/-! PROOFS. The statements of 10_state.md: the emulation invariant (R24), the width queries (R20) and the width-aware read (R21).
First what each operation of the model does to the emulation invariant, then `exec`, its arms grouped by the operation they end in;
then the register write; then the fault latch and the fetch, for the width queries. -/

namespace Sys2Proof.Machine
open Sys2Proof.Claims

/-! ### The emulation invariant under the operations (10_state.md R24)

The invariant does not mention `A`, `D`, `DBR`, `PC`, `CYC` or the bus, so an update of those alone keeps it by definition. -/

/-- In emulation mode the index registers are 8 bits wide, whatever `P.X` holds (R20). -/
theorem State.idx16_of_e {s : State} (he : s.e = true) : s.idx16 = false := by simp [State.idx16, he]

/-- A write at width 8 keeps the high byte (R22), and in emulation mode every index write is one. -/
theorem State.hiByte_x_setReg {s : State} (he : s.e = true) (r : Reg) (v : Word) : hiByte (s.setReg r v).x = hiByte s.x := by
  cases r with
  | a => rfl
  | x => simp [State.setReg_x, State.idx16_of_e he]
  | y => rfl

theorem State.hiByte_y_setReg {s : State} (he : s.e = true) (r : Reg) (v : Word) : hiByte (s.setReg r v).y = hiByte s.y := by
  cases r with
  | a => rfl
  | x => rfl
  | y => simp [State.setReg_y, State.idx16_of_e he]

/-- No flag but the two width flags matters to the invariant. -/
theorem State.EmulationInv.setFlag {s : State} (hs : s.EmulationInv) {f : Flag} (b : Bool) (hm : f ≠ .m) (hx : f ≠ .x) :
    (s.setFlag f b).EmulationInv := by
  intro he
  rw [State.flag_setFlag_other s b hm.symm, State.flag_setFlag_other s b hx.symm]
  exact hs he

theorem State.EmulationInv.setNZ {s : State} (hs : s.EmulationInv) (w16 : Bool) (v : Word) : (s.setNZ w16 v).EmulationInv :=
  (hs.setFlag _ (by decide) (by decide)).setFlag _ (by decide) (by decide)

theorem State.EmulationInv.setReg {s : State} (hs : s.EmulationInv) (r : Reg) (v : Word) : (s.setReg r v).EmulationInv := by
  intro he
  rw [State.setReg_e] at he
  simpa [State.flag_setReg, State.hiByte_x_setReg he, State.hiByte_y_setReg he] using hs he

/-- `S` is pinned whenever it is written (R24). -/
theorem State.EmulationInv.pinSp {s : State} (hs : s.EmulationInv) (sp : Word) :
    ({ s with sp := pinSp s.e sp } : State).EmulationInv := by
  intro (he : s.e = true)
  obtain ⟨hm, hx, -, hhx, hhy⟩ := hs he
  exact ⟨hm, hx, by simp [he], hhx, hhy⟩

theorem State.EmulationInv.of_push8 {s t : State} (hs : s.EmulationInv) {b : Byte} (h : push8 s b = .ok t) : t.EmulationInv := by
  obtain ⟨u, hu, ht⟩ := bind_eq_ok.mp h
  cases ht
  have hui : u.EmulationInv := by rw [busWrite_only hu]; exact hs
  exact hui.pinSp _

theorem State.EmulationInv.of_push16 {s t : State} (hs : s.EmulationInv) {v : Word} (h : push16 s v = .ok t) :
    t.EmulationInv := by
  obtain ⟨u, hu, ht⟩ := bind_eq_ok.mp h
  exact (hs.of_push8 hu).of_push8 ht

theorem State.EmulationInv.of_pushW {s t : State} (hs : s.EmulationInv) {w16 : Bool} {v : Word} (h : pushW s w16 v = .ok t) :
    t.EmulationInv := by
  cases w16 with
  | false => exact hs.of_push8 h
  | true => exact hs.of_push16 h

theorem State.EmulationInv.of_memWriteW {s t : State} (hs : s.EmulationInv) {w16 : Bool} {a : Addr} {v : Word}
    (h : memWriteW s w16 a v = .ok t) : t.EmulationInv := by
  rw [memWriteW_only h]; exact hs

/-- A comparison writes `N`, `Z` and `C`, no width flag (R155). -/
theorem State.EmulationInv.compareA {t : State} (ht : t.EmulationInv) (m : Word) : (compareA t m).EmulationInv :=
  ((ht.setFlag _ (by decide) (by decide)).setFlag _ (by decide) (by decide)).setFlag _ (by decide) (by decide)

/-- A subtraction writes `C`, `V`, `N`, `Z` and `A`, no width flag (R170). -/
theorem State.EmulationInv.subtractA {t : State} (ht : t.EmulationInv) (imm : Word) : (subtractA t imm).EmulationInv := by
  have hflags (c v n z : Bool) : ((((t.setFlag .c c).setFlag .v v).setFlag .n n).setFlag .z z).EmulationInv :=
    (((ht.setFlag c (by decide) (by decide)).setFlag v (by decide) (by decide)).setFlag n (by decide) (by decide)).setFlag z
      (by decide) (by decide)
  intro he
  exact hflags _ _ _ _ he

/-! ### The emulation invariant under the mode instructions (49_mode.md R175 to R177) -/

/-- REP may clear `M` and `X`, but in emulation mode it sets them again (R175). -/
theorem State.EmulationInv.rep {t : State} (ht : t.EmulationInv) (mask : Byte) :
    (if t.e then ({ t with p := t.p &&& ~~~mask } : State).force8 else { t with p := t.p &&& ~~~mask }).EmulationInv := by
  intro he
  cases hte : t.e with
  | false => simp [hte] at he
  | true =>
    obtain ⟨-, -, hsp, hhx, hhy⟩ := ht hte
    simp [State.flag_force8, hsp, hhx, hhy]

/-- A set bit of `P` stays set when more are set. -/
theorem State.flag_or_mask {s : State} {f : Flag} (h : s.flag f = true) (mask : Byte) :
    ({ s with p := s.p ||| mask } : State).flag f = true := by
  simp only [State.flag, BitVec.getLsbD_or, Bool.or_eq_true]
  exact .inl h

/-- SEP with the `X` bit in its mask clears the high bytes of the index registers (R176). -/
theorem State.EmulationInv.clearHigh {t : State} (ht : t.EmulationInv) :
    ({ t with x := clearHigh t.x, y := clearHigh t.y } : State).EmulationInv := by
  intro he
  obtain ⟨hm, hx, hsp, -, -⟩ := ht he
  exact ⟨hm, hx, hsp, hiByte_clearHigh _, hiByte_clearHigh _⟩

/-- SEP only sets flags (R176). -/
theorem State.EmulationInv.setFlags {t : State} (ht : t.EmulationInv) (mask : Byte) :
    ({ t with p := t.p ||| mask } : State).EmulationInv := by
  intro he
  obtain ⟨hm, hx, hrest⟩ := ht he
  exact ⟨State.flag_or_mask hm mask, State.flag_or_mask hx mask, hrest⟩

/-- Entering emulation mode forces all five values (R177). -/
theorem State.emulationInv_enterEmulation (t : State) : t.enterEmulation.EmulationInv := by
  intro _
  exact ⟨(State.flag_force8 t .m).trans rfl, (State.flag_force8 t .x).trans rfl, by simp, by simp, by simp⟩

/-! ### The emulation invariant under every instruction -/

/-- An instruction keeps the invariant when its body does: `PC` and `CYC` play no part in it. -/
theorem instr_keeps_emulationInv {i : Instr} {tk : Bool} {s t : State} {body : State → Except Fault State} (hs : s.EmulationInv)
    (h : instr i tk s body = .next t)
    (hbody : ∀ r u : State, r.EmulationInv → body r = .ok u → u.EmulationInv) : t.EmulationInv := by
  obtain ⟨u, hu, rfl⟩ := instr_eq_next.mp h
  have hui : u.EmulationInv := hbody (s.advance i) u hs hu
  exact hui

/-- Every instruction keeps the emulation invariant, by the operation its body ends in (R24). -/
theorem exec_keeps_emulationInv {i : Instr} {s t : State} (hs : s.EmulationInv) (h : exec i s = .next t) : t.EmulationInv := by
  cases i with
    (rw [exec] at h; refine instr_keeps_emulationInv hs h fun r u hr hu => ?_)
  | clc | cli | clv | cld | sec | sei | sed =>
    cases hu
    exact hr.setFlag _ (by decide) (by decide)
  | php | phb | phk => exact hr.of_push8 hu
  | phd => exact hr.of_push16 hu
  | pha | phx | phy => exact hr.of_pushW hu
  | bpl rel | bne rel | bra rel =>
    cases hu
    split <;> exact hr
  | jsr a =>
    obtain ⟨w, hw, hu⟩ := bind_eq_ok.mp hu
    cases hu
    have hwi : w.EmulationInv := hr.of_push16 hw
    exact hwi
  | tax | tay | tya | inx | iny | dex | dey | ldaImm _ | ldxImm _ | ldyImm _ =>
    cases hu
    exact hr.setReg _ _
  | ldaDpily dp =>
    obtain ⟨addr, -, hu⟩ := bind_eq_ok.mp hu
    obtain ⟨v, -, hu⟩ := bind_eq_ok.mp hu
    cases hu
    exact hr.setReg _ _
  | tcd =>
    cases hu
    exact hr.setNZ _ _
  | tcs =>
    cases hu
    exact hr.pinSp _
  | staAbs _ | staLong _ | stzAbs _ | stxLongX _ => exact hr.of_memWriteW hu
  | cmpAbs a =>
    obtain ⟨m, -, hu⟩ := bind_eq_ok.mp hu
    cases hu
    exact hr.compareA m
  | sbcImm imm =>
    split at hu
    · cases hu
    · cases hu
      exact hr.subtractA imm
  | rep mask =>
    cases hu
    exact hr.rep mask
  | sep mask =>
    cases hu
    have hp := hr.setFlags mask
    split
    · split
      · exact hp.clearHigh
      · exact hp
    · split
      · exact hp.clearHigh
      · exact hp
  | xce =>
    cases hu
    split
    · exact State.emulationInv_enterEmulation _
    · next he => exact fun h => absurd h he

theorem step_keeps_emulationInv {s t : State} (hs : s.EmulationInv) (h : step s = .next t) : t.EmulationInv := by
  obtain ⟨-, i, -, hi⟩ := step_eq_next.mp h
  exact exec_keeps_emulationInv hs hi

/-- A successful reset builds the initial state of the stripped image, for the map its header gives (70_reset_and_hazards.md R205). -/
theorem resetMachine_eq_next {regs : ResetRegs} {src : P9FSource} {costs : CycleTable} {raw : Image} {s : State} :
    resetMachine regs src costs raw = .next s ↔
      ∃ map, locateHeader (stripCopier raw) = .ok map ∧ initialState regs src costs (stripCopier raw) map = s := by
  unfold resetMachine
  cases locateHeader (stripCopier raw) <;> simp

theorem reset_emulationInv : State.reset.EmulationInv := by decide

/-- The invariant speaks only of registers, and `State.reset` holds the default ones (R40). -/
theorem initialState_emulationInv (src : P9FSource) (costs : CycleTable) (rom : Image) (map : MapMode) :
    (initialState Config.resetRegs src costs rom map).EmulationInv := reset_emulationInv

/-- Settles O11: the default reset registers meet the invariant, and every operation of the model keeps it. -/
theorem emulationInvariantKept : Obligations.EmulationInvariantKept := by
  refine ⟨fun src costs raw s h => ?_, fun s t => step_keeps_emulationInv⟩
  obtain ⟨map, -, rfl⟩ := resetMachine_eq_next.mp h
  exact initialState_emulationInv src costs _ map

/-! ### The register write (10_state.md R21) -/

theorem State.reg16_setReg (s : State) (r r' : Reg) (v : Word) : (s.setReg r v).reg16 r' = s.reg16 r' := by
  cases r' with
  | a => simp [State.reg16, State.acc16, State.flag_setReg]
  | x | y => simp [State.reg16, State.idx16, State.flag_setReg]

theorem State.reg_setReg_same (s : State) (r : Reg) (v : Word) : (s.setReg r v).reg r = mergeW (s.reg16 r) (s.reg r) v := by
  cases r <;> rfl

/-- What was written at a width, read at that width. -/
theorem maskW_mergeW (w16 : Bool) (old v : Word) : maskW w16 (mergeW w16 old v) = if w16 then v else zext16 (loByte v) := by
  cases w16 <;> simp [maskW_false]

/-- The top bit at a width is the sign of the word or of its low byte. -/
theorem topBit_eq_msb (w16 : Bool) (v : Word) : topBit w16 v = if w16 then v.msb else (loByte v).msb := by
  cases w16 <;> simp [topBit, loByte, BitVec.msb_eq_getLsbD_last]

/-- Settles O33: the width of the register outlives the write, which reads back masked; the flags are those of the value. -/
theorem setRegReadsBackTruncated : Obligations.SetRegReadsBackTruncated := by
  intro s r v
  refine ⟨rfl, ?_, ?_, ?_⟩
  · rw [State.regW, State.reg16_setReg, State.reg_setReg_same, maskW_mergeW]
  · rw [State.flag_setReg, ← topBit_eq_msb]; rfl
  · rw [State.flag_setReg]; rfl

/-! ### The fault latch and the fetch at the widths of the moment (10_state.md R18, R20) -/

theorem push8_fault {s t : State} {b : Byte} (h : push8 s b = .ok t) : t.fault = s.fault := by
  obtain ⟨u, hu, rfl⟩ := push8_ok.mp h
  rw [busWrite_only hu]

theorem push16_fault {s t : State} {v : Word} (h : push16 s v = .ok t) : t.fault = s.fault := by
  have hw : pushW s true v = .ok t := h
  rw [pushW_only hw]

/-- An instruction leaves `FAULT` when its body does: only `PC` and `CYC` are written around it. -/
theorem instr_keeps_fault {i : Instr} {tk : Bool} {s t : State} {body : State → Except Fault State}
    (h : instr i tk s body = .next t)
    (hbody : ∀ r u : State, body r = .ok u → u.fault = r.fault) : t.fault = s.fault := by
  obtain ⟨u, hu, rfl⟩ := instr_eq_next.mp h
  have huf : u.fault = s.fault := hbody (s.advance i) u hu
  exact huf

/-- No instruction writes `FAULT`: only the taking of a fault does (60_exceptions.md R181). -/
theorem exec_keeps_fault {i : Instr} {s t : State} (h : exec i s = .next t) : t.fault = s.fault := by
  cases i with
    (rw [exec] at h; refine instr_keeps_fault h fun r u hu => ?_)
  | clc | cli | clv | cld | sec | sei | sed | tax | tay | tya | tcd | tcs | inx | iny | dex | dey | ldaImm _ | ldxImm _
  | ldyImm _ =>
    cases hu
    rfl
  | bpl rel | bne rel | bra rel =>
    cases hu
    split <;> rfl
  | php | phb | phk => exact push8_fault hu
  | phd => exact push16_fault hu
  | pha | phx | phy =>
    rw [pushW_only hu]
  | jsr a =>
    obtain ⟨w, hw, hu⟩ := bind_eq_ok.mp hu
    cases hu
    have hwf : w.fault = r.fault := push16_fault hw
    exact hwf
  | ldaDpily dp =>
    obtain ⟨addr, -, hu⟩ := bind_eq_ok.mp hu
    obtain ⟨v, -, hu⟩ := bind_eq_ok.mp hu
    cases hu
    rfl
  | staAbs _ | staLong _ | stzAbs _ | stxLongX _ =>
    rw [memWriteW_only hu]
  | cmpAbs a =>
    obtain ⟨m, -, hu⟩ := bind_eq_ok.mp hu
    cases hu
    rfl
  | sbcImm imm =>
    split at hu
    · cases hu
    · cases hu
      rfl
  | rep mask | xce =>
    cases hu
    split <;> rfl
  | sep mask =>
    cases hu
    split <;> split <;> rfl

/-- A completed step leaves no fault latched (R18). -/
theorem step_leaves_no_fault {s t : State} (h : step s = .next t) : t.fault = none := by
  obtain ⟨hf, i, -, hi⟩ := step_eq_next.mp h
  exact (exec_keeps_fault hi).trans hf

/-- Decoding succeeds exactly when the opcode byte has a row and the row reads its operand. -/
theorem decode_cons_eq_ok {wd : Widths} {op : Byte} {bs : List Byte} {p : Instr × List Byte} :
    decode wd (op :: bs) = .ok p ↔ ∃ row, opRow op = some row ∧ row.read wd bs = some p := by
  cases hrow : opRow op with
  | none => simp [decode, hrow]
  | some row => cases hread : row.read wd bs <;> simp [decode, hrow, hread]

/-- The fetch takes exactly the bytes at `PC` that decode at the current widths (30_encoding.md R91). -/
theorem fetchInstr_of_bytesAt {s : State} {bs : List Byte} {i : Instr} (hb : BytesAt s s.pc bs)
    (hd : decode s.widths bs = .ok (i, [])) : fetchInstr s = .ok i := by
  cases bs with
  | nil => cases hd
  | cons op bs =>
    obtain ⟨row, hrow, hread⟩ := decode_cons_eq_ok.mp hd
    obtain ⟨hlen, -⟩ := OpRow.read_eq_some hread
    have hop : busRead s (s.pc + BitVec.ofNat 24 0) = .ok op := hb 0 (Nat.succ_pos _)
    rw [BitVec.add_zero] at hop
    refine fetchInstr_eq_ok.mpr ⟨op, row, bs, hop, hrow, readBytes_ok.mpr ⟨hlen, fun k hk => ?_⟩, hd⟩
    rw [← addr_add_succ]
    exact hb (k + 1) (by simpa using hk)

/-- With no fault latched, the step runs the instruction whose bytes stand at `PC` (70_reset_and_hazards.md R210). -/
theorem step_of_bytesAt {s : State} {bs : List Byte} {i : Instr} (hf : s.fault = none) (hb : BytesAt s s.pc bs)
    (hd : decode s.widths bs = .ok (i, [])) : step s = exec i s := by
  simp only [step, hf, fetchInstr_of_bytesAt hb hd]

/-- Settles O32: the queries are their definitions, and after a completed step no fault stands in the way of a fetch at the widths
they give. -/
theorem widthQueries : Obligations.WidthQueries := by
  refine ⟨fun s => ⟨?_, ?_, rfl, rfl, rfl⟩, fun s t h => ?_⟩
  · simp [State.acc16]
  · simp [State.idx16]
  · have hf := step_leaves_no_fault h
    exact ⟨hf, fun bs i hb hd => step_of_bytesAt hf hb hd⟩

end Sys2Proof.Machine
end

section
/-! PROOFS. The statement of 20_memory.md R56: the LoROM read formula, as the two ways a read answers (work RAM, the cartridge under
LoROM), and the parameters of 00_scope.md R3, ROM among them, as what no instruction writes. -/

namespace Sys2Proof.Machine

/-! ### The reads of work RAM and of the cartridge (20_memory.md R52, R56) -/

theorem busRead_wram (s : State) {a : Addr} {i : Nat} (ha : region a = .wram i) : busRead s a = .ok (s.wram.read i) := by
  simp only [busRead, ha]

/-- The index is formed from the whole bank byte. -/
theorem loRomIndex_mkAddr (b : Byte) (o : Word) : loRomIndex (mkAddr b o) = (o.toNat - 0x8000) + b.toNat * 0x8000 := by
  simp only [loRomIndex, offOf_mkAddr, bankOf_mkAddr]

theorem busRead_loRom {s : State} {a : Addr} (hm : s.map = .loROM) (ha : region a = .cart) (ho : 0x8000 ≤ (offOf a).toNat)
    (hi : loRomIndex a < s.rom.size) : busRead s a = .ok (s.rom.cells.read (loRomIndex a)) := by
  simp only [busRead, ha, hm, ho, hi, and_self, if_true, Image.byte]

theorem busRead_loRom_mkAddr {s : State} {b : Byte} {o : Word} (hm : s.map = .loROM) (ho : 0x8000 ≤ o.toNat) (he : b ≠ 0x7E)
    (hf : b ≠ 0x7F) (hi : (o.toNat - 0x8000) + b.toNat * 0x8000 < s.rom.size) :
    busRead s (mkAddr b o) = .ok (s.rom.cells.read ((o.toNat - 0x8000) + b.toNat * 0x8000)) := by
  have hcart : region (mkAddr b o) = .cart := region_cart he hf fun _ => by omega
  rw [← loRomIndex_mkAddr] at hi ⊢
  exact busRead_loRom hm hcart (by rwa [offOf_mkAddr]) hi

/-- Banks 0x7E and 0x7F are work RAM at every offset (R52 (c)). -/
theorem region_workRamBank {b : Byte} (hb : b = 0x7E ∨ b = 0x7F) (o : Word) : ∃ i, region (mkAddr b o) = .wram i := by
  rcases hb with rfl | rfl
  · exact ⟨_, region_7e o⟩
  · exact ⟨_, region_7f o⟩

/-! ### No instruction writes a parameter (00_scope.md R3) -/

/-- The parameters of the step relation that the state carries (R3). -/
def State.params (s : State) : Image × MapMode × P9FSource × CycleTable := (s.rom, s.map, s.p9f, s.costs)

theorem push8_params {s t : State} {b : Byte} (h : push8 s b = .ok t) : t.params = s.params := by
  obtain ⟨u, hu, rfl⟩ := push8_ok.mp h
  rw [busWrite_only hu]
  rfl

theorem pushW_params {s t : State} {w16 : Bool} {v : Word} (h : pushW s w16 v = .ok t) : t.params = s.params := by
  rw [pushW_only h]
  rfl

/-- An instruction keeps the parameters when its body does: only `PC` and `CYC` are written around it. -/
theorem instr_keeps_params {i : Instr} {tk : Bool} {s t : State} {body : State → Except Fault State}
    (h : instr i tk s body = .next t)
    (hbody : ∀ r u : State, body r = .ok u → u.params = r.params) : t.params = s.params := by
  obtain ⟨u, hu, rfl⟩ := instr_eq_next.mp h
  exact hbody (s.advance i) u hu

/-- A completed instruction writes registers, flags, work RAM and latches, never a parameter. -/
theorem exec_keeps_params {i : Instr} {s t : State} (h : exec i s = .next t) : t.params = s.params := by
  cases i with
    (rw [exec] at h; refine instr_keeps_params h fun r u hu => ?_)
  | clc | cli | clv | cld | sec | sei | sed | tax | tay | tya | tcd | tcs | inx | iny | dex | dey | ldaImm _ | ldxImm _
  | ldyImm _ =>
    cases hu
    rfl
  | bpl rel | bne rel | bra rel =>
    cases hu
    split <;> rfl
  | php | phb | phk => exact push8_params hu
  | phd => exact pushW_params (w16 := true) hu
  | pha | phx | phy => exact pushW_params hu
  | jsr a =>
    obtain ⟨w, hw, hu⟩ := bind_eq_ok.mp hu
    cases hu
    have hwp : w.params = r.params := pushW_params (w16 := true) hw
    exact hwp
  | staAbs _ | staLong _ | stzAbs _ | stxLongX _ =>
    rw [memWriteW_only hu]
    rfl
  | ldaDpily dp =>
    obtain ⟨p, -, hu⟩ := bind_eq_ok.mp hu
    obtain ⟨v, -, hu⟩ := bind_eq_ok.mp hu
    cases hu
    rfl
  | cmpAbs a =>
    obtain ⟨m, -, hu⟩ := bind_eq_ok.mp hu
    cases hu
    rfl
  | sbcImm imm =>
    split at hu
    · cases hu
    · cases hu
      rfl
  | rep mask | xce =>
    cases hu
    split <;> rfl
  | sep mask =>
    cases hu
    split <;> split <;> rfl

theorem step_keeps_params {s t : State} (h : step s = .next t) : t.params = s.params := by
  obtain ⟨-, i, -, hi⟩ := step_eq_next.mp h
  exact exec_keeps_params hi

/-- Settles O25: bank 0x80 obeys the formula like any other, banks 0x7E and 0x7F answer from work RAM before the cartridge is asked, and
ROM is a parameter. -/
theorem loRomReadFormula : Obligations.LoRomReadFormula := by
  refine ⟨fun s b o => busRead_loRom_mkAddr, fun s o hm ho hi => ?_, fun s b o r hb => ?_, fun s t h => ?_⟩
  · have hbank : o.toNat - 0x8000 + (0x80 : Byte).toNat * 0x8000 = 0x400000 + (o.toNat - 0x8000) := by
      simp [Nat.add_comm]
    rw [← hbank] at hi ⊢
    exact busRead_loRom_mkAddr hm ho (by decide) (by decide) hi
  · obtain ⟨i, hi⟩ := region_workRamBank hb o
    rw [busRead_wram _ hi, busRead_wram _ hi]
  · exact congrArg Prod.fst (step_keeps_params h)

end Sys2Proof.Machine
end

section
/-! PROOFS. The statements of 30_encoding.md: the encoder and the decoder are inverse (R90 to R93), the length of an instruction (R96),
the unassigned opcode bytes (R94), and the words written out from the map. -/

namespace Sys2Proof
open Sys2Proof.Machine Sys2Proof.Claims

/-! ### The rows of the opcode map against the encoder (R90, R93) -/

/-- What a row must satisfy for the encoder to be its inverse: its instructions are encoded by the operand bytes of the row's format,
and are well-formed exactly as far as their immediates fit. -/
def OpRow.Agrees : OpRow → Prop
  | .imp i => ∀ wd, i.operandBytes wd = [] ∧ i.wellFormed wd = true
  | .imm8 mk | .rel8 mk | .dpily mk => ∀ wd b, (mk b).operandBytes wd = [b] ∧ (mk b).wellFormed wd = true
  | .immM mk => ∀ wd v, (mk v).operandBytes wd = immBytes wd.acc16 v ∧ (mk v).wellFormed wd = immFits wd.acc16 v
  | .immX mk => ∀ wd v, (mk v).operandBytes wd = immBytes wd.idx16 v ∧ (mk v).wellFormed wd = immFits wd.idx16 v
  | .abs mk => ∀ wd v, (mk v).operandBytes wd = wordBytes v ∧ (mk v).wellFormed wd = true
  | .long mk | .longX mk => ∀ wd a, (mk a).operandBytes wd = longBytes a ∧ (mk a).wellFormed wd = true

/-- Every assigned opcode byte has such a row. -/
theorem opRow_agrees {op : Byte} {row : OpRow} (h : opRow op = some row) : row.Agrees := by
  unfold opRow at h
  split at h <;> cases h <;> simp [OpRow.Agrees, Instr.operandBytes, Instr.wellFormed]

/-- What such a row reads is well-formed, and its operand bytes are the bytes read. -/
theorem OpRow.Agrees.of_read {row : OpRow} (ha : row.Agrees) {wd : Widths} {bs rest : List Byte} {i : Instr}
    (h : row.read wd bs = some (i, rest)) : i.wellFormed wd = true ∧ bs = i.operandBytes wd ++ rest := by
  cases row with
  | imp j =>
    cases h
    obtain ⟨hb, hw⟩ := ha wd
    exact ⟨hw, by rw [hb]; rfl⟩
  | imm8 mk | rel8 mk | dpily mk =>
    obtain ⟨⟨b, r⟩, hr, hi⟩ := Option.map_eq_some_iff.mp h
    cases hi
    obtain ⟨hb, hw⟩ := ha wd b
    exact ⟨hw, by rw [hb]; exact takeByte_eq_some hr⟩
  | immM mk | immX mk =>
    obtain ⟨⟨v, r⟩, hr, hi⟩ := Option.map_eq_some_iff.mp h
    cases hi
    obtain ⟨hb, hw⟩ := ha wd v
    obtain ⟨hbs, hfits⟩ := takeImm_eq_some hr
    exact ⟨hw.trans hfits, by rw [hb]; exact hbs⟩
  | abs mk =>
    obtain ⟨⟨v, r⟩, hr, hi⟩ := Option.map_eq_some_iff.mp h
    cases hi
    obtain ⟨hb, hw⟩ := ha wd v
    exact ⟨hw, by rw [hb]; exact takeWord_eq_some hr⟩
  | long mk | longX mk =>
    obtain ⟨⟨v, r⟩, hr, hi⟩ := Option.map_eq_some_iff.mp h
    cases hi
    obtain ⟨hb, hw⟩ := ha wd v
    exact ⟨hw, by rw [hb]; exact takeLong_eq_some hr⟩

/-- Settles O2: the bytes after the opcode byte are the operand bytes of what its row reads. -/
theorem encodeOfDecodeIsIdentity : Obligations.EncodeOfDecodeIsIdentity := by
  intro wd bs rest i h
  cases bs with
  | nil => cases h
  | cons op bs =>
    obtain ⟨row, hrow, hread⟩ := decode_cons_eq_ok.mp h
    obtain ⟨hwf, rfl⟩ := (opRow_agrees hrow).of_read hread
    exact ⟨hwf, by rw [encode, opcode_of_decode h]; rfl⟩

/-- Settles O1: the row of each instruction's opcode byte reads its operand bytes back, an immediate because it fits its width. -/
theorem decodeOfEncodeIsIdentity : Obligations.DecodeOfEncodeIsIdentity := by
  intro wd i rest hwf
  rw [encode, List.cons_append, decode_cons_eq_ok]
  cases i with
  | jsr _ | staAbs _ | stzAbs _ | cmpAbs _ | staLong _ | stxLongX _ => exact ⟨_, rfl, by simp [OpRow.read, Instr.operandBytes]⟩
  | ldaImm v | ldxImm v | ldyImm v | sbcImm v => exact ⟨_, rfl, Option.map_eq_some_iff.mpr ⟨_, takeImm_immBytes rest hwf, rfl⟩⟩
  | _ => exact ⟨_, rfl, rfl⟩

/-! ### Lengths (R96) -/

/-- The length that R96 gives, by opcode byte and widths. -/
def lengthByOpcode (wd : Widths) (op : Byte) : Nat :=
  if op ∈ [0xA9#8, 0xE9#8] then (if wd.acc16 then 3 else 2)
  else if op ∈ [0xA0#8, 0xA2#8] then (if wd.idx16 then 3 else 2)
  else if op ∈ [0xC2#8, 0xE2#8, 0x10#8, 0x80#8, 0xD0#8, 0xB7#8] then 2
  else if op ∈ [0x20#8, 0x8D#8, 0x9C#8, 0xCD#8] then 3
  else if op ∈ [0x8F#8, 0x9F#8] then 4
  else 1

theorem length_eq_lengthByOpcode (wd : Widths) (i : Instr) : i.length wd = lengthByOpcode wd i.opcode := by
  cases i <;> rfl

/-- An instruction has as many bytes as its encoding (R96). -/
theorem encode_length (wd : Widths) (i : Instr) : (encode wd i).length = i.length wd := by
  cases i with
  | ldaImm v => exact (Laws.EncodedLength.ldaImm v wd).1
  | sbcImm v => exact (Laws.EncodedLength.sbcImm v wd).1
  | ldxImm v => exact (Laws.EncodedLength.ldxImm v wd).1
  | ldyImm v => exact (Laws.EncodedLength.ldyImm v wd).1
  | _ => rfl

/-- Settles O4: what decodes was read from its own encoding, whose length is that of R96; the two readings of `A9 34 12` are computed. -/
theorem lengthFollowsOpcodeAndWidths : Obligations.LengthFollowsOpcodeAndWidths := by
  refine ⟨fun wd op bs rest i h => ?_, fun wd wd' op bs rest i h => ?_, fun _ => rfl, fun _ => rfl, fun _ => rfl⟩
  · obtain ⟨-, henc⟩ := encodeOfDecodeIsIdentity wd _ _ _ h
    rw [← henc, List.length_append, encode_length, length_eq_lengthByOpcode, opcode_of_decode h, Nat.add_comm]
    rfl
  · rw [encode_head, opcode_of_decode h]

/-! ### Unassigned opcode bytes (R94) -/

/-- The map has a row exactly for the forty bytes of R93. -/
theorem opRow_isSome (op : Byte) : (opRow op).isSome = assigned.contains op := by
  revert op
  decide

theorem opRow_eq_none_iff {op : Byte} : opRow op = none ↔ op ∉ assigned := by
  rw [← Option.not_isSome_iff_eq_none, opRow_isSome, List.contains_iff_mem]

/-- An unassigned byte raises before any operand byte is fetched. -/
theorem fetchInstr_unassigned {s : State} {op : Byte} (hop : busRead s s.pc = .ok op) (ha : op ∉ assigned) :
    fetchInstr s = .error (.undefinedOpcode op s.pc) := by
  simp only [fetchInstr, bind, Except.bind, hop, opRow_eq_none_iff.mpr ha]

theorem step_of_fetchInstr_error {s : State} {f : Fault} (hf : s.fault = none) (h : fetchInstr s = .error f) : step s = .fault f := by
  simp only [step, hf, h]

/-- Settles O5: such a byte has no row, and the fetch looks for one before it reads on. -/
theorem unassignedOpcodesRaiseUndefinedOpcode : Obligations.UnassignedOpcodesRaiseUndefinedOpcode := by
  refine ⟨rfl, by decide, fun s op hf hop ha => ?_⟩
  exact step_of_fetchInstr_error hf (fetchInstr_unassigned hop ha)

/-- Settles O3: each word is run through the decoder. -/
theorem writtenOutWordsDecode : Obligations.WrittenOutWordsDecode :=
  ⟨rfl, rfl, rfl, rfl, rfl, rfl, rfl, rfl, rfl, rfl, rfl, rfl, rfl, rfl, rfl⟩

end Sys2Proof
end

section
/-! PROOFS. What a completed instruction writes (10_state.md R15, R16, R26): one frame relation, one rule per operation of the model, and
one lemma for `exec`, from which the frame statements and the invariants of 10_state.md R25 and 20_memory.md R54 follow. -/

namespace Sys2Proof.Machine
open Sys2Proof.Claims

/-! ### The frame relation -/

/-- From `s` to `t` nothing was written but the destinations `ds`, and `PC`, `CYC`, `FAULT` and the parameters, of which this says
nothing. A component is by default the same in both states by computation. -/
structure WritesOnly (ds : List Dest) (s t : State) : Prop where
  a : Dest.a ∉ ds → t.a = s.a := by exact fun _ => rfl
  x : Dest.x ∉ ds → t.x = s.x := by exact fun _ => rfl
  y : Dest.y ∉ ds → t.y = s.y := by exact fun _ => rfl
  sp : Dest.s ∉ ds → t.sp = s.sp := by exact fun _ => rfl
  d : Dest.d ∉ ds → t.d = s.d := by exact fun _ => rfl
  e : Dest.e ∉ ds → t.e = s.e := by exact fun _ => rfl
  flag : ∀ f, Dest.flag f ∉ ds → t.flag f = s.flag f := by exact fun _ _ => rfl
  memory : Dest.memory ∉ ds → t.wram = s.wram ∧ t.io = s.io ∧ t.ioLog = s.ioLog := by exact fun _ => ⟨rfl, rfl, rfl⟩
  dbr : t.dbr = s.dbr := by rfl

namespace WritesOnly

variable {ds ds' : List Dest} {s t u : State}

theorem mono (h : WritesOnly ds s t) (hsub : ds ⊆ ds') : WritesOnly ds' s t where
  a hn := h.a fun hm => hn (hsub hm)
  x hn := h.x fun hm => hn (hsub hm)
  y hn := h.y fun hm => hn (hsub hm)
  sp hn := h.sp fun hm => hn (hsub hm)
  d hn := h.d fun hm => hn (hsub hm)
  e hn := h.e fun hm => hn (hsub hm)
  flag f hn := h.flag f fun hm => hn (hsub hm)
  memory hn := h.memory fun hm => hn (hsub hm)
  dbr := h.dbr

theorem trans (h : WritesOnly ds s t) (h' : WritesOnly ds t u) : WritesOnly ds s u where
  a hn := (h'.a hn).trans (h.a hn)
  x hn := (h'.x hn).trans (h.x hn)
  y hn := (h'.y hn).trans (h.y hn)
  sp hn := (h'.sp hn).trans (h.sp hn)
  d hn := (h'.d hn).trans (h.d hn)
  e hn := (h'.e hn).trans (h.e hn)
  flag f hn := (h'.flag f hn).trans (h.flag f hn)
  memory hn := by
    obtain ⟨hw, hi, hl⟩ := h.memory hn
    obtain ⟨hw', hi', hl'⟩ := h'.memory hn
    exact ⟨hw'.trans hw, hi'.trans hi, hl'.trans hl⟩
  dbr := h'.dbr.trans h.dbr

/-- `PC` and `CYC` are no destinations. -/
theorem update (h : WritesOnly ds s t) (q q' : Addr) (n : Nat) : WritesOnly ds { s with pc := q } { t with pc := q', cyc := n } :=
  { h with }

/-! ### The operations -/

theorem setFlag (s : State) (f : Flag) (b : Bool) : WritesOnly [.flag f] s (s.setFlag f b) where
  flag g hn := State.flag_setFlag_other s b fun hgf => hn (by simp [hgf])

theorem setNZ (s : State) (w16 : Bool) (v : Word) : WritesOnly nAndZ s (s.setNZ w16 v) :=
  ((setFlag s .n _).mono (by simp [nAndZ])).trans ((setFlag _ .z _).mono (by simp [nAndZ]))

end WritesOnly

/-- The destination that a register of `SetReg` is. -/
def Reg.dest : Reg → Dest
  | .a => .a
  | .x => .x
  | .y => .y

namespace WritesOnly

variable {ds : List Dest} {s t : State}

theorem putReg (s : State) (r : Reg) (v : Word) : WritesOnly [r.dest] s (s.putReg r v) := by
  cases r with
  | a => exact { a := fun hn => absurd (List.mem_singleton_self _) hn }
  | x => exact { x := fun hn => absurd (List.mem_singleton_self _) hn }
  | y => exact { y := fun hn => absurd (List.mem_singleton_self _) hn }

theorem setReg (s : State) (r : Reg) (v : Word) : WritesOnly (r.dest :: nAndZ) s (s.setReg r v) :=
  ((putReg s r _).mono (by simp)).trans ((setNZ _ _ _).mono (by simp))

theorem putSp (s : State) (sp : Word) : WritesOnly [.s] s { s with sp := sp } where
  sp hn := absurd (List.mem_singleton_self _) hn

theorem putP (s : State) (p : Byte) : WritesOnly allFlags s { s with p := p } where
  flag f hn := absurd (by cases f <;> simp [allFlags]) hn

theorem of_memWriteW {w16 : Bool} {a : Addr} {v : Word} (h : memWriteW s w16 a v = .ok t) : WritesOnly [.memory] s t := by
  rw [memWriteW_only h]
  exact { memory := fun hn => absurd (List.mem_singleton_self _) hn }

theorem of_pushW {w16 : Bool} {v : Word} (h : pushW s w16 v = .ok t) : WritesOnly [.memory, .s] s t := by
  rw [pushW_only h]
  exact { sp := fun hn => absurd (by simp) hn, memory := fun hn => absurd (by simp) hn }

end WritesOnly

/-- A byte push is a push at width 8. -/
theorem push8_eq_pushW (s : State) (b : Byte) : push8 s b = pushW s false (zext16 b) := by rw [pushW_8, loByte_zext16]

namespace WritesOnly

variable {ds : List Dest} {s t : State}

theorem of_push8 {b : Byte} (h : push8 s b = .ok t) : WritesOnly [.memory, .s] s t := by
  rw [push8_eq_pushW] at h
  exact of_pushW h

theorem compareA (t : State) (m : Word) : WritesOnly (.flag .c :: nAndZ) t (compareA t m) :=
  ((setFlag t .n _).mono (by simp [nAndZ])).trans <|
    ((setFlag _ .z _).mono (by simp [nAndZ])).trans ((setFlag _ .c _).mono (by simp))

theorem subtractA (t : State) (imm : Word) : WritesOnly (.a :: .flag .v :: .flag .c :: nAndZ) t (subtractA t imm) :=
  ((setFlag t .c _).mono (by simp)).trans <| ((setFlag _ .v _).mono (by simp)).trans <|
    ((setFlag _ .n _).mono (by simp [nAndZ])).trans <| ((setFlag _ .z _).mono (by simp [nAndZ])).trans
      ((putReg _ .a _).mono (by simp [Reg.dest]))

theorem force8 (s : State) : WritesOnly [.flag .m, .flag .x] s s.force8 :=
  ((setFlag s .m _).mono (by simp)).trans ((setFlag _ .x _).mono (by simp))

theorem clearIndexHigh (t : State) : WritesOnly [.x, .y] t { t with x := clearHigh t.x, y := clearHigh t.y } where
  x hn := absurd (by simp) hn
  y hn := absurd (by simp) hn

theorem enterEmulation (s : State) : WritesOnly [.flag .m, .flag .x, .s, .x, .y] s s.enterEmulation :=
  trans ((force8 s).mono (by simp))
    { x := fun hn => absurd (by simp) hn, y := fun hn => absurd (by simp) hn, sp := fun hn => absurd (by simp) hn }

/-! ### The mode instructions (49_mode.md R175 to R177) -/

theorem rep (t : State) (mask : Byte) :
    WritesOnly allFlags t (if t.e then ({ t with p := t.p &&& ~~~mask } : State).force8 else { t with p := t.p &&& ~~~mask }) := by
  split
  · exact (putP t _).trans ((force8 _).mono (by simp [allFlags]))
  · exact putP t _

theorem exchange (t : State) : WritesOnly [.e, .flag .c] t ({ t with e := t.flag .c }.setFlag .c t.e) :=
  trans { e := fun hn => absurd (by simp) hn } ((setFlag { t with e := t.flag .c } .c t.e).mono (by simp))

/-- An instruction writes what its body writes: only `PC` and `CYC` are written around it. -/
theorem of_instr {i : Instr} {tk : Bool} {body : State → Except Fault State} (h : instr i tk s body = .next t)
    (hbody : ∀ r u : State, body r = .ok u → WritesOnly ds r u) : WritesOnly ds s t := by
  obtain ⟨u, hu, rfl⟩ := instr_eq_next.mp h
  exact (hbody _ u hu).update s.pc u.pc _

end WritesOnly

/-- A completed instruction writes only what R26 lists for it. -/
theorem exec_writesOnly {i : Instr} {s t : State} (h : exec i s = .next t) : WritesOnly (writes i) s t := by
  cases i with
    (rw [exec] at h; refine WritesOnly.of_instr h fun r u hu => ?_)
  | clc | cli | clv | cld | sec | sei | sed =>
    cases hu
    exact .setFlag r _ _
  | php | phb | phk => exact .of_push8 hu
  | phd => exact .of_pushW (w16 := true) hu
  | pha | phx | phy => exact .of_pushW hu
  | bpl rel | bne rel | bra rel =>
    cases hu
    split <;> exact {}
  | jsr a =>
    obtain ⟨w, hw, hu⟩ := bind_eq_ok.mp hu
    cases hu
    exact (WritesOnly.of_pushW (w16 := true) hw).update r.pc _ w.cyc
  | tax | inx | dex | ldxImm _ =>
    cases hu
    exact .setReg r .x _
  | tay | iny | dey | ldyImm _ =>
    cases hu
    exact .setReg r .y _
  | tya | ldaImm _ =>
    cases hu
    exact .setReg r .a _
  | ldaDpily dp =>
    obtain ⟨addr, -, hu⟩ := bind_eq_ok.mp hu
    obtain ⟨v, -, hu⟩ := bind_eq_ok.mp hu
    cases hu
    exact .setReg r .a _
  | tcd =>
    cases hu
    have hd : WritesOnly (writes .tcd) r { r with d := r.a } := { d := fun hn => absurd (by simp [writes]) hn }
    exact hd.trans ((WritesOnly.setNZ _ _ _).mono (by simp [writes]))
  | tcs =>
    cases hu
    exact .putSp r _
  | staAbs _ | staLong _ | stzAbs _ | stxLongX _ => exact .of_memWriteW hu
  | cmpAbs a =>
    obtain ⟨m, -, hu⟩ := bind_eq_ok.mp hu
    cases hu
    exact .compareA r m
  | sbcImm imm =>
    split at hu
    · cases hu
    · cases hu
      exact .subtractA r imm
  | rep mask =>
    cases hu
    exact .rep r mask
  | sep mask =>
    cases hu
    have hp : WritesOnly (writes (.sep mask)) r { r with p := r.p ||| mask } :=
      (WritesOnly.putP r _).mono (by simp [writes, allFlags])
    have hxy (q : State) : WritesOnly (writes (.sep mask)) q { q with x := clearHigh q.x, y := clearHigh q.y } :=
      (WritesOnly.clearIndexHigh q).mono (by simp [writes])
    have ha (q : State) : WritesOnly (writes (.sep mask)) q { q with a := clearHigh q.a } :=
      (WritesOnly.putReg q .a _).mono (by simp [writes, Reg.dest])
    split
    · split
      · exact (hp.trans (hxy _)).trans (ha _)
      · exact hp.trans (ha _)
    · split
      · exact hp.trans (hxy _)
      · exact hp
  | xce =>
    cases hu
    have hx : WritesOnly (writes .xce) r ({ r with e := r.flag .c }.setFlag .c r.e) :=
      (WritesOnly.exchange r).mono (by simp [writes])
    split
    · exact hx.trans ((WritesOnly.enterEmulation _).mono (by simp [writes]))
    · exact hx

/-! ### The frame statements -/

theorem step_writesOnly {s t : State} (h : step s = .next t) : ∃ i, WritesOnly (writes i) s t := by
  obtain ⟨-, i, -, hi⟩ := step_eq_next.mp h
  exact ⟨i, exec_writesOnly hi⟩

theorem params_eq_iff {s t : State} :
    t.params = s.params ↔ t.rom = s.rom ∧ t.map = s.map ∧ t.p9f = s.p9f ∧ t.costs = s.costs := by
  simp [State.params]

/-- Settles O16: the parameters, `DBR` and `FAULT` are no destinations of an instruction. -/
theorem parametersAndDbrNeverChange : Obligations.ParametersAndDbrNeverChange := by
  intro s t h
  obtain ⟨hrom, hmap, hp9f, hcosts⟩ := params_eq_iff.mp (step_keeps_params h)
  obtain ⟨i, hw⟩ := step_writesOnly h
  obtain ⟨hfault, -⟩ := step_eq_next.mp h
  exact ⟨hrom, hmap, hp9f, hcosts, hw.dbr, step_leaves_no_fault h, hfault⟩

theorem e_mem_writes {i : Instr} : Dest.e ∈ writes i ↔ i = .xce := by
  cases i <;> simp [writes, nAndZ, allFlags]

/-- Settles O17: no other instruction lists `E` among what it writes. -/
theorem onlyXceWritesE : Obligations.OnlyXceWritesE :=
  fun _ _ _ hi h => (exec_writesOnly h).e (mt e_mem_writes.mp hi)

/-- Settles O18: the flags of the frame. -/
theorem flagsChangeOnlyByTheirWriters : Obligations.FlagsChangeOnlyByTheirWriters :=
  fun f _ _ _ hf h => (exec_writesOnly h).flag f hf

/-- Settles O19: with work RAM, the latches, ROM and the strap unchanged, every read answers as before. -/
theorem stateChangesOnlyByItsWriters : Obligations.StateChangesOnlyByItsWriters := by
  intro i s t h
  obtain ⟨hrom, hmap, -, -⟩ := params_eq_iff.mp (exec_keeps_params h)
  have hw := exec_writesOnly h
  refine ⟨hw.a, hw.x, hw.y, hw.sp, hw.d, hw.dbr, exec_keeps_fault h, fun hn => ?_⟩
  obtain ⟨hwram, hio, hlog⟩ := hw.memory hn
  exact ⟨hwram, hio, hlog, busRead_congr hwram hio hrom hmap⟩

/-! ### The form of the memories (20_memory.md R54, assumption 3) -/

/-- Work RAM in canonical form within its size. -/
def State.WramWf (s : State) : Prop := s.wram.wf = true ∧ s.wram.below Config.wramSize = true

theorem State.WramWf.of_pushW {s t : State} (hs : s.WramWf) {w16 : Bool} {v : Word} (h : pushW s w16 v = .ok t) : t.WramWf :=
  pushW_wf h hs.1 hs.2

theorem State.WramWf.of_push8 {s t : State} (hs : s.WramWf) {b : Byte} (h : push8 s b = .ok t) : t.WramWf := by
  rw [push8_eq_pushW] at h
  exact hs.of_pushW h

theorem State.WramWf.of_memWriteW {s t : State} (hs : s.WramWf) {w16 : Bool} {a : Addr} {v : Word}
    (h : memWriteW s w16 a v = .ok t) : t.WramWf := memWriteW_wf h hs.1 hs.2

theorem State.WramWf.of_writesOnly {s t : State} (hs : s.WramWf) {ds : List Dest} (h : WritesOnly ds s t)
    (hn : Dest.memory ∉ ds) : t.WramWf := by
  obtain ⟨hw, -, -⟩ := h.memory hn
  rw [State.WramWf, hw]
  exact hs

theorem instr_keeps_wramWf {i : Instr} {tk : Bool} {s t : State} {body : State → Except Fault State} (hs : s.WramWf)
    (h : instr i tk s body = .next t) (hbody : ∀ r u : State, r.WramWf → body r = .ok u → u.WramWf) : t.WramWf := by
  obtain ⟨u, hu, rfl⟩ := instr_eq_next.mp h
  have hwf : u.WramWf := hbody (s.advance i) u hs hu
  exact hwf

/-- An instruction that writes memory does so by pushes or stores; any other leaves work RAM. -/
theorem exec_keeps_wramWf {i : Instr} {s t : State} (hs : s.WramWf) (h : exec i s = .next t) : t.WramWf := by
  have hw := exec_writesOnly h
  cases i with
    rw [exec] at h
  | php | phb | phk => exact instr_keeps_wramWf hs h fun r u hr hu => hr.of_push8 hu
  | phd => exact instr_keeps_wramWf hs h fun r u hr hu => hr.of_pushW (w16 := true) hu
  | pha | phx | phy => exact instr_keeps_wramWf hs h fun r u hr hu => hr.of_pushW hu
  | jsr a =>
    refine instr_keeps_wramWf hs h fun r u hr hu => ?_
    obtain ⟨w, hw, hu⟩ := bind_eq_ok.mp hu
    cases hu
    have hwf : w.WramWf := hr.of_pushW (w16 := true) hw
    exact hwf
  | staAbs _ | staLong _ | stzAbs _ | stxLongX _ => exact instr_keeps_wramWf hs h fun r u hr hu => hr.of_memWriteW hu
  | _ => exact hs.of_writesOnly hw (by simp [writes, nAndZ, allFlags])

/-- Settles O13: work RAM by every instruction's own writes, ROM because it is a parameter. -/
theorem memoryFormKept : Obligations.MemoryFormKept := by
  rintro s t ⟨hwf, hbelow, hrom⟩ h
  obtain ⟨hromEq, -⟩ := params_eq_iff.mp (step_keeps_params h)
  obtain ⟨-, i, -, hi⟩ := step_eq_next.mp h
  obtain ⟨hwf', hbelow'⟩ := exec_keeps_wramWf ⟨hwf, hbelow⟩ hi
  exact ⟨hwf', hbelow', hromEq ▸ hrom⟩

/-! ### The index invariant (10_state.md R25) -/

theorem State.IndexInv.of_writesOnly {s t : State} (hs : s.IndexInv) {ds : List Dest} (h : WritesOnly ds s t)
    (hx : Dest.x ∉ ds) (hy : Dest.y ∉ ds) (hf : Dest.flag .x ∉ ds) : t.IndexInv := by
  intro hft
  rw [h.flag .x hf] at hft
  rw [h.x hx, h.y hy]
  exact hs hft

theorem State.idx16_of_flag_x {s : State} (hx : s.flag .x = true) : s.idx16 = false := by simp [State.idx16, hx]

/-- With `P.X` set every index write is at width 8, which keeps the high byte (R22). -/
theorem State.IndexInv.setReg {s : State} (hs : s.IndexInv) (r : Reg) (v : Word) : (s.setReg r v).IndexInv := by
  intro hft
  have hfx : s.flag .x = true := by simpa [State.flag_setReg] using hft
  obtain ⟨hx, hy⟩ := hs hfx
  cases r with
  | a => exact ⟨hx, hy⟩
  | x => exact ⟨by simpa [State.setReg_x, State.idx16_of_flag_x hfx] using hx, hy⟩
  | y => exact ⟨hx, by simpa [State.setReg_y, State.idx16_of_flag_x hfx] using hy⟩

theorem State.indexInv_of_hiByte {s : State} (hx : hiByte s.x = 0) (hy : hiByte s.y = 0) : s.IndexInv := fun _ => ⟨hx, hy⟩

/-- REP can clear `X` and never sets it but in emulation mode, where R24 gives the high bytes (R175). -/
theorem State.IndexInv.rep {t : State} (ht : t.IndexInv) (he : t.EmulationInv) (mask : Byte) :
    (if t.e then ({ t with p := t.p &&& ~~~mask } : State).force8 else { t with p := t.p &&& ~~~mask }).IndexInv := by
  split
  · next hte =>
    obtain ⟨-, -, -, hx, hy⟩ := he hte
    exact State.indexInv_of_hiByte hx hy
  · intro hft
    simp only [State.flag, BitVec.getLsbD_and, Bool.and_eq_true] at hft
    exact ht hft.1

/-- SEP sets `X` only with bit 4 of its mask, which zeroes the high bytes (R176). -/
theorem State.IndexInv.sep {t : State} (ht : t.IndexInv) {mask : Byte} (hm : mask.getLsbD 4 = false) :
    ({ t with p := t.p ||| mask } : State).IndexInv := by
  intro hft
  simp only [State.flag, Flag.bit, BitVec.getLsbD_or, hm, Bool.or_false] at hft
  exact ht hft

theorem instr_keeps_indexInv {i : Instr} {tk : Bool} {s t : State} {body : State → Except Fault State} (he : s.EmulationInv)
    (hs : s.IndexInv) (h : instr i tk s body = .next t)
    (hbody : ∀ r u : State, r.EmulationInv → r.IndexInv → body r = .ok u → u.IndexInv) : t.IndexInv := by
  obtain ⟨u, hu, rfl⟩ := instr_eq_next.mp h
  have hui : u.IndexInv := hbody (s.advance i) u he hs hu
  exact hui

/-- Only the writers of `X`, `Y` and `P.X` matter to the index invariant. -/
theorem exec_keeps_indexInv {i : Instr} {s t : State} (he : s.EmulationInv) (hs : s.IndexInv) (h : exec i s = .next t) :
    t.IndexInv := by
  have hw := exec_writesOnly h
  cases i with
    rw [exec] at h
  | tax | tay | inx | iny | dex | dey | ldxImm _ | ldyImm _ =>
    refine instr_keeps_indexInv he hs h fun r u _ hr hu => ?_
    cases hu
    exact hr.setReg _ _
  | rep mask =>
    refine instr_keeps_indexInv he hs h fun r u her hr hu => ?_
    cases hu
    exact hr.rep her mask
  | sep mask =>
    refine instr_keeps_indexInv he hs h fun r u _ hr hu => ?_
    cases hu
    cases hm : mask.getLsbD 4 with
    | true => split <;> exact State.indexInv_of_hiByte (hiByte_clearHigh _) (hiByte_clearHigh _)
    | false => split <;> exact hr.sep hm
  | xce =>
    refine instr_keeps_indexInv he hs h fun r u _ hr hu => ?_
    cases hu
    split
    · exact State.indexInv_of_hiByte (hiByte_clearHigh _) (hiByte_clearHigh _)
    · exact hr.of_writesOnly (WritesOnly.exchange r) (by simp) (by simp) (by simp)
  | _ => exact hs.of_writesOnly hw (by simp [writes, nAndZ]) (by simp [writes, nAndZ]) (by simp [writes, nAndZ])

/-- Settles O12: by the instruction that the step runs. -/
theorem indexInvariantKept : Obligations.IndexInvariantKept := by
  intro s t he hs h
  obtain ⟨-, i, -, hi⟩ := step_eq_next.mp h
  exact exec_keeps_indexInv he hs hi

end Sys2Proof.Machine
end

section
/-! PROOFS. The statements of 60_exceptions.md about the step: it runs what it fetches, its faults and their causes (R180 to R184), that
none is refused (R190), and what it charges (R191, 70_reset_and_hazards.md R215). -/

namespace Sys2Proof.Machine
open Sys2Proof.Claims

/-! ### The fetch and the latch -/

/-- Settles O6. -/
theorem stepRunsDecodedInstruction : Obligations.StepRunsDecodedInstruction := fun _ _ _ => step_of_bytesAt

/-- Settles O7: `takeFault` latches only where nothing is latched, and `step` looks at the latch first. -/
theorem faultIsLatchedAndSticky : Obligations.FaultIsLatchedAndSticky := by
  refine ⟨fun s f hf h => ?_, fun s l hl => ⟨step_latched hl, ?_⟩⟩
  · rw [h]
    exact State.takeFault_of_none f hf
  · rw [step_latched hl]
    exact State.takeFault_of_some _ hl

theorem fetchInstr_of_opcode_error {s : State} {f : Fault} (h : busRead s s.pc = .error f) : fetchInstr s = .error f := by
  simp only [fetchInstr, bind, Except.bind, h]

theorem fetchInstr_of_operand_error {s : State} {op : Byte} {row : OpRow} {f : Fault} (hop : busRead s s.pc = .ok op)
    (hrow : opRow op = some row) (h : readBytes s (s.pc + 1) (row.format.length s.widths - 1) = .error f) :
    fetchInstr s = .error f := by
  simp only [fetchInstr, bind, Except.bind, hop, hrow, h]

/-- Settles O8: the operand bytes are read in ascending order, and reading stops at the first that cannot be read. -/
theorem firstUnreadableFetchByteFaults : Obligations.FirstUnreadableFetchByteFaults := by
  refine ⟨fun s f hf h => step_of_fetchInstr_error hf (fetchInstr_of_opcode_error h),
    fun s op row k f hf hop hrow hk hbefore h => step_of_fetchInstr_error hf (fetchInstr_of_operand_error hop hrow ?_)⟩
  exact readBytes_error.mpr ⟨k, by omega, hbefore, h⟩

/-! ### No instruction is turned away (R190) -/

theorem exec_ne_refused (i : Instr) (s : State) (r : Refusal) : exec i s ≠ .refused r := by
  cases i <;> (rw [exec]; exact instr_ne_refused)

/-- Settles O10: the fetch faults or gives an instruction, and no instruction refuses. -/
theorem stepNeverRefuses : Obligations.StepNeverRefuses := by
  intro s r h
  unfold step at h
  split at h
  · cases h
  · split at h
    · exact exec_ne_refused _ _ _ h
    · cases h

/-! ### What an instruction raises (R180, R183) -/

/-- Why an instruction run at `s` may raise `f`: a byte that cannot be read, a byte that an instruction of R183's list cannot write,
or decimal SBC at width 8. -/
inductive RaisedBy (i : Instr) (s : State) (f : Fault) : Prop where
  | read {a : Addr} (h : busRead s a = .error f)
  | write {u : State} {a : Addr} {v : Byte} (hop : i.opcode ∈ storing) (hmap : u.map = s.map) (h : busWrite u a v = .error f)
  | decimal (hop : i.opcode = 0xE9) (hd : s.flag .d = true) (hw : s.acc16 = false)
      (hf : f = .unsupportedInstructionVariant 0xE9 s.pc)

theorem memReadW_error {s : State} {w16 : Bool} {a : Addr} {f : Fault} (h : memReadW s w16 a = .error f) :
    ∃ b, busRead s b = .error f := by
  cases w16 with
  | false => exact ⟨a, memReadW_8_error.mp h⟩
  | true =>
    rcases memReadW_16_error.mp h with h | ⟨-, -, h⟩
    · exact ⟨a, h⟩
    · exact ⟨a + 1, h⟩

theorem memWriteW_error {s : State} {w16 : Bool} {a : Addr} {v : Word} {f : Fault} (h : memWriteW s w16 a v = .error f) :
    ∃ u b x, u.map = s.map ∧ busWrite u b x = .error f := by
  cases w16 with
  | false => exact ⟨s, a, _, rfl, h⟩
  | true =>
    rcases memWriteW_16_error.mp h with h | ⟨u, hu, h⟩
    · exact ⟨s, a, _, rfl, h⟩
    · exact ⟨u, a + 1, _, by rw [busWrite_only hu], h⟩

theorem pushW_error {s : State} {w16 : Bool} {v : Word} {f : Fault} (h : pushW s w16 v = .error f) :
    ∃ u b x, u.map = s.map ∧ busWrite u b x = .error f := by
  cases w16 with
  | false => exact ⟨s, _, _, rfl, push8_error.mp h⟩
  | true =>
    rcases push16_error.mp h with h | ⟨u, hu, h⟩
    · exact ⟨s, _, _, rfl, h⟩
    · exact ⟨u, _, _, by rw [busWrite_only hu], h⟩

theorem dpilyAddr_error {s : State} {dp : Byte} {f : Fault} (h : dpilyAddr s dp = .error f) : ∃ b, busRead s b = .error f := by
  rcases bind_eq_error.mp h with h | ⟨p, -, h⟩
  · rcases memRead0Long_error.mp h with h | ⟨-, -, h | ⟨-, -, h⟩⟩ <;> exact ⟨_, h⟩
  · cases h

theorem RaisedBy.of_pushW {i : Instr} {s r : State} {f : Fault} {w16 : Bool} {v : Word}
    (h : pushW r w16 v = .error f) (hmap : r.map = s.map) (hop : i.opcode ∈ storing) : RaisedBy i s f := by
  obtain ⟨u, b, x, hu, hb⟩ := pushW_error h
  exact .write hop (hu.trans hmap) hb

theorem RaisedBy.of_push8 {i : Instr} {s r : State} {f : Fault} {b : Byte} (h : push8 r b = .error f)
    (hmap : r.map = s.map) (hop : i.opcode ∈ storing) : RaisedBy i s f := by
  rw [push8_eq_pushW] at h
  exact .of_pushW h hmap hop

/-- An instruction raises only for a byte it reads or writes, but for decimal SBC at width 8. -/
theorem exec_eq_fault {i : Instr} {s : State} {f : Fault} (h : exec i s = .fault f) : RaisedBy i s f := by
  cases i with
    (rw [exec] at h; replace h := instr_eq_fault.mp h)
  | php | phb | phk => exact .of_push8 h rfl (by decide)
  | phd => exact .of_pushW (w16 := true) h rfl (by simp [Instr.opcode, storing])
  | pha | phx | phy => exact .of_pushW h rfl (by decide)
  | jsr a =>
    rcases bind_eq_error.mp h with h | ⟨u, -, h⟩
    · exact .of_pushW (w16 := true) h rfl (by simp [Instr.opcode, storing])
    · cases h
  | staAbs _ | staLong _ | stzAbs _ | stxLongX _ =>
    obtain ⟨u, b, x, hu, hb⟩ := memWriteW_error h
    exact .write (by simp [Instr.opcode, storing]) hu hb
  | cmpAbs a =>
    rcases bind_eq_error.mp h with h | ⟨m, -, h⟩
    · obtain ⟨b, hb⟩ := memReadW_error h
      exact .read hb
    · cases h
  | ldaDpily dp =>
    rcases bind_eq_error.mp h with h | ⟨addr, -, h⟩
    · obtain ⟨b, hb⟩ := dpilyAddr_error h
      exact .read hb
    · rcases bind_eq_error.mp h with h | ⟨v, -, h⟩
      · obtain ⟨b, hb⟩ := memReadW_error h
        exact .read hb
      · cases h
  | sbcImm imm =>
    split at h
    · next hc =>
      cases h
      simp only [State.flag_advance, State.acc16_advance, Bool.and_eq_true, Bool.not_eq_true'] at hc
      exact .decimal rfl hc.1 hc.2 rfl
    · cases h
  | _ => cases h

/-- A step that faults met a byte that cannot be read, or an opcode byte at `PC` that is unassigned, writes a byte that cannot be
written, or is SBC in decimal at width 8. -/
theorem step_eq_fault {s : State} {f : Fault} (hf : s.fault = none) (h : step s = .fault f) :
    (∃ a, busRead s a = .error f) ∨ ∃ op, busRead s s.pc = .ok op ∧
      ((op ∉ assigned ∧ f = .undefinedOpcode op s.pc) ∨
       (op ∈ storing ∧ ∃ u a v, u.map = s.map ∧ busWrite u a v = .error f) ∨
       (op = 0xE9 ∧ s.flag .d = true ∧ s.acc16 = false ∧ f = .unsupportedInstructionVariant 0xE9 s.pc)) := by
  simp only [step, hf] at h
  split at h
  · next i hi =>
    obtain ⟨op, _, _, hop, -, -, hd⟩ := fetchInstr_eq_ok.mp hi
    rw [← opcode_of_decode hd] at hop
    cases exec_eq_fault h with
    | read hr => exact .inl ⟨_, hr⟩
    | write hst hmap hw => exact .inr ⟨_, hop, .inr (.inl ⟨hst, _, _, _, hmap, hw⟩)⟩
    | decimal hi hd hw he => exact .inr ⟨_, hop, .inr (.inr ⟨hi, hd, hw, he⟩)⟩
  · next g hg =>
    cases h
    rcases fetchInstr_error hg with hr | ⟨op, hop, hrow, he⟩
    · exact .inl hr
    · exact .inr ⟨op, hop, .inl ⟨opRow_eq_none_iff.mp hrow, he⟩⟩

/-! ### The causes of the faults, one by one -/

/-- The nine offsets at which a latch responds (20_memory.md R60). -/
theorem mem_writableOffsets {o : Word} : o ∈ writableOffsets ↔ ∃ r : IoReg, r.offset = o := by
  have hmap : writableOffsets =
      [.inidisp, .obsel, .apuio0, .apuio1, .apuio2, .apuio3, .nmitimen, .mdmaen, .hdmaen].map IoReg.offset := rfl
  constructor
  · intro h
    rw [hmap] at h
    obtain ⟨r, -, hr⟩ := List.mem_map.mp h
    exact ⟨r, hr⟩
  · rintro ⟨r, rfl⟩
    cases r <;> decide

theorem not_mem_writableOffsets {o : Word} (h : ioRegAt o = none) : o ∉ writableOffsets := by
  intro ho
  obtain ⟨r, rfl⟩ := mem_writableOffsets.mp ho
  rw [ioRegAt_of_offset] at h
  cases h

/-- The four offsets at which a latch can be read (R61). -/
theorem not_mem_readableOffsets {o : Word} (h : ∀ r, ioRegAt o = some r → r.readable = false) : o ∉ readableOffsets := by
  intro ho
  have hread : ∀ o ∈ readableOffsets, ∃ r, ioRegAt o = some r ∧ r.readable = true := by
    simp only [readableOffsets, List.forall_mem_cons]
    exact ⟨⟨.apuio0, rfl, rfl⟩, ⟨.apuio1, rfl, rfl⟩, ⟨.apuio2, rfl, rfl⟩, ⟨.apuio3, rfl, rfl⟩, by simp⟩
  obtain ⟨r, hr, hrr⟩ := hread o ho
  rw [h r hr] at hrr
  cases hrr

/-- Settles O9: the ways a step faults, each with what the bus or the decoder raises there. -/
theorem stepFaultsOnlyForTheirCauses : Obligations.StepFaultsOnlyForTheirCauses := by
  intro s f hf h
  rcases step_eq_fault hf h with ⟨a, hr⟩ | ⟨op, hop, ⟨hun, rfl⟩ | ⟨hst, u, a, v, hmap, hw⟩ | ⟨rfl, hd, hw, rfl⟩⟩
  · rcases busRead_error hr with ⟨hm, hcart, rfl⟩ | ⟨hm, hcart, hrange, rfl⟩ | ⟨o, hio, hnot, rfl⟩
    · exact ⟨hm, .inl hcart⟩
    · exact ⟨hm, hcart, hrange.imp_right .inl⟩
    · obtain ⟨-, -, hlo, hhi⟩ := region_io hio
      exact ⟨hlo, hhi, not_mem_readableOffsets hnot⟩
  · exact ⟨rfl, hop, hun⟩
  · rcases busWrite_error hw with ⟨hm, rfl⟩ | ⟨hm, hcart, rfl⟩ | ⟨hm, o, hio, hnot, rfl⟩
    · exact ⟨hmap ▸ hm, .inr ⟨op, hop, hst⟩⟩
    · exact ⟨hmap ▸ hm, hcart, .inr (.inr ⟨op, hop, hst⟩)⟩
    · obtain ⟨-, -, hlo, hhi⟩ := region_io hio
      exact ⟨hlo, hhi, not_mem_writableOffsets hnot, hmap ▸ hm, op, hop, hst⟩
  · exact ⟨rfl, rfl, hop, hd, hw⟩

/-! ### What a step charges (R191, 70_reset_and_hazards.md R215) -/

/-- A completed instruction charges once, as a taken branch only if it is a branch. -/
theorem exec_cyc {i : Instr} {s t : State} (h : exec i s = .next t) :
    ∃ taken : Bool, (taken = true → i.opcode ∈ [0x10#8, 0x80#8, 0xD0#8]) ∧ t.cyc = s.cyc + s.cycles i taken := by
  cases i with
    (rw [exec] at h; obtain ⟨u, -, rfl⟩ := instr_eq_next.mp h)
  | bpl rel | bne rel | bra rel => exact ⟨_, fun _ => by simp [Instr.opcode], rfl⟩
  | _ => exact ⟨false, by simp, rfl⟩

/-- Settles O22: the fetch and the charge name the same opcode byte, and the default costs lie in the bounds. -/
theorem cycleCounterAdvances : Obligations.CycleCounterAdvances := by
  intro s t h
  obtain ⟨-, i, hi, hexec⟩ := step_eq_next.mp h
  obtain ⟨op, _, _, hop, -, -, hd⟩ := fetchInstr_eq_ok.mp hi
  obtain ⟨taken, htaken, hcyc⟩ := exec_cyc hexec
  rw [← opcode_of_decode hd] at hop
  refine ⟨⟨i, i.opcode, taken, hop, encode_head _ _, htaken, hcyc⟩, fun hcosts => ?_⟩
  obtain ⟨hlo, hhi⟩ := defaultCycles_bounds i s.widths s.e taken s.p9f
  rw [hcyc, State.cycles_default hcosts]
  omega

theorem add_toNat_eq_ite (n : Nat) (b : Bool) : n + b.toNat = if b then n + 1 else n := by cases b <;> rfl

/-- Settles O23: the key of the cost function is the opcode byte with the rest of the arguments, and the default table is read off by
instruction. -/
theorem cyclesTable : Obligations.CyclesTable := by
  refine ⟨fun f => ?_, fun s i taken op hop => ⟨fun n hn => ?_, fun hnone => ?_⟩⟩
  · obtain ⟨costs, hcosts⟩ := exists_cycleTable f
    refine ⟨costs, fun s i taken op hop => ?_⟩
    cases hop
    exact State.cycles_of_some (hcosts _)
  · cases hop
    exact State.cycles_of_some hn
  · cases hop
    rw [State.cycles_of_none hnone]
    cases i with
    | bpl _ | bne _ => cases taken <;> cases he : s.e <;> simp [Instr.opcode, defaultCycles]
    | stxLongX _ => cases s.p9f <;> simp [Instr.opcode, defaultCycles, State.widths, add_toNat_eq_ite]
    | _ => simp [Instr.opcode, defaultCycles, State.widths, add_toNat_eq_ite]

/-! ### Branches (42_branch_call.md R130 to R133) -/

/-- A flag is clear exactly when its bit of `P` is (R14). -/
theorem State.flag_eq_false_iff (s : State) (f : Flag) : s.flag f = false ↔ s.p &&& f.mask = 0 := by
  have h : ∀ p : Byte, p.getLsbD f.bit = false ↔ p &&& f.mask = 0 := by cases f <;> decide
  exact h s.p

theorem State.not_flag (s : State) (f : Flag) : (!s.flag f) = decide (s.p &&& f.mask = 0) := by
  rw [Bool.eq_iff_iff, Bool.not_eq_true', decide_eq_true_iff, State.flag_eq_false_iff]

/-- A two-byte instruction that may branch. -/
theorem instr_branch {i : Instr} {s : State} (hlen : i.length s.widths = 2) (cond : Bool) (rel : Byte) :
    instr i cond s (branch cond rel) = .next { s with
      pc := if cond then s.pc + 2 + rel.signExtend 24 else s.pc + 2, cyc := s.cyc + s.cycles i cond } := by
  rw [instr_eq_next]
  refine ⟨_, rfl, ?_⟩
  cases cond <;> simp [State.advance, hlen, relTarget]

theorem exec_bra (s : State) (rel : Byte) :
    exec (.bra rel) s = .next { s with pc := s.pc + 2 + rel.signExtend 24, cyc := s.cyc + s.cycles (.bra rel) true } :=
  instr_branch rfl true rel

/-- Settles O39: `N` and `Z` are bits 7 and 1 of `P`. -/
theorem branches : Obligations.Branches := by
  intro s rel
  refine ⟨?_, ?_, exec_bra s rel⟩
  · have hn : (!s.flag .n) = decide (s.p &&& 0x80 = 0) := State.not_flag s .n
    rw [exec, execBpl, instr_branch rfl, hn]
    simp only [decide_eq_true_eq]
  · have hz : (!s.flag .z) = decide (s.p &&& 0x02 = 0) := State.not_flag s .z
    rw [exec, execBne, instr_branch rfl, hz]
    simp only [decide_eq_true_eq]

/-! ### The branch to itself (R133) -/

/-- Moving two bytes on and branching two bytes back leads nowhere. -/
theorem exec_bra_self (s : State) : exec (.bra 0xFE) s = .next { s with cyc := s.cyc + s.cycles (.bra 0xFE) true } := by
  have hback : (2 : Addr) + (0xFE : Byte).signExtend 24 = 0 := by decide
  rw [exec_bra, BitVec.add_assoc, hback, BitVec.ofNat_eq_ofNat, BitVec.add_zero]

theorem runsTo_succ {s t u : State} {n : Nat} (h : step s = .next t) : RunsTo (n + 1) s u ↔ RunsTo n t u := by
  have hcore : Sys2Proof.core.step s = .next t := h
  simp only [RunsTo, Host.Core.run, hcore]

/-- Settles O40: each step is the branch, at a state that differs in its counter alone, so the bytes stand there still. -/
theorem branchToItselfIdlesForever : Obligations.BranchToItselfIdlesForever := by
  intro s n
  induction n generalizing s with
  | zero => exact fun _ _ => by simp [RunsTo, Host.Core.run]
  | succ n ih =>
    intro hf hb
    have hstep : step s = .next { s with cyc := s.cyc + s.cycles (.bra 0xFE) true } :=
      (step_of_bytesAt hf hb rfl).trans (exec_bra_self s)
    have hcyc : s.cyc + (n + 1) * s.cycles (.bra 0xFE) true =
        s.cyc + s.cycles (.bra 0xFE) true + n * s.cycles (.bra 0xFE) true := by ring
    rw [runsTo_succ hstep, hcyc]
    exact ih { s with cyc := s.cyc + s.cycles (.bra 0xFE) true } hf hb

end Sys2Proof.Machine
end

section
/-! PROOFS. What no step depends on: the cycle counter and what is charged (10_state.md R17, 70_reset_and_hazards.md R215), and the latches
that cannot be read (20_memory.md R62). One simulation serves both: two machines that differ in the counter, in `CYCLES` and in their
latches, so far as no read can tell, take steps that differ in no more. -/

namespace Sys2Proof.Machine
open Sys2Proof.Claims

/-! ### Machines that differ where nothing looks -/

/-- The machine with another counter, another `CYCLES` and other latches. -/
def State.vary (s : State) (c : Nat) (costs : CycleTable) (io : IoRegs) : State := { s with cyc := c, costs := costs, io := io }

/-- A relation between latches that no read tells apart and that writes keep. -/
structure LatchRel (K : IoRegs → IoRegs → Prop) : Prop where
  read : ∀ {io io'}, K io io' → ∀ r : IoReg, r.readable = true → io'.get r = io.get r
  write : ∀ {io io'}, K io io' → ∀ (r : IoReg) (v : Byte), K (io.set r v) (io'.set r v)

/-- Two results of an operation: the same fault, or states that differ in the counter, in `CYCLES` and in related latches. -/
inductive Varies (K : IoRegs → IoRegs → Prop) (c : Nat) (costs : CycleTable) : Except Fault State → Except Fault State → Prop where
  | ok {u : State} {io : IoRegs} (h : K u.io io) : Varies K c costs (.ok u) (.ok (u.vary c costs io))
  | error (f : Fault) : Varies K c costs (.error f) (.error f)

section
variable {K : IoRegs → IoRegs → Prop} {s : State} {io : IoRegs} (c : Nat) (costs : CycleTable)

theorem Varies.bind {c : Nat} {costs : CycleTable} {x x' : Except Fault State} {g : State → Except Fault State}
    (h : Varies K c costs x x')
    (hg : ∀ u io, K u.io io → Varies K c costs (g u) (g (u.vary c costs io))) : Varies K c costs (x >>= g) (x' >>= g) := by
  cases h with
  | ok h => exact hg _ _ h
  | error f => exact .error f

/-- An operation that reads before it goes on, the reads being the same. -/
theorem Varies.bind_same {α : Type} {c : Nat} {costs : CycleTable} {x x' : Except Fault α} {g g' : α → Except Fault State}
    (h : x' = x) (hg : ∀ a, Varies K c costs (g a) (g' a)) : Varies K c costs (x >>= g) (x' >>= g') := by
  subst h
  cases x' with
  | ok a => exact hg a
  | error f => exact .error f

/-- A choice that both machines make alike. -/
theorem Varies.ite {c : Nat} {costs : CycleTable} {b : Bool} {x x' y y' : Except Fault State} (hx : Varies K c costs x x')
    (hy : Varies K c costs y y') : Varies K c costs (if b then x else y) (if b then x' else y') := by
  cases b with
  | true => exact hx
  | false => exact hy

theorem Varies.ok_ite {c : Nat} {costs : CycleTable} {b : Bool} {u u' v v' : State} (hu : Varies K c costs (.ok u) (.ok u'))
    (hv : Varies K c costs (.ok v) (.ok v')) : Varies K c costs (.ok (if b then u else v)) (.ok (if b then u' else v')) := by
  cases b with
  | true => exact hu
  | false => exact hv

/-! ### The bus -/

theorem busRead_vary (hK : LatchRel K) (h : K s.io io) (a : Addr) : busRead (s.vary c costs io) a = busRead s a := by
  unfold busRead
  cases region a with
  | wram i => rfl
  | cart => rfl
  | io o =>
    simp only [ioRead]
    cases ioRegAt o with
    | none => rfl
    | some r =>
      cases hr : r.readable with
      | false => simp [hr]
      | true => simp only [hr, if_true, State.vary, hK.read h r hr]

theorem busWrite_vary (hK : LatchRel K) (h : K s.io io) (a : Addr) (v : Byte) :
    Varies K c costs (busWrite s a v) (busWrite (s.vary c costs io) a v) := by
  have hm : (s.vary c costs io).map = s.map := rfl
  unfold busWrite
  rw [hm]
  cases s.map with
  | hiROM => exact .error _
  | loROM =>
    cases region a with
    | wram i => exact .ok h
    | cart => exact .error _
    | io o =>
      simp only [ioWrite]
      cases ioRegAt o with
      | none => exact .error _
      | some r => exact .ok (u := { s with io := s.io.set r v, ioLog := s.ioLog ++ [(o, v)] }) (hK.write h r v)

theorem readBytes_vary (hK : LatchRel K) (h : K s.io io) (n : Nat) :
    ∀ a : Addr, readBytes (s.vary c costs io) a n = readBytes s a n := by
  induction n with
  | zero => exact fun _ => rfl
  | succ n ih => intro a; simp only [readBytes, busRead_vary c costs hK h, ih]

theorem memReadW_vary (hK : LatchRel K) (h : K s.io io) (w16 : Bool) (a : Addr) :
    memReadW (s.vary c costs io) w16 a = memReadW s w16 a := by
  simp only [memReadW, busRead_vary c costs hK h]

theorem dpilyAddr_vary (hK : LatchRel K) (h : K s.io io) (dp : Byte) : dpilyAddr (s.vary c costs io) dp = dpilyAddr s dp := by
  simp only [dpilyAddr, memRead0Long, busRead_vary c costs hK h]
  rfl

theorem memWriteW_vary (hK : LatchRel K) (h : K s.io io) (w16 : Bool) (a : Addr) (v : Word) :
    Varies K c costs (memWriteW s w16 a v) (memWriteW (s.vary c costs io) w16 a v) := by
  cases w16 with
  | false => exact busWrite_vary c costs hK h a _
  | true => exact (busWrite_vary c costs hK h a _).bind fun u io hu => busWrite_vary c costs hK hu _ _

theorem push8_vary (hK : LatchRel K) (h : K s.io io) (b : Byte) :
    Varies K c costs (push8 s b) (push8 (s.vary c costs io) b) :=
  (busWrite_vary c costs hK h _ b).bind fun u _ hu => .ok (u := { u with sp := pinSp u.e (u.sp - 1) }) hu

theorem push16_vary (hK : LatchRel K) (h : K s.io io) (v : Word) :
    Varies K c costs (push16 s v) (push16 (s.vary c costs io) v) :=
  (push8_vary c costs hK h _).bind fun _ _ hu => push8_vary c costs hK hu _

theorem pushW_vary (hK : LatchRel K) (h : K s.io io) (w16 : Bool) (v : Word) :
    Varies K c costs (pushW s w16 v) (pushW (s.vary c costs io) w16 v) := by
  cases w16 with
  | false => exact push8_vary c costs hK h _
  | true => exact push16_vary c costs hK h v

end

/-! ### Instructions and steps -/

/-- Two outcomes of `i`, or of the step that runs it, from `s` and from the machine with counter `c` and parameter `costs`: the same
fault, or the same charge on each counter and states that differ no more than before. -/
def OutcomesVary (K : IoRegs → IoRegs → Prop) (s : State) (c : Nat) (costs : CycleTable)
    (x x' : Host.Outcome State Fault Refusal) : Prop :=
  (∃ f, x = .fault f ∧ x' = .fault f) ∨
  ∃ (i : Instr) (taken : Bool) (u : State) (io : IoRegs), K u.io io ∧ x = .next { u with cyc := s.cyc + s.cycles i taken } ∧
    x' = .next (u.vary (c + (s.vary c costs s.io).cycles i taken) costs io)

section
variable {K : IoRegs → IoRegs → Prop} {s : State} {io : IoRegs} (c : Nat) (costs : CycleTable)

theorem instr_vary {i : Instr} {tk : Bool} {body body' : State → Except Fault State} (h : K s.io io)
    (hbody : ∀ r : State, K r.io io → Varies K c costs (body r) (body' (r.vary c costs io))) :
    OutcomesVary K s c costs (instr i tk s body) (instr i tk (s.vary c costs io) body') := by
  replace hbody := hbody (s.advance i) h
  have hadv : (s.vary c costs io).advance i = (s.advance i).vary c costs io := rfl
  unfold instr
  rw [hadv]
  generalize body (s.advance i) = x at hbody
  generalize body' ((s.advance i).vary c costs io) = x' at hbody
  cases hbody with
  | ok hu => exact .inr ⟨i, tk, _, _, hu, rfl, rfl⟩
  | error f => exact .inl ⟨f, rfl, rfl⟩

/-- No instruction looks at the counter, at `CYCLES` or at a latch that cannot be read. -/
theorem exec_vary (hK : LatchRel K) (h : K s.io io) (i : Instr) :
    OutcomesVary K s c costs (exec i s) (exec i (s.vary c costs io)) := by
  cases i with
    (rw [exec, exec]; refine instr_vary c costs h fun r h => ?_)
  | php | phb | phk => exact push8_vary c costs hK h _
  | phd => exact push16_vary c costs hK h _
  | pha | phx | phy => exact pushW_vary c costs hK h _ _
  | jsr a => exact (push16_vary c costs hK h _).bind fun u _ hu => .ok (u := { u with pc := absAddr u a }) hu
  | staAbs _ | staLong _ | stzAbs _ | stxLongX _ => exact memWriteW_vary c costs hK h _ _ _
  | cmpAbs a => exact .bind_same (memReadW_vary c costs hK h _ _) fun m => .ok (u := compareA r m) h
  | ldaDpily dp =>
    refine .bind_same (dpilyAddr_vary c costs hK h dp) fun addr => ?_
    exact .bind_same (memReadW_vary c costs hK h _ addr) fun v => .ok (u := r.setReg .a v) h
  | clc | cli | clv | cld | sec | sei | sed => exact .ok (u := r.setFlag _ _) h
  | tax | tay | tya | ldaImm _ | ldxImm _ | ldyImm _ | inx | iny | dex | dey => exact .ok (u := r.setReg _ _) h
  | tcd => exact .ok (u := { r with d := r.a }.setNZ true r.a) h
  | tcs => exact .ok (u := { r with sp := pinSp r.e r.a }) h
  | bpl rel | bne rel => exact .ok_ite (.ok (u := { r with pc := relTarget r rel }) h) (.ok h)
  | bra rel => exact .ok (u := { r with pc := relTarget r rel }) h
  | sbcImm imm => exact .ite (.error _) (.ok (u := subtractA r imm) h)
  | rep mask =>
    exact .ok_ite (.ok (u := ({ r with p := r.p &&& ~~~mask } : State).force8) h) (.ok (u := { r with p := r.p &&& ~~~mask }) h)
  | sep mask =>
    have hp : K ({ r with p := r.p ||| mask } : State).io io := h
    cases mask.getLsbD 4 <;> cases mask.getLsbD 5 <;> exact .ok hp
  | xce =>
    exact .ok_ite (.ok (u := ({ r with e := r.flag .c }.setFlag .c r.e).enterEmulation) h)
      (.ok (u := { r with e := r.flag .c }.setFlag .c r.e) h)

theorem fetchInstr_vary (hK : LatchRel K) (h : K s.io io) : fetchInstr (s.vary c costs io) = fetchInstr s := by
  have hpc : (s.vary c costs io).pc = s.pc := rfl
  have hwd : (s.vary c costs io).widths = s.widths := rfl
  simp only [fetchInstr, busRead_vary c costs hK h, readBytes_vary c costs hK h, hpc, hwd]

theorem step_vary (hK : LatchRel K) (h : K s.io io) : OutcomesVary K s c costs (step s) (step (s.vary c costs io)) := by
  have hfault : (s.vary c costs io).fault = s.fault := rfl
  unfold step
  rw [hfault, fetchInstr_vary c costs hK h]
  cases s.fault with
  | some l => exact .inl ⟨_, rfl, rfl⟩
  | none =>
    cases fetchInstr s with
    | error f => exact .inl ⟨f, rfl, rfl⟩
    | ok i => exact exec_vary c costs hK h i

end

/-! ### The counter and `CYCLES` (R17) -/

theorem latchRel_eq : LatchRel Eq where
  read h r _ := by rw [h]
  write h r v := by rw [h]

/-- Settles O20: the machines differ in the counter and in `CYCLES` alone, so they differ after the step in these alone. -/
theorem cycleCounterGatesNothing : Obligations.CycleCounterGatesNothing := by
  refine ⟨fun s k => ?_, fun s c costs => ?_⟩
  · rcases step_vary (s.cyc + k) s.costs latchRel_eq (rfl : s.io = s.io) with ⟨f, hf, hf'⟩ | ⟨i, taken, u, io, rfl, hn, hn'⟩
    · rw [hf]
      exact hf'
    · obtain ⟨-, -, -, hcosts⟩ := params_eq_iff.mp (step_keeps_params hn)
      have hvary : u.vary (s.cyc + k + s.cycles i taken) s.costs u.io = { u with cyc := s.cyc + s.cycles i taken + k } := by
        rw [Nat.add_right_comm, ← hcosts]
        rfl
      rw [hn]
      exact hn'.trans (congrArg Host.Outcome.next hvary)
  · rcases step_vary c costs latchRel_eq (rfl : s.io = s.io) with ⟨f, hf, hf'⟩ | ⟨i, taken, u, io, rfl, hn, hn'⟩
    · refine ⟨fun t ht => ?_, fun g hg => ?_⟩
      · rw [hf] at ht
        cases ht
      · rw [hf] at hg
        cases hg
        exact hf'
    · refine ⟨fun t ht => ?_, fun g hg => ?_⟩
      · rw [hn] at ht
        cases ht
        exact ⟨_, hn'⟩
      · rw [hn] at hg
        cases hg

/-! ### The latches that cannot be read (20_memory.md R62) -/

/-- The four readable latches agree. -/
def SameReadable (io io' : IoRegs) : Prop := ∀ r : IoReg, r.readable = true → io'.get r = io.get r

theorem latchRel_sameReadable : LatchRel SameReadable where
  read h := h
  write h r v r' hr' := by rw [IoRegs.get_set, IoRegs.get_set, h r' hr']

theorem IoRegs.ext_get {io io' : IoRegs} (h : ∀ r : IoReg, io.get r = io'.get r) : io = io' := by
  cases io
  cases io'
  rw [IoRegs.mk.injEq]
  exact ⟨h .inidisp, h .obsel, h .apuio0, h .apuio1, h .apuio2, h .apuio3, h .nmitimen, h .mdmaen, h .hdmaen⟩

/-- Latches with the five unreadable ones taken from another register file. -/
def IoRegs.withUnreadableOf (io' io : IoRegs) : IoRegs :=
  { io' with inidisp := io.inidisp, obsel := io.obsel, nmitimen := io.nmitimen, mdmaen := io.mdmaen, hdmaen := io.hdmaen }

theorem IoRegs.get_withUnreadableOf (io' io : IoRegs) (r : IoReg) :
    (io'.withUnreadableOf io).get r = if r.readable then io'.get r else io.get r := by
  cases r <;> rfl

theorem IoRegs.withUnreadableOf_eq_iff {io' io : IoRegs} : io'.withUnreadableOf io = io ↔ SameReadable io io' := by
  constructor
  · intro h r hr
    have hget := congrArg (IoRegs.get · r) h
    simpa [IoRegs.get_withUnreadableOf, hr] using hget
  · intro h
    refine IoRegs.ext_get fun r => ?_
    rw [IoRegs.get_withUnreadableOf]
    split
    · next hr => exact h r hr
    · rfl

/-- Two machines agree but for the unreadable latches when the one is the other with latches of which the readable agree. -/
theorem sameButWriteOnly_iff {s s' : State} :
    SameButWriteOnly s s' ↔ s' = { s with io := s'.io } ∧ SameReadable s.io s'.io := by
  have hdef : SameButWriteOnly s s' ↔ { s' with io := s'.io.withUnreadableOf s.io } = s := Iff.rfl
  rw [hdef, ← IoRegs.withUnreadableOf_eq_iff]
  constructor
  · intro h
    exact ⟨congrArg (fun q : State => { q with io := s'.io }) h, congrArg State.io h⟩
  · rintro ⟨h, hio⟩
    rw [hio]
    exact congrArg (fun q : State => { q with io := s.io }) h

/-- Settles O21. -/
theorem writeOnlyLatchesHaveNoEffect : Obligations.WriteOnlyLatchesHaveNoEffect := by
  intro s s' h
  obtain ⟨hs, hread⟩ := sameButWriteOnly_iff.mp h
  have hvary : s' = s.vary s.cyc s.costs s'.io := hs
  rcases step_vary s.cyc s.costs latchRel_sameReadable hread with ⟨f, hf, hf'⟩ | ⟨i, taken, u, io, hu, hn, hn'⟩
  · rw [← hvary] at hf'
    rw [hf, hf']
    exact rfl
  · obtain ⟨-, -, -, hcosts⟩ := params_eq_iff.mp (step_keeps_params hn)
    rw [← hvary] at hn'
    rw [hn, hn']
    refine sameButWriteOnly_iff.mpr ⟨?_, hu⟩
    have hcycles : (s.vary s.cyc s.costs s.io).cycles i taken = s.cycles i taken := rfl
    rw [hcycles, ← hcosts]
    rfl

end Sys2Proof.Machine
end

section
/-! PROOFS. The statements of 20_memory.md about the bus: work RAM (R52, R54), the cartridge and its faults (R53, R57, R58), the I/O
window (R60, R61), and the frame of a write; and that canonical memories are determined by what they read. -/

namespace Sys2Proof.Machine
open Sys2Proof.Claims

/-! ### Canonical memories (assumption 3) -/

/-- No index below the lower bound is listed. -/
theorem Memory.read_of_lt {m : Memory} {lo i : Nat} (h : m.wfFrom lo = true) (hi : i < lo) : m.read i = Memory.unlisted := by
  induction m generalizing lo with
  | nil => rfl
  | cons c m ih =>
    simp only [Memory.wfFrom, Bool.and_eq_true, decide_eq_true_eq] at h
    obtain ⟨⟨hlo, -⟩, hm⟩ := h
    rw [Memory.read_cons, if_neg (by omega)]
    exact ih hm (by omega)

/-- The first listed byte is read at its index, and it is not the unlisted one. -/
theorem Memory.read_head_ne {c : Host.Cell} {m : Memory} {lo : Nat} (h : Memory.wfFrom lo (c :: m) = true) :
    Memory.read (c :: m) c.1 ≠ Memory.unlisted := by
  simp only [Memory.wfFrom, Bool.and_eq_true, decide_eq_true_eq] at h
  rw [Memory.read_cons, if_pos rfl]
  exact h.1.2

/-- The list behind the first cell reads like the whole, but for the index of that cell, which it does not list. -/
theorem Memory.read_tail {c : Host.Cell} {m : Memory} {lo : Nat} (h : Memory.wfFrom lo (c :: m) = true) (i : Nat) :
    Memory.read m i = if i = c.1 then Memory.unlisted else Memory.read (c :: m) i := by
  simp only [Memory.wfFrom, Bool.and_eq_true, decide_eq_true_eq] at h
  split
  · next hi => exact Memory.read_of_lt h.2 (by omega)
  · next hi => rw [Memory.read_cons, if_neg (Ne.symm hi)]

/-- A canonical list whose first cell lies lower lists a byte that the other does not. -/
theorem Memory.head_le_head {c d : Host.Cell} {m n : Memory} {lo lo' : Nat} (hm : Memory.wfFrom lo (c :: m) = true)
    (hn : Memory.wfFrom lo' (d :: n) = true) (h : ∀ i, Memory.read (c :: m) i = Memory.read (d :: n) i) : d.1 ≤ c.1 := by
  by_contra hlt
  have hd : Memory.wfFrom d.1 (d :: n) = true := by
    simp only [Memory.wfFrom, Bool.and_eq_true, decide_eq_true_eq] at hn ⊢
    exact ⟨⟨le_rfl, hn.1.2⟩, hn.2⟩
  exact Memory.read_head_ne hm ((h c.1).trans (Memory.read_of_lt hd (by omega)))

theorem Memory.eq_of_read_eq {m n : Memory} {lo : Nat} (hm : m.wfFrom lo = true) (hn : n.wfFrom lo = true)
    (h : ∀ i, m.read i = n.read i) : m = n := by
  induction m generalizing n lo with
  | nil =>
    cases n with
    | nil => rfl
    | cons d n => exact absurd (h d.1).symm (Memory.read_head_ne hn)
  | cons c m ih =>
    cases n with
    | nil => exact absurd (h c.1) (Memory.read_head_ne hm)
    | cons d n =>
      have hidx : c.1 = d.1 := Nat.le_antisymm (Memory.head_le_head hn hm fun i => (h i).symm) (Memory.head_le_head hm hn h)
      have hbyte : c.2 = d.2 := by
        have := h c.1
        rwa [Memory.read_cons, if_pos rfl, Memory.read_cons, if_pos hidx.symm] at this
      have htail (i : Nat) : Memory.read m i = Memory.read n i := by
        rw [Memory.read_tail hm, Memory.read_tail hn, hidx, h]
      have hcell : c = d := Prod.ext hidx hbyte
      subst hcell
      simp only [Memory.wfFrom, Bool.and_eq_true] at hm hn
      rw [ih hm.2 hn.2 htail]

/-- Settles O15: by induction on the two lists at once, their first cells being the same. -/
theorem canonicalMemoriesAreEqualData : Obligations.CanonicalMemoriesAreEqualData := fun _ _ => Memory.eq_of_read_eq

/-! ### Work RAM (R52, R54) -/

/-- At an offset below 0x2000 every mirrored bank answers with the index of bank 0x7E. -/
theorem busRead_mirror (s : State) {b : Byte} {o : Word} (hb : inMirror b = true) (ho : o.toNat < 0x2000) :
    busRead s (mkAddr b o) = .ok (s.wram.read o.toNat) := busRead_wram s (region_mirror_wram hb ho)

theorem busRead_7e (s : State) (o : Word) : busRead s (mkAddr 0x7E o) = .ok (s.wram.read o.toNat) :=
  busRead_wram s (region_7e o)

theorem busRead_7f (s : State) (o : Word) : busRead s (mkAddr 0x7F o) = .ok (s.wram.read (0x10000 + o.toNat)) :=
  busRead_wram s (region_7f o)

/-- Two addresses of banks 0x7E and 0x7F name different bytes. -/
theorem region_workRamBank_ne {b b' : Byte} {o o' : Word} (hb : b = 0x7E ∨ b = 0x7F) (hb' : b' = 0x7E ∨ b' = 0x7F)
    (hne : (b', o') ≠ (b, o)) : region (mkAddr b' o') ≠ region (mkAddr b o) := by
  have ho := o.isLt
  have ho' := o'.isLt
  rcases hb with rfl | rfl <;> rcases hb' with rfl | rfl <;> simp only [region_7e, region_7f, ne_eq, Region.wram.injEq] <;> intro h
  · exact hne (by rw [BitVec.eq_of_toNat_eq h])
  · omega
  · omega
  · exact hne (by rw [BitVec.eq_of_toNat_eq (Nat.add_left_cancel h)])

/-- Settles O24: under LoROM a write to work RAM succeeds, and it is read back at every address of its index. -/
theorem workRamRoundTrip : Obligations.WorkRamRoundTrip := by
  refine ⟨fun s b o => ⟨busRead_mirror s, ?_, ?_⟩, fun s o v hm => ⟨fun b hb ho => ?_, fun b hb => ?_⟩⟩
  · rintro rfl
    exact busRead_7e s o
  · rintro rfl
    exact busRead_7f s o
  · have hw := busWrite_wram v hm (region_mirror_wram hb ho)
    exact ⟨_, hw, fun b' hb' => busRead_busWrite_wram hw (region_mirror_wram hb ho) (region_mirror_wram hb' ho),
      busRead_busWrite_wram hw (region_mirror_wram hb ho) (region_7e o)⟩
  · obtain ⟨i, hi⟩ := region_workRamBank hb o
    have hw := busWrite_wram v hm hi
    refine ⟨_, hw, busRead_busWrite_wram hw hi hi, fun b' o' hb' hne => ?_, ?_⟩
    · exact busRead_busWrite_other hw (region_workRamBank_ne hb hb' hne)
    · rintro ho rfl
      exact busRead_busWrite_wram hw (region_7e o) (region_mirror_wram (by decide) ho)

/-! ### The cartridge and its faults (R53, R57, R58) -/

theorem busRead_cart_hiRom {s : State} {a : Addr} (hm : s.map = .hiROM) (ha : region a = .cart) :
    busRead s a = .error (.unsupportedAddressingScheme (.address a)) := by
  simp only [busRead, ha, hm]

theorem busRead_cart_unmapped {s : State} {a : Addr} (hm : s.map = .loROM) (ha : region a = .cart)
    (h : 0x8000 ≤ (offOf a).toNat → s.rom.size ≤ loRomIndex a) : busRead s a = .error (.unmappedAddress a) := by
  have hn : ¬ (0x8000 ≤ (offOf a).toNat ∧ loRomIndex a < s.rom.size) := fun hc => absurd (h hc.1) (by omega)
  simp only [busRead, ha, hm, if_neg hn]

theorem busWrite_cart {s : State} {a : Addr} (v : Byte) (hm : s.map = .loROM) (ha : region a = .cart) :
    busWrite s a v = .error (.unmappedAddress a) := by
  simp only [busWrite, ha, hm]

/-- The scheme is checked before any decoding. -/
theorem busWrite_hiRom {s : State} (a : Addr) (v : Byte) (hm : s.map = .hiROM) :
    busWrite s a v = .error (.unsupportedAddressingScheme (.address a)) := by
  simp only [busWrite, hm]

/-- Settles O26: all these addresses decode to the cartridge. -/
theorem unmappedAccessesFault : Obligations.UnmappedAccessesFault := by
  intro s b o v hm he hf h
  have hcart : region (mkAddr b o) = .cart := region_cart he hf h
  refine ⟨fun hlo => busRead_cart_unmapped hm hcart fun hhi => ?_, fun _ hsize => busRead_cart_unmapped hm hcart fun _ => ?_,
    busWrite_cart v hm hcart⟩
  · rw [offOf_mkAddr] at hhi
    omega
  · rwa [loRomIndex_mkAddr]

/-- Settles O27: writes by the order of the checks, reads by what their address decodes to. -/
theorem hiRomFaults : Obligations.HiRomFaults := by
  intro s b o v hm
  refine ⟨busWrite_hiRom _ v hm, fun he hf h => busRead_cart_hiRom hm (region_cart he hf h), busRead_mirror s, ?_, ?_⟩
  · rintro rfl
    exact busRead_7e s o
  · rintro rfl
    exact busRead_7f s o

/-! ### The I/O window (R60, R61) -/

theorem busRead_io (s : State) {a : Addr} {o : Word} (ha : region a = .io o) : busRead s a = ioRead s o := by
  simp only [busRead, ha]

theorem busWrite_io {s : State} {a : Addr} {o : Word} (v : Byte) (hm : s.map = .loROM) (ha : region a = .io o) :
    busWrite s a v = ioWrite s o v := by
  simp only [busWrite, hm, ha]

/-- An offset at which no latch responds is none of the nine. -/
theorem ne_of_ioRegAt_none {o : Word} (h : ioRegAt o = none) :
    o ≠ 0x2100 ∧ o ≠ 0x2101 ∧ o ≠ 0x2140 ∧ o ≠ 0x2141 ∧ o ≠ 0x2142 ∧ o ≠ 0x2143 ∧ o ≠ 0x4200 ∧ o ≠ 0x420B ∧
      o ≠ 0x420C := by
  have hne (r : IoReg) : o ≠ r.offset := by
    rintro rfl
    rw [ioRegAt_of_offset] at h
    cases h
  exact ⟨hne .inidisp, hne .obsel, hne .apuio0, hne .apuio1, hne .apuio2, hne .apuio3, hne .nmitimen, hne .mdmaen, hne .hdmaen⟩

/-- Settles O28: an offset of the window is that of one latch, or of none. -/
theorem ioWriteMap : Obligations.IoWriteMap := by
  intro s b o v hm hb hlo hhi
  rw [busWrite_io v hm (region_mirror_io hb hlo hhi), ioWrite]
  cases hg : ioRegAt o with
  | some r =>
    obtain rfl := ioRegAt_offset hg
    cases r <;> rfl
  | none =>
    obtain ⟨h0, h1, h2, h3, h4, h5, h6, h7, h8⟩ := ne_of_ioRegAt_none hg
    rw [if_neg h0, if_neg h1, if_neg h2, if_neg h3, if_neg h4, if_neg h5, if_neg h6, if_neg h7, if_neg h8]

/-- Settles O29: as for writes, with four of the latches readable. -/
theorem ioReadMap : Obligations.IoReadMap := by
  intro s b o hb hlo hhi
  rw [busRead_io s (region_mirror_io hb hlo hhi), ioRead]
  cases hg : ioRegAt o with
  | some r =>
    obtain rfl := ioRegAt_offset hg
    cases r <;> rfl
  | none =>
    obtain ⟨-, -, h2, h3, h4, h5, -⟩ := ne_of_ioRegAt_none hg
    rw [if_neg h2, if_neg h3, if_neg h4, if_neg h5]

/-- The next address lies in the same bank unless the offset is its last. -/
theorem mkAddr_add_one (b : Byte) {o : Word} (ho : o.toNat + 1 < 0x10000) : mkAddr b o + 1 = mkAddr b (o + 1) := by
  apply BitVec.eq_of_toNat_eq
  have hb := b.isLt
  simp only [BitVec.toNat_add, toNat_mkAddr, BitVec.ofNat_eq_ofNat, BitVec.toNat_ofNat]
  omega

/-- Settles O30: the second byte is read at the next offset of the same bank. -/
theorem latchPairReadsLittleEndian : Obligations.LatchPairReadsLittleEndian := by
  intro s b hb
  have h0 : busRead s (mkAddr b 0x2140) = .ok s.io.apuio0 := ioReadMap s b _ hb (by decide) (by decide)
  have h1 : busRead s (mkAddr b 0x2141) = .ok s.io.apuio1 := ioReadMap s b _ hb (by decide) (by decide)
  have h2 : busRead s (mkAddr b 0x2142) = .ok s.io.apuio2 := ioReadMap s b _ hb (by decide) (by decide)
  have h3 : busRead s (mkAddr b 0x2143) = .ok s.io.apuio3 := ioReadMap s b _ hb (by decide) (by decide)
  have h4 : busRead s (mkAddr b 0x2144) = .error (.unsupportedIoRegister 0x2144 .read) :=
    ioReadMap s b _ hb (by decide) (by decide)
  have hnext (o : Word) (ho : o.toNat + 1 < 0x10000) : mkAddr b o + 1 = mkAddr b (o + 1) := mkAddr_add_one b ho
  refine ⟨memReadW_16.mpr ⟨_, _, h0, ?_, rfl⟩, memReadW_16.mpr ⟨_, _, h1, ?_, rfl⟩, memReadW_16.mpr ⟨_, _, h2, ?_, rfl⟩,
    memReadW_16_error.mpr (.inr ⟨_, h3, ?_⟩)⟩
  · rw [hnext _ (by decide)]; exact h1
  · rw [hnext _ (by decide)]; exact h2
  · rw [hnext _ (by decide)]; exact h3
  · rw [hnext _ (by decide)]; exact h4

/-! ### The frame of a write (R52, R53, R60) -/

/-- One successful write stores exactly its byte. -/
theorem storedExactly_busWrite {s t : State} {a : Addr} {v : Byte} (h : busWrite s a v = .ok t) :
    StoredExactly s t [(region a, v)] := by
  have hread : ReadsAsBeforeBut s t [region a] := fun b hb => busRead_busWrite_other h (by simpa using hb)
  have hwram (b : Addr) (k : Nat) (w : Byte) (hb : region b = .wram k) (hmem : (Region.wram k, w) ∈ [(region a, v)]) :
      busRead t b = .ok w := by
    obtain ⟨hk, rfl⟩ := Prod.mk.inj (List.mem_singleton.mp hmem)
    exact busRead_busWrite_wram h hk.symm hb
  obtain ⟨-, ⟨i, hr, rfl⟩ | ⟨o, r, hr, hg, rfl⟩⟩ := busWrite_ok h
  · refine ⟨hread, hwram, fun r w hmem => ?_, fun r _ => rfl, ?_⟩
    · rw [hr] at hmem
      cases List.mem_singleton.mp hmem
    · rw [hr]
      exact (List.append_nil _).symm
  · refine ⟨hread, hwram, fun r' w hmem => ?_, fun r' hn => ?_, ?_⟩
    · rw [hr] at hmem
      obtain ⟨ho, rfl⟩ := Prod.mk.inj (List.mem_singleton.mp hmem)
      have hrr : r' = r := by
        rw [← Region.io.inj ho, ioRegAt_of_offset] at hg
        exact Option.some.inj hg
      rw [IoRegs.get_set, if_pos hrr]
    · have hrr : r' ≠ r := by
        rintro rfl
        exact hn (by simp [hr, ioRegAt_offset hg])
      rw [IoRegs.get_set, if_neg hrr]
    · rw [hr]
      rfl

/-- Settles O31: a write is a byte of work RAM or a latch with its record, as the region of its address says. -/
theorem busWriteFrame : Obligations.BusWriteFrame := by
  intro s t a v h
  refine ⟨storedExactly_busWrite h, busWrite_only h, ?_⟩
  obtain ⟨-, ⟨i, hr, rfl⟩ | ⟨o, r, hr, hg, rfl⟩⟩ := busWrite_ok h
  · refine ⟨fun _ _ => ⟨rfl, rfl⟩, fun o ho => ?_⟩
    rw [hr] at ho
    cases ho
  · refine ⟨fun i hi => ?_, fun o' ho => ⟨rfl, r, ?_, rfl⟩⟩
    · rw [hr] at hi
      cases hi
    · rw [hr] at ho
      rw [ioRegAt_offset hg, Region.io.inj ho]

/-! ### The frame of writes in sequence -/

theorem latchWrites_append (xs ys : List (Region × Byte)) : latchWrites (xs ++ ys) = latchWrites xs ++ latchWrites ys := by
  induction xs with
  | nil => rfl
  | cons c xs ih =>
    obtain ⟨r, v⟩ := c
    cases r <;> simp [latchWrites, ih]

/-- Bytes stored in different places are stored exactly by storing the one part after the other. -/
theorem storedExactly_append {s t u : State} {xs ys : List (Region × Byte)} (hx : StoredExactly s t xs)
    (hy : StoredExactly t u ys) (hdisj : ∀ r ∈ xs.map Prod.fst, r ∉ ys.map Prod.fst) : StoredExactly s u (xs ++ ys) := by
  obtain ⟨hread, hwram, hlatch, hother, hlog⟩ := hx
  obtain ⟨hread', hwram', hlatch', hother', hlog'⟩ := hy
  have hfirst {c : Region × Byte} (hc : c ∈ xs) : c.1 ∉ ys.map Prod.fst := hdisj _ (List.mem_map_of_mem hc)
  refine ⟨fun b hb => ?_, fun b k v hb hmem => ?_, fun r v hmem => ?_, fun r hr => ?_, ?_⟩
  · rw [List.map_append, List.mem_append, not_or] at hb
    rw [hread' b hb.2, hread b hb.1]
  · rcases List.mem_append.mp hmem with hm | hm
    · rw [hread' b (hb ▸ hfirst hm)]
      exact hwram b k v hb hm
    · exact hwram' b k v hb hm
  · rcases List.mem_append.mp hmem with hm | hm
    · rw [hother' r (hfirst hm)]
      exact hlatch r v hm
    · exact hlatch' r v hm
  · rw [List.map_append, List.mem_append, not_or] at hr
    rw [hother' r hr.2, hother r hr.1]
  · rw [hlog', hlog, latchWrites_append, List.append_assoc]

/-- A write that succeeds is not to the cartridge. -/
theorem region_ne_cart_of_busWrite {s t : State} {a : Addr} {v : Byte} (h : busWrite s a v = .ok t) : region a ≠ .cart := by
  obtain ⟨-, ⟨i, hr, -⟩ | ⟨o, r, hr, -, -⟩⟩ := busWrite_ok h <;> rw [hr] <;> exact Region.noConfusion

/-- Two writes at different offsets store exactly their two bytes. -/
theorem storedExactly_busWrite_two {s t u : State} {a b : Addr} {v w : Byte} (ht : busWrite s a v = .ok t)
    (hu : busWrite t b w = .ok u) (hne : offOf a ≠ offOf b) : StoredExactly s u [(region a, v), (region b, w)] := by
  have hreg : region a ≠ region b := region_ne_of_offset (region_ne_cart_of_busWrite ht) hne
  exact storedExactly_append (storedExactly_busWrite ht) (storedExactly_busWrite hu) (by simpa using hreg)

end Sys2Proof.Machine
end

section
/-! PROOFS. The statements about the pushes, JSR and the stores (41_stack_push.md, 42_branch_call.md R134, 46_store.md): their results,
their frames, and the stack of emulation mode (70_reset_and_hazards.md R206). Each of these instructions is one operation of the bus,
run at the start of the step, whose result is then committed; what they do follows from what that operation does. -/

namespace Sys2Proof.Machine
open Sys2Proof.Claims

/-! ### Committing the result of an operation -/

/-- What `i`, run at `s`, makes of the result of its operation: the state with `PC` at `q` and `CYC` charged, or the fault. -/
def commit (i : Instr) (q : Addr) (s : State) : Except Fault State → Host.Outcome State Fault Refusal
  | .ok t => .next { t with pc := q, cyc := s.cyc + s.cycles i false }
  | .error f => .fault f

theorem commit_of_ok {i : Instr} {q : Addr} {s t : State} {x : Except Fault State} (h : x = .ok t) :
    commit i q s x = .next { t with pc := q, cyc := s.cyc + s.cycles i false } := by rw [h, commit]

theorem commit_of_error {i : Instr} {q : Addr} {s : State} {x : Except Fault State} {f : Fault} (h : x = .error f) :
    commit i q s x = .fault f := by rw [h, commit]

theorem commit_eq_next {i : Instr} {q : Addr} {s t : State} {x : Except Fault State} :
    commit i q s x = .next t ↔ ∃ u, x = .ok u ∧ { u with pc := q, cyc := s.cyc + s.cycles i false } = t := by
  cases x <;> simp [commit]

/-- An instruction commits an operation when its body gives what the operation gives, but for `PC`. -/
theorem instr_eq_commit {i : Instr} {q : Addr} {s : State} {body : State → Except Fault State} {x : Except Fault State}
    (h : body (s.advance i) = x.map fun t => { t with pc := q }) : instr i false s body = commit i q s x := by
  unfold instr
  rw [h]
  cases x <;> rfl

/-! ### Pushes (41_stack_push.md R120 to R127, 42_branch_call.md R134) -/

theorem busWrite_setPc (s : State) (q : Addr) (a : Addr) (v : Byte) :
    busWrite { s with pc := q } a v = (busWrite s a v).map fun t => { t with pc := q } := by
  unfold busWrite ioWrite
  cases s.map with
  | hiROM => rfl
  | loROM =>
    cases region a with
    | wram i => rfl
    | io o => simp only []; cases ioRegAt o <;> rfl
    | cart => rfl

theorem push8_setPc (s : State) (q : Addr) (b : Byte) :
    push8 { s with pc := q } b = (push8 s b).map fun t => { t with pc := q } := by
  rw [push8_eq, push8_eq, busWrite_setPc]
  cases busWrite s (mkAddr 0 s.sp) b <;> rfl

theorem pushW_setPc (s : State) (q : Addr) (w16 : Bool) (v : Word) :
    pushW { s with pc := q } w16 v = (pushW s w16 v).map fun t => { t with pc := q } := by
  cases w16 with
  | false => exact push8_setPc s q _
  | true =>
    rw [pushW_16, pushW_16, push16, push16, push8_setPc]
    cases push8 s (hiByte v) with
    | error f => rfl
    | ok t => exact push8_setPc t q _

/-- Which instruction pushes what, at which width, from `s`. -/
inductive Pushes (s : State) : Instr → Bool → Word → Prop
  | php : Pushes s .php false (zext16 s.p)
  | phb : Pushes s .phb false (zext16 s.dbr)
  | phk : Pushes s .phk false (zext16 (bankOf (s.pc + 1)))
  | pha : Pushes s .pha s.acc16 s.a
  | phx : Pushes s .phx s.idx16 s.x
  | phy : Pushes s .phy s.idx16 s.y
  | phd : Pushes s .phd true s.d
  | jsr (a : Word) : Pushes s (.jsr a) true (offOf (s.pc + 2))

/-- Where `PC` is after an instruction that pushes. -/
def State.pushTarget (s : State) : Instr → Addr
  | .jsr a => mkAddr s.dbr a
  | _ => s.pc + 1

/-- The return address of JSR is that of its own last byte. -/
theorem jsr_return (s : State) (a : Word) : (s.advance (.jsr a)).pc - 1 = s.pc + 2 := by
  have h : (s.advance (.jsr a)).pc = s.pc + 2 + 1 := (BitVec.add_assoc s.pc 2 1).symm
  rw [h]
  exact BitVec.add_sub_cancel _ _

/-- An instruction that pushes commits the push. -/
theorem exec_of_pushes {s : State} {i : Instr} {w16 : Bool} {v : Word} (h : Pushes s i w16 v) :
    exec i s = commit i (s.pushTarget i) s (pushW s w16 v) := by
  cases h with
    (rw [exec]; refine instr_eq_commit ?_)
  | php | phb | phk =>
    rw [← push8_eq_pushW]
    exact push8_setPc s _ _
  | pha | phx | phy => exact pushW_setPc s _ _ _
  | phd => exact pushW_setPc s _ true _
  | jsr a =>
    have hpush : push16 (s.advance (.jsr a)) (offOf ((s.advance (.jsr a)).pc - 1)) =
        (pushW s true (offOf (s.pc + 2))).map fun t => { t with pc := (s.advance (.jsr a)).pc } := by
      rw [jsr_return]
      exact pushW_setPc s _ true _
    simp only [hpush]
    cases h : pushW s true (offOf (s.pc + 2)) with
    | error f => rfl
    | ok t =>
      have hdbr : t.dbr = s.dbr := by rw [pushW_only h]
      exact congrArg (fun b => Except.ok { t with pc := mkAddr b a }) hdbr

/-- Settles O36: a push at width 8 is one write at `S`. -/
theorem bytePushes : Obligations.BytePushes := by
  intro s i b h
  have hexec : exec i s = commit i (s.pc + 1) s (push8 s b) := by
    rw [push8_eq_pushW]
    rcases h with ⟨rfl, rfl⟩ | ⟨rfl, rfl⟩ | ⟨rfl, rfl⟩
    · exact exec_of_pushes .php
    · exact exec_of_pushes .phb
    · exact exec_of_pushes .phk
  rw [hexec]
  exact ⟨fun t ht => commit_of_ok (push8_ok.mpr ⟨t, ht, rfl⟩), fun f hf => commit_of_error (push8_error.mpr hf)⟩

/-- Settles O37: at width 8 one write at `S`, at width 16 two. -/
theorem registerPushes : Obligations.RegisterPushes := by
  intro s i w16 v h
  have hexec : exec i s = commit i (s.pc + 1) s (pushW s w16 v) := by
    rcases h with ⟨rfl, rfl, rfl⟩ | ⟨rfl, rfl, rfl⟩ | ⟨rfl, rfl, rfl⟩ | ⟨rfl, rfl, rfl⟩
    · exact exec_of_pushes .pha
    · exact exec_of_pushes .phx
    · exact exec_of_pushes .phy
    · exact exec_of_pushes .phd
  rw [hexec]
  refine ⟨?_, ?_⟩
  · rintro rfl
    exact ⟨fun t ht => commit_of_ok (push8_ok.mpr ⟨t, ht, rfl⟩), fun f hf => commit_of_error (push8_error.mpr hf)⟩
  · rintro rfl
    exact ⟨fun t u ht hu => commit_of_ok (push16_ok.mpr ⟨t, u, ht, hu, rfl⟩),
      fun f hf => commit_of_error (push16_error.mpr (.inl hf)),
      fun t f ht hf => commit_of_error (push16_error.mpr (.inr ⟨t, ht, hf⟩))⟩

/-- Settles O41: JSR is a push of 16 bits that ends at `{DBR, addr16}`. -/
theorem subroutineCall : Obligations.SubroutineCall := by
  intro s a
  have hexec : exec (.jsr a) s = commit (.jsr a) (mkAddr s.dbr a) s (push16 s (offOf (s.pc + 2))) := exec_of_pushes (.jsr a)
  rw [hexec]
  exact ⟨fun t u ht hu => commit_of_ok (push16_ok.mpr ⟨t, u, ht, hu, rfl⟩),
    fun f hf => commit_of_error (push16_error.mpr (.inl hf)),
    fun t f ht hf => commit_of_error (push16_error.mpr (.inr ⟨t, ht, hf⟩))⟩

/-! ### The frame of the pushes -/

/-- The second byte of a push lies at another offset than the first, pinned or not. -/
theorem pinSp_sub_one_ne (e : Bool) (sp : Word) : sp ≠ pinSp e (sp - 1) := by
  intro h
  have hlo : loByte sp = loByte (sp - 1) := (congrArg loByte h).trans (loByte_pinSp e _)
  have hnat := congrArg BitVec.toNat hlo
  have := sp.isLt
  simp only [toNat_loByte, BitVec.toNat_sub, BitVec.ofNat_eq_ofNat, BitVec.toNat_ofNat] at hnat
  omega

/-- `PC`, `CYC` and `S` are no part of what is stored. -/
theorem storedExactly_update {s t : State} {xs : List (Region × Byte)} (h : StoredExactly s t xs) (q : Addr) (n : Nat) (sp : Word) :
    StoredExactly s { t with pc := q, cyc := n, sp := sp } xs := h

/-- A push stores exactly its bytes. -/
theorem storedExactly_pushW {s t : State} {w16 : Bool} {v : Word} (h : pushW s w16 v = .ok t) :
    StoredExactly s t (pushSpan w16 s v) := by
  cases w16 with
  | false =>
    obtain ⟨u, hu, rfl⟩ := push8_ok.mp h
    exact storedExactly_update (storedExactly_busWrite hu) u.pc u.cyc _
  | true =>
    obtain ⟨u, w, hu, hw, rfl⟩ := push16_ok.mp h
    refine storedExactly_update (storedExactly_busWrite_two hu hw ?_) w.pc w.cyc _
    rw [offOf_mkAddr, offOf_mkAddr]
    exact pinSp_sub_one_ne s.e s.sp

/-- An operation that wrote no more than `S` and the bus wrote no more once committed. -/
theorem sameButStore_of_only {s u : State} (h : u = { s with sp := u.sp, wram := u.wram, io := u.io, ioLog := u.ioLog })
    (q : Addr) (n : Nat) : SameButStore s { u with pc := q, cyc := n } := by
  have hupdate := congrArg (fun t : State => ({ t with pc := q, cyc := n } : State)) h
  exact hupdate

/-- Settles O48: the frame is that of the push; `PC` and `CYC` are written around it. -/
theorem pushFrame : Obligations.PushFrame := by
  intro s t i w16 v h hexec
  have hp : Pushes s i w16 v := by
    rcases h with ⟨rfl, ⟨rfl, rfl⟩ | ⟨rfl, rfl⟩ | ⟨rfl, rfl⟩⟩ | ⟨rfl, rfl, rfl⟩ | ⟨rfl, ⟨rfl, rfl⟩ | ⟨rfl, rfl⟩⟩ |
      ⟨rfl, ⟨rfl, rfl⟩ | ⟨⟨a, rfl⟩, rfl⟩⟩
    · exact .php
    · exact .phb
    · exact .phk
    · exact .pha
    · exact .phx
    · exact .phy
    · exact .phd
    · exact .jsr a
  rw [exec_of_pushes hp] at hexec
  obtain ⟨u, hu, rfl⟩ := commit_eq_next.mp hexec
  have hsp := pushW_sp hu
  exact ⟨storedExactly_update (storedExactly_pushW hu) _ _ u.sp, sameButStore_of_only (pushW_only hu) _ _, hsp⟩

/-! ### The stack of emulation mode (70_reset_and_hazards.md R206) -/

/-- The stack pointer stands in page 1, in emulation mode under LoROM. -/
structure InPageOne (s : State) : Prop where
  map : s.map = .loROM
  e : s.e = true
  sp : hiByte s.sp = 0x01

/-- From `s` to `t` nothing of the bus changed outside page 1. -/
structure TouchesPageOne (s t : State) : Prop where
  io : t.io = s.io
  wram : ∀ k, k < 0x100 ∨ 0x200 ≤ k → t.wram.read k = s.wram.read k

theorem push8_inPageOne {s : State} (hs : InPageOne s) (b : Byte) :
    ∃ t, push8 s b = .ok t ∧ InPageOne t ∧ TouchesPageOne s t := by
  have hsp : s.sp.toNat / 0x100 = 1 := by rw [← toNat_hiByte, hs.sp]; rfl
  have hreg : region (mkAddr 0 s.sp) = .wram s.sp.toNat := region_mirror_wram (by decide) (by omega)
  refine ⟨_, push8_ok.mpr ⟨_, busWrite_wram b hs.map hreg, rfl⟩, ⟨hs.map, hs.e, ?_⟩, ⟨rfl, fun k hk => ?_⟩⟩
  · rw [hs.e]
    exact hiByte_pinSp_true _
  · exact Memory.read_write_other _ _ (by omega)

theorem pushW_inPageOne {s : State} (hs : InPageOne s) (w16 : Bool) (v : Word) :
    ∃ t, pushW s w16 v = .ok t ∧ InPageOne t ∧ TouchesPageOne s t := by
  cases w16 with
  | false => exact push8_inPageOne hs _
  | true =>
    obtain ⟨t, ht, hpt, htouch⟩ := push8_inPageOne hs (hiByte v)
    obtain ⟨u, hu, hpu, htouch'⟩ := push8_inPageOne hpt (loByte v)
    exact ⟨u, bind_eq_ok.mpr ⟨t, ht, hu⟩, hpu, htouch'.io.trans htouch.io,
      fun k hk => (htouch'.wram k hk).trans (htouch.wram k hk)⟩

/-- The instructions that write memory and `S` are those that push. -/
theorem pushes_of_writes (s : State) {i : Instr} (hm : Dest.memory ∈ writes i) (hsp : Dest.s ∈ writes i) :
    ∃ w16 v, Pushes s i w16 v := by
  cases i with
  | php => exact ⟨_, _, .php⟩
  | phb => exact ⟨_, _, .phb⟩
  | phk => exact ⟨_, _, .phk⟩
  | pha => exact ⟨_, _, .pha⟩
  | phx => exact ⟨_, _, .phx⟩
  | phy => exact ⟨_, _, .phy⟩
  | phd => exact ⟨_, _, .phd⟩
  | jsr a => exact ⟨_, _, .jsr a⟩
  | staAbs _ | staLong _ | stzAbs _ | stxLongX _ => simp [writes] at hsp
  | _ => simp [writes, nAndZ, allFlags] at hm

/-- Settles O38: each push stays in page 1, and the next starts there. -/
theorem emulationPushesStayInPageOne : Obligations.EmulationPushesStayInPageOne := by
  intro s i hmap he hsp hm hs
  obtain ⟨w16, v, hp⟩ := pushes_of_writes s hm hs
  obtain ⟨t, ht, hpt, htouch⟩ := pushW_inPageOne ⟨hmap, he, hsp⟩ w16 v
  rw [exec_of_pushes hp]
  exact ⟨_, commit_of_ok ht, hpt.sp, htouch.io, htouch.wram⟩

/-! ### Stores (46_store.md R160 to R163) -/

/-- Which instruction stores what where, at which width, from `s`. -/
inductive Stores (s : State) : Instr → Addr → Bool → Word → Prop
  | staAbs (a : Word) : Stores s (.staAbs a) (absAddr s a) s.acc16 s.a
  | staLong (a : Addr) : Stores s (.staLong a) (longAddr a) s.acc16 s.a
  | stzAbs (a : Word) : Stores s (.stzAbs a) (absAddr s a) s.acc16 0
  | stxLongX (a : Addr) : Stores s (.stxLongX a) (longXAddr s a) (s.reg16 (stored9f s)) (s.reg (stored9f s))

/-- An instruction that stores commits the store. -/
theorem exec_of_stores {s : State} {i : Instr} {a : Addr} {w16 : Bool} {v : Word} (h : Stores s i a w16 v) :
    exec i s = commit i (s.advance i).pc s (memWriteW s w16 a v) := by
  cases h with
    (rw [exec]; refine instr_eq_commit ?_)
  | staAbs _ | staLong _ | stzAbs _ => exact memWriteW_advance s _ _ _ _
  | stxLongX a =>
    have h9f : stored9f (s.advance (.stxLongX a)) = stored9f s := rfl
    rw [h9f, State.reg16_advance, State.reg_advance]
    exact memWriteW_advance s _ _ _ _

/-- Settles O46: at width 8 one write, at width 16 two. -/
theorem storeResults : Obligations.StoreResults := by
  intro s i n addr w16 v h
  have hexec : exec i s = commit i (s.pc + BitVec.ofNat 24 n) s (memWriteW s w16 addr v) := by
    rcases h with ⟨a, rfl, rfl, rfl, rfl, rfl⟩ | ⟨a, rfl, rfl, rfl, rfl, rfl⟩ | ⟨a, rfl, rfl, rfl, rfl, rfl⟩ |
      ⟨a, rfl, rfl, rfl, ⟨h9f, rfl, rfl⟩ | ⟨h9f, rfl, rfl⟩⟩
    · exact exec_of_stores (.staAbs a)
    · exact exec_of_stores (.staLong addr)
    · exact exec_of_stores (.stzAbs a)
    · have hst := exec_of_stores (.stxLongX (s := s) a)
      rw [show stored9f s = .x by rw [stored9f, h9f]] at hst
      exact hst
    · have hst := exec_of_stores (.stxLongX (s := s) a)
      rw [show stored9f s = .a by rw [stored9f, h9f]] at hst
      exact hst
  rw [hexec]
  refine ⟨?_, ?_, fun f hf => ?_⟩
  · rintro rfl t ht
    exact commit_of_ok ht
  · rintro rfl
    exact ⟨fun t u ht hu => commit_of_ok (memWriteW_16.mpr ⟨t, ht, hu⟩),
      fun t f ht hf => commit_of_error (memWriteW_16_error.mpr (.inr ⟨t, ht, hf⟩))⟩
  · cases w16 with
    | false => exact commit_of_error hf
    | true => exact commit_of_error (memWriteW_16_error.mpr (.inl hf))

/-! ### The frame of the stores -/

theorem offOf_add_one_ne (a : Addr) : offOf a ≠ offOf (a + 1) := by
  intro h
  have hnat := congrArg BitVec.toNat h
  have := a.isLt
  simp only [toNat_offOf, BitVec.toNat_add, BitVec.ofNat_eq_ofNat, BitVec.toNat_ofNat] at hnat
  omega

/-- A store stores exactly its bytes. -/
theorem storedExactly_memWriteW {s t : State} {w16 : Bool} {a : Addr} {v : Word} (h : memWriteW s w16 a v = .ok t) :
    StoredExactly s t (span w16 a v) := by
  cases w16 with
  | false => exact storedExactly_busWrite h
  | true =>
    obtain ⟨u, hu, ht⟩ := memWriteW_16.mp h
    exact storedExactly_busWrite_two hu ht (offOf_add_one_ne a)

/-- Settles O47: the frame is that of the store; `PC` and `CYC` are written around it. -/
theorem storeFrame : Obligations.StoreFrame := by
  intro s t i addr w16 v h hexec
  have hst : Stores s i addr w16 v := by
    rcases h with ⟨a, rfl, rfl, rfl, rfl⟩ | ⟨a, rfl, rfl, rfl, rfl⟩ | ⟨a, rfl, rfl, rfl, rfl⟩ | ⟨a, rfl, rfl, rfl, rfl⟩
    · exact .staAbs a
    · exact .staLong _
    · exact .stzAbs a
    · exact .stxLongX a
  rw [exec_of_stores hst] at hexec
  obtain ⟨u, hu, rfl⟩ := commit_eq_next.mp hexec
  have hsp : u.sp = s.sp := by rw [memWriteW_only hu]
  have honly : u = { s with sp := u.sp, wram := u.wram, io := u.io, ioLog := u.ioLog } := by
    rw [hsp]
    exact memWriteW_only hu
  exact ⟨storedExactly_update (storedExactly_memWriteW hu) _ _ u.sp, sameButStore_of_only honly _ _, hsp⟩

end Sys2Proof.Machine
end

section
/-! PROOFS. The statements about the instructions that touch no memory but to fetch (40_status_flag.md, 43_transfer.md, 44_incdec.md,
47_load.md R165 to R167, 49_mode.md), and of the register write (10_state.md R22). First the places of the flags in `P` (R14), then
what each operation makes of the registers and of `P`. -/

namespace Sys2Proof.Machine
open Sys2Proof.Claims

/-! ### The places of the flags (R14) -/

theorem putFlag_n_z (p : Byte) (n z : Bool) : putFlag (putFlag p .n n) .z z = withNZ p n z := by
  cases n <;> cases z <;> revert p <;> decide

theorem putFlag_c (p : Byte) (b : Bool) : putFlag p .c b = withC p b := by
  cases b <;> revert p <;> decide

theorem putFlag_v (p : Byte) (b : Bool) : putFlag p .v b = withV p b := by
  cases b <;> revert p <;> decide

theorem putFlag_m_x (p : Byte) : putFlag (putFlag p .m true) .x true = p ||| 0x30 := BitVec.or_assoc p _ _

/-! ### The register write (R22) -/

/-- `N` and `Z` of a value at a width, as a status byte. -/
theorem putFlag_nz_eq_writtenP (w16 : Bool) (p : Byte) (v : Word) :
    putFlag (putFlag p .n (topBit w16 v)) .z (zeroAt w16 v) = writtenP w16 p v := by
  rw [putFlag_n_z, topBit_eq_msb]
  cases w16 <;> rfl

theorem setNZ_eq (s : State) (w16 : Bool) (v : Word) : s.setNZ w16 v = { s with p := writtenP w16 s.p v } :=
  congrArg (fun p => { s with p := p }) (putFlag_nz_eq_writtenP w16 s.p v)

theorem setReg_a_eq (s : State) (v : Word) :
    s.setReg .a v = { s with a := written s.acc16 s.a v, p := writtenP s.acc16 s.p v } := by
  rw [State.setReg_a, setNZ_eq]
  rfl

theorem setReg_x_eq (s : State) (v : Word) :
    s.setReg .x v = { s with x := written s.idx16 s.x v, p := writtenP s.idx16 s.p v } := by
  rw [State.setReg_x, setNZ_eq]
  rfl

theorem setReg_y_eq (s : State) (v : Word) :
    s.setReg .y v = { s with y := written s.idx16 s.y v, p := writtenP s.idx16 s.p v } := by
  rw [State.setReg_y, setNZ_eq]
  rfl

/-- Settles O34: the statement's words for a write at a width are the model's, with the flags in their places. -/
theorem setRegResult : Obligations.SetRegResult := fun s v => ⟨setReg_a_eq s v, setReg_x_eq s v, setReg_y_eq s v⟩

/-! ### Instructions that complete with a state computed from the registers -/

theorem instr_of_body {i : Instr} {tk : Bool} {s u : State} {body : State → Except Fault State} (h : body (s.advance i) = .ok u) :
    instr i tk s body = .next { u with cyc := s.cyc + s.cycles i tk } := instr_eq_next.mpr ⟨u, h, rfl⟩

/-- An instruction that ends in a register write. -/
theorem instr_setReg {i : Instr} {s : State} {body : State → Except Fault State} {r : Reg} {v : Word} {u : State}
    (hbody : body (s.advance i) = .ok ((s.advance i).setReg r v)) (hset : (s.advance i).setReg r v = u) :
    instr i false s body = .next { u with cyc := s.cyc + s.cycles i false } := instr_of_body (hset ▸ hbody)

/-- Settles O35: one bit of `P` each. -/
theorem statusBitInstructions : Obligations.StatusBitInstructions :=
  ⟨fun _ _ => ⟨rfl, rfl, rfl, rfl, rfl, rfl, rfl⟩, fun _ => ⟨rfl, rfl, rfl, rfl, rfl, rfl, rfl⟩⟩

/-- Settles O42: each is `SetReg` of the source read in full. -/
theorem widthGovernedTransfers : Obligations.WidthGovernedTransfers := by
  intro s
  refine ⟨?_, ?_, ?_⟩
  · rw [exec]
    exact instr_setReg rfl (setReg_x_eq _ _)
  · rw [exec]
    exact instr_setReg rfl (setReg_y_eq _ _)
  · rw [exec]
    exact instr_setReg rfl (setReg_a_eq _ _)

/-- Settles O43. -/
theorem sixteenBitTransfers : Obligations.SixteenBitTransfers := by
  intro s
  refine ⟨?_, rfl⟩
  rw [exec, execTcd, instr_eq_next]
  refine ⟨_, rfl, ?_⟩
  rw [setNZ_eq]
  rfl

/-- The number of bytes of an immediate instruction (30_encoding.md R96), as an address. -/
theorem advance_pc_imm (s : State) (w16 : Bool) {i : Instr} (h : i.length s.widths = if w16 then 3 else 2) :
    (s.advance i).pc = s.pc + (if w16 then 3 else 2) := by
  rw [State.advance_pc, h]
  cases w16 <;> rfl

/-- Settles O49: each is `SetReg` of the operand; the length follows the width. -/
theorem immediateLoads : Obligations.ImmediateLoads := by
  refine ⟨fun x lo hi rest => ⟨rfl, rfl, rfl, rfl, rfl, rfl⟩, fun s v => ⟨?_, ?_, ?_⟩⟩
  · rw [← advance_pc_imm s s.acc16 (i := .ldaImm v) rfl, exec]
    exact instr_setReg rfl (setReg_a_eq _ _)
  · rw [← advance_pc_imm s s.idx16 (i := .ldxImm v) rfl, exec]
    exact instr_setReg rfl (setReg_x_eq _ _)
  · rw [← advance_pc_imm s s.idx16 (i := .ldyImm v) rfl, exec]
    exact instr_setReg rfl (setReg_y_eq _ _)

/-! ### Increment and decrement (44_incdec.md R150 to R153) -/

theorem loByte_add (v w : Word) : loByte (v + w) = loByte v + loByte w := by
  apply BitVec.eq_of_toNat_eq
  simp only [toNat_loByte, BitVec.toNat_add]
  omega

theorem loByte_sub (v w : Word) : loByte (v - w) = loByte v - loByte w := by
  apply BitVec.eq_of_toNat_eq
  simp only [toNat_loByte, BitVec.toNat_sub]
  omega

theorem maskW_add (w16 : Bool) (v w : Word) : maskW w16 (maskW w16 v + w) = maskW w16 (v + w) := by
  cases w16 with
  | true => rfl
  | false => simp only [maskW_false, loByte_add, loByte_zext16]

/-- A register write looks at the value at the width of the register only. -/
theorem setReg_maskW (t : State) (r : Reg) (v : Word) : t.setReg r (maskW (t.reg16 r) v) = t.setReg r v := by
  have hmerge (w16 : Bool) (old : Word) : mergeW w16 old (maskW w16 v) = mergeW w16 old v := by
    cases w16 <;> simp
  have htop (w16 : Bool) : topBit w16 (maskW w16 v) = topBit w16 v := by
    cases w16 <;> simp [topBit_eq_msb]
  have hzero (w16 : Bool) : zeroAt w16 (maskW w16 v) = zeroAt w16 v := by
    cases w16 <;> simp [zeroAt]
  simp only [State.setReg, State.setNZ, hmerge, htop, hzero]

/-- An increment or decrement writes the sum, whatever the width: carries out of the width are dropped by the write. -/
theorem incDec_eq (r : Reg) (delta : Word) (t : State) : incDec r delta t = .ok (t.setReg r (t.reg r + delta)) := by
  rw [incDec, State.regW, maskW_add, setReg_maskW]

theorem instr_incDec_x (s : State) (i : Instr) (delta : Word) : instr i false s (incDec .x delta) = .next { s.advance i with
    cyc := s.cyc + s.cycles i false, x := written s.idx16 s.x (s.x + delta), p := writtenP s.idx16 s.p (s.x + delta) } :=
  instr_setReg (incDec_eq .x delta _) (setReg_x_eq _ _)

theorem instr_incDec_y (s : State) (i : Instr) (delta : Word) : instr i false s (incDec .y delta) = .next { s.advance i with
    cyc := s.cyc + s.cycles i false, y := written s.idx16 s.y (s.y + delta), p := writtenP s.idx16 s.p (s.y + delta) } :=
  instr_setReg (incDec_eq .y delta _) (setReg_y_eq _ _)

theorem written_false_add (old v w : Word) : written false old (v + w) = mk16 (hiByte old) (loByte v + loByte w) := by
  rw [← loByte_add]
  rfl

theorem writtenP_false_add (p : Byte) (v w : Word) : writtenP false p (v + w) = nz8 p (loByte v + loByte w) := by
  rw [← loByte_add]
  rfl

/-- Settles O44: subtracting one is adding minus one, in the word and in its low byte. -/
theorem indexIncrementDecrement : Obligations.IndexIncrementDecrement := by
  refine ⟨fun _ _ => ⟨rfl, rfl, rfl, rfl⟩, fun s hw => ⟨?_, ?_, ?_, ?_⟩, fun s hw => ⟨?_, ?_, ?_, ?_⟩⟩
  · rw [exec, execInx, instr_incDec_x, hw]
    rfl
  · rw [exec, execIny, instr_incDec_y, hw]
    rfl
  · rw [exec, execDex, instr_incDec_x, hw, BitVec.sub_eq_add_neg]
    rfl
  · rw [exec, execDey, instr_incDec_y, hw, BitVec.sub_eq_add_neg]
    rfl
  · rw [exec, execInx, instr_incDec_x, hw, written_false_add, writtenP_false_add]
    rfl
  · rw [exec, execIny, instr_incDec_y, hw, written_false_add, writtenP_false_add]
    rfl
  · rw [exec, execDex, instr_incDec_x, hw, written_false_add, writtenP_false_add, BitVec.sub_eq_add_neg]
    rfl
  · rw [exec, execDey, instr_incDec_y, hw, written_false_add, writtenP_false_add, BitVec.sub_eq_add_neg]
    rfl

/-! ### The mode instructions (49_mode.md R175 to R177) -/

theorem force8_eq (t : State) : t.force8 = { t with p := t.p ||| 0x30 } := congrArg (fun p => { t with p := p }) (putFlag_m_x t.p)

/-- What REP makes of the state past its bytes (R175). -/
theorem rep_eq (t : State) (mask : Byte) :
    (if t.e then ({ t with p := t.p &&& ~~~mask } : State).force8 else { t with p := t.p &&& ~~~mask }) =
      { t with p := if t.e then (t.p &&& ~~~mask) ||| 0x30 else t.p &&& ~~~mask } := by
  split
  · exact force8_eq _
  · rfl

/-- Settles O53: what REP makes of the state past its bytes. -/
theorem resetStatusBits : Obligations.ResetStatusBits := by
  refine ⟨fun _ _ _ => rfl, fun s m => ?_⟩
  rw [exec, execRep, instr_eq_next]
  refine ⟨_, rfl, ?_⟩
  have hrep := rep_eq (s.advance (.rep m)) m
  exact congrArg (fun u : State => { u with cyc := s.cyc + s.cycles (.rep m) false }) hrep

theorem clearHigh_eq (v : Word) : clearHigh v = v &&& 0x00FF := (zext16_eq (loByte v)).symm.trans (maskW_false v).symm

/-- A bit of a mask as a choice (R176). -/
theorem ite_getLsbD {α : Type} (mask : Byte) (f : Flag) (u v : α) :
    (if mask.getLsbD f.bit then u else v) = if mask &&& f.mask = 0 then v else u := by
  have hbit : mask.getLsbD f.bit = true ↔ ¬ mask &&& f.mask = 0 := by
    revert mask
    cases f <;> decide
  by_cases h : mask &&& f.mask = 0
  · rw [if_pos h, if_neg (mt hbit.mp (not_not_intro h))]
  · rw [if_neg h, if_pos (hbit.mpr h)]

/-- What SEP makes of a state whose flags are set (R176). -/
theorem sep_clear_eq (u : State) (mask : Byte) :
    (if mask.getLsbD 5 then
        { (if mask.getLsbD 4 then { u with x := clearHigh u.x, y := clearHigh u.y } else u) with
          a := clearHigh (if mask.getLsbD 4 then { u with x := clearHigh u.x, y := clearHigh u.y } else u).a }
      else (if mask.getLsbD 4 then { u with x := clearHigh u.x, y := clearHigh u.y } else u)) =
      { u with
        x := if mask.getLsbD 4 then clearHigh u.x else u.x, y := if mask.getLsbD 4 then clearHigh u.y else u.y,
        a := if mask.getLsbD 5 then clearHigh u.a else u.a } := by
  cases mask.getLsbD 4 <;> cases mask.getLsbD 5 <;> rfl

/-- Settles O54: `X` and `M` are bits 4 and 5. -/
theorem setStatusBits : Obligations.SetStatusBits := by
  intro s m
  have hx (u v : Word) : (if m.getLsbD 4 then u else v) = if m &&& 0x10 = 0 then v else u := ite_getLsbD m .x u v
  have hm (u v : Word) : (if m.getLsbD 5 then u else v) = if m &&& 0x20 = 0 then v else u := ite_getLsbD m .m u v
  rw [exec, execSep, instr_eq_next]
  refine ⟨_, rfl, ?_⟩
  rw [sep_clear_eq, hx, hx, hm]
  simp only [clearHigh_eq]
  rfl

/-- The exchange of `E` and `C`, before anything is forced (R177). -/
theorem exchange_eq (t : State) :
    ({ t with e := t.flag .c }.setFlag .c t.e) = { t with e := t.flag .c, p := withC t.p t.e } :=
  congrArg (fun p => { t with e := t.flag .c, p := p }) (putFlag_c t.p t.e)

/-- The five forced values, `M` and `X` as bits of `P` (R177). -/
theorem enterEmulation_eq (t : State) : t.enterEmulation =
    { t with p := t.p ||| 0x30, sp := mk16 0x01 (loByte t.sp), x := t.x &&& 0x00FF, y := t.y &&& 0x00FF } := by
  rw [State.enterEmulation, force8_eq, clearHigh_eq, clearHigh_eq]
  rfl

theorem exec_xce_clear {s : State} (hc : s.flag .c = false) : exec .xce s = .next { s with
    pc := s.pc + 1, cyc := s.cyc + s.cycles .xce false, e := false, p := withC s.p s.e } := by
  rw [exec, execXce, instr_eq_next]
  refine ⟨_, rfl, ?_⟩
  rw [exchange_eq]
  simp only [State.flag_advance, hc, Bool.false_eq_true, if_false]
  rfl

theorem exec_xce_set {s : State} (hc : s.flag .c = true) : exec .xce s = .next { s with
    pc := s.pc + 1, cyc := s.cyc + s.cycles .xce false, e := true, p := withC s.p s.e ||| 0x30, sp := mk16 0x01 (loByte s.sp),
    x := s.x &&& 0x00FF, y := s.y &&& 0x00FF } := by
  rw [exec, execXce, instr_eq_next]
  refine ⟨_, rfl, ?_⟩
  rw [exchange_eq]
  simp only [State.flag_advance, hc, if_true, enterEmulation_eq]
  rfl

theorem getLsbD_withC (p : Byte) (b : Bool) : (withC p b).getLsbD 0 = b ∧ (withC p b ||| 0x30).getLsbD 0 = b := by
  cases b <;> revert p <;> decide

/-- `E` and `C` are exchanged, whatever else is forced. -/
theorem xce_exchanges {s t : State} (h : exec .xce s = .next t) : t.e = s.flag .c ∧ t.flag .c = s.e := by
  obtain ⟨hclear, hset⟩ := getLsbD_withC s.p s.e
  cases hc : s.flag .c with
  | false =>
    rw [exec_xce_clear hc] at h
    cases h
    exact ⟨rfl, hclear⟩
  | true =>
    rw [exec_xce_set hc] at h
    cases h
    exact ⟨rfl, hset⟩

/-- Settles O55: a second exchange undoes the first, whatever was forced between. -/
theorem exchangeCarryAndEmulation : Obligations.ExchangeCarryAndEmulation := by
  refine ⟨fun _ _ => rfl, fun s => exec_xce_clear, fun s => exec_xce_set, fun s t u ht hu => ?_⟩
  obtain ⟨hte, htc⟩ := xce_exchanges ht
  obtain ⟨hue, huc⟩ := xce_exchanges hu
  exact ⟨hue.trans htc, huc.trans hte⟩

end Sys2Proof.Machine
end

section
/-! PROOFS. The statements about the instructions that compute on the accumulator (45_compare.md, 47_load.md R168, 48_sbc.md). At width 8
they work on zero-extended low bytes, so each law is proved of bytes and words, and the model's operations are brought to it. -/

namespace Sys2Proof.Machine
open Sys2Proof.Claims

/-! ### Compare (45_compare.md R155) -/

theorem zext16_beq (b c : Byte) : (zext16 b == zext16 c) = (b == c) := by
  have h : zext16 b = zext16 c ↔ b = c := ⟨fun h => by rw [← loByte_zext16 b, h, loByte_zext16], fun h => by rw [h]⟩
  rw [Bool.eq_iff_iff, beq_iff_eq, beq_iff_eq, h]

theorem compareA_eq (t : State) (m : Word) : compareA t m = { t with
    p := withC (withNZ t.p (topBit t.acc16 (maskW t.acc16 (t.regW .a - m))) (t.regW .a == m))
      (decide (m.toNat ≤ (t.regW .a).toNat)) } := by
  refine congrArg (fun p => { t with p := p }) ?_
  rw [← putFlag_n_z, ← putFlag_c]
  rfl

theorem compareA_16 {t : State} (hw : t.acc16 = true) (m : Word) : compareA t m = { t with
    p := withC (withNZ t.p (t.a - m).msb (t.a == m)) (decide (m.toNat ≤ t.a.toNat)) } := by
  have ha : t.regW .a = t.a := by rw [State.regW, State.reg16, hw]; rfl
  rw [compareA_eq, ha, hw, topBit_eq_msb]
  rfl

theorem compareA_8 {t : State} (hw : t.acc16 = false) (m : Byte) : compareA t (zext16 m) = { t with
    p := withC (withNZ t.p (loByte t.a - m).msb (loByte t.a == m)) (decide (m.toNat ≤ (loByte t.a).toNat)) } := by
  have ha : t.regW .a = zext16 (loByte t.a) := by rw [State.regW, State.reg16, hw]; exact maskW_false t.a
  rw [compareA_eq, ha, hw, topBit_eq_msb, zext16_beq, toNat_zext16, toNat_zext16, loByte_maskW, loByte_sub, loByte_zext16,
    loByte_zext16]
  rfl

/-- CMP reads at the start of the step and compares past its bytes. -/
theorem exec_cmpAbs_of_ok {s : State} {a m : Word} (h : memReadW s s.acc16 (mkAddr s.dbr a) = .ok m) {u : State}
    (hu : compareA (s.advance (.cmpAbs a)) m = u) :
    exec (.cmpAbs a) s = .next { u with cyc := s.cyc + s.cycles (.cmpAbs a) false } := by
  rw [exec]
  exact instr_of_body (bind_eq_ok.mpr ⟨m, h, congrArg Except.ok hu⟩)

theorem exec_cmpAbs_of_error {s : State} {a : Word} {f : Fault} (h : memReadW s s.acc16 (mkAddr s.dbr a) = .error f) :
    exec (.cmpAbs a) s = .fault f := by
  rw [exec]
  exact instr_eq_fault.mpr (bind_eq_error.mpr (.inl h))

/-- Settles O45: the value is read at the width, and compared at it. -/
theorem compareAbsolute : Obligations.CompareAbsolute := by
  intro s a
  refine ⟨fun hw m hm => ?_, fun hw lo hi hlo hhi => ?_, fun f hf => ?_, fun hw lo f hlo hf => ?_⟩
  · have hread : memReadW s s.acc16 (mkAddr s.dbr a) = .ok (zext16 m) := by
      rw [hw]
      exact memReadW_8.mpr ⟨m, hm, rfl⟩
    exact exec_cmpAbs_of_ok hread (compareA_8 (t := s.advance _) hw m)
  · have hread : memReadW s s.acc16 (mkAddr s.dbr a) = .ok (mk16 hi lo) := by
      rw [hw]
      exact memReadW_16.mpr ⟨lo, hi, hlo, hhi, rfl⟩
    exact exec_cmpAbs_of_ok hread (compareA_16 (t := s.advance _) hw _)
  · refine exec_cmpAbs_of_error ?_
    cases s.acc16 with
    | false => exact memReadW_8_error.mpr hf
    | true => exact memReadW_16_error.mpr (.inl hf)
  · refine exec_cmpAbs_of_error ?_
    rw [hw]
    exact memReadW_16_error.mpr (.inr ⟨lo, hlo, hf⟩)

/-! ### The indirect long load (47_load.md R168) -/

/-- `Y` at the index width, as a displacement. -/
theorem setWidth_maskW (w16 : Bool) (v : Word) :
    (maskW w16 v).setWidth 24 = if w16 then v.setWidth 24 else (loByte v).setWidth 24 := by
  cases w16 with
  | true => rfl
  | false =>
    rw [maskW_false]
    apply BitVec.eq_of_toNat_eq
    simp only [BitVec.toNat_setWidth, toNat_zext16, Bool.false_eq_true, if_false]

theorem dpilyAddr_ok {s : State} {dp p0 p1 p2 : Byte} (h0 : busRead s (mkAddr 0 (dpPointer s dp)) = .ok p0)
    (h1 : busRead s (mkAddr 0 (dpPointer s dp + 1)) = .ok p1) (h2 : busRead s (mkAddr 0 (dpPointer s dp + 2)) = .ok p2) :
    dpilyAddr s dp = .ok (mk24 p2 p1 p0 + if s.idx16 then s.y.setWidth 24 else (loByte s.y).setWidth 24) := by
  rw [← setWidth_maskW]
  exact bind_eq_ok.mpr ⟨_, memRead0Long_ok.mpr ⟨p0, p1, p2, h0, h1, h2, rfl⟩, rfl⟩

/-- The three parts of the load: the pointer, the value, the register write. -/
theorem exec_ldaDpily_of_ok {s : State} {dp : Byte} {addr : Addr} {v : Word} (haddr : dpilyAddr s dp = .ok addr)
    (hv : memReadW s s.acc16 addr = .ok v) : exec (.ldaDpily dp) s = .next { s with
      pc := s.pc + 2, cyc := s.cyc + s.cycles (.ldaDpily dp) false,
      a := written s.acc16 s.a v, p := writtenP s.acc16 s.p v } := by
  have hset := setReg_a_eq (s.advance (.ldaDpily dp)) v
  rw [exec]
  refine instr_setReg (bind_eq_ok.mpr ⟨addr, haddr, ?_⟩) hset
  exact bind_eq_ok.mpr ⟨v, hv, rfl⟩

theorem exec_ldaDpily_of_pointer_error {s : State} {dp : Byte} {f : Fault} (h : memRead0Long s (dpPointer s dp) = .error f) :
    exec (.ldaDpily dp) s = .fault f := by
  rw [exec]
  exact instr_eq_fault.mpr (bind_eq_error.mpr (.inl (bind_eq_error.mpr (.inl h))))

theorem exec_ldaDpily_of_data_error {s : State} {dp : Byte} {addr : Addr} {f : Fault} (haddr : dpilyAddr s dp = .ok addr)
    (h : memReadW s s.acc16 addr = .error f) : exec (.ldaDpily dp) s = .fault f := by
  rw [exec]
  exact instr_eq_fault.mpr (bind_eq_error.mpr (.inr ⟨addr, haddr, bind_eq_error.mpr (.inl h)⟩))

/-- Settles O50: the pointer's three bytes, then the data bytes, in the order of the reads. -/
theorem indirectLongLoad : Obligations.IndirectLongLoad := by
  intro s dp p0 p1 p2 q addr
  refine ⟨fun h0 h1 h2 => ?_, fun f h0 => ?_, fun f h0 h1 => ?_, fun f h0 h1 h2 => ?_⟩
  · have haddr : dpilyAddr s dp = .ok addr := dpilyAddr_ok h0 h1 h2
    refine ⟨fun hw b hb => ?_, fun hw lo hi hlo hhi => ?_, fun f hf => ?_, fun hw lo f hlo hf => ?_⟩
    · have hread : memReadW s s.acc16 addr = .ok (zext16 b) := by
        rw [hw]
        exact memReadW_8.mpr ⟨b, hb, rfl⟩
      rw [exec_ldaDpily_of_ok haddr hread, hw, written, writtenP, loByte_zext16]
      rfl
    · have hread : memReadW s s.acc16 addr = .ok (mk16 hi lo) := by
        rw [hw]
        exact memReadW_16.mpr ⟨lo, hi, hlo, hhi, rfl⟩
      rw [exec_ldaDpily_of_ok haddr hread, hw]
      rfl
    · refine exec_ldaDpily_of_data_error haddr ?_
      cases s.acc16 with
      | false => exact memReadW_8_error.mpr hf
      | true => exact memReadW_16_error.mpr (.inl hf)
    · refine exec_ldaDpily_of_data_error haddr ?_
      rw [hw]
      exact memReadW_16_error.mpr (.inr ⟨lo, hlo, hf⟩)
  · exact exec_ldaDpily_of_pointer_error (memRead0Long_error.mpr (.inl h0))
  · exact exec_ldaDpily_of_pointer_error (memRead0Long_error.mpr (.inr ⟨p0, h0, .inl h1⟩))
  · exact exec_ldaDpily_of_pointer_error (memRead0Long_error.mpr (.inr ⟨p0, h0, .inr ⟨p1, h1, h2⟩⟩))

/-! ### Subtraction (48_sbc.md R170, R171) -/

/-- The rule of signs: with a top bit worth `H`, operands `a` and `m`, borrow `bw` and the result `r` modulo `2 * H`, the signed
difference leaves the range exactly when `a` and `m` differ in sign and `a` and `r` do. -/
theorem signed_overflow_iff {H a m r bw : Nat} (ha : a < 2 * H) (hm : m < 2 * H) (hbw : bw ≤ 1)
    (hr : r = if m + bw ≤ a then a - (m + bw) else a + 2 * H - (m + bw)) :
    ((H ≤ a ↔ ¬ H ≤ m) ∧ (H ≤ a ↔ ¬ H ≤ r)) ↔
      let signed : Int := (if H ≤ a then (a : Int) - 2 * H else a) - (if H ≤ m then (m : Int) - 2 * H else m) - bw
      signed < -H ∨ (H : Int) - 1 < signed := by
  split at hr <;> split <;> split <;> simp only [] <;> omega

theorem xor_decide_eq_true (A B : Prop) [Decidable A] [Decidable B] : (decide A ^^ decide B) = true ↔ (A ↔ ¬ B) := by
  by_cases hA : A <;> by_cases hB : B <;> simp [hA, hB]

/-- The overflow bit of R170 on words of `w + 1` bits, given the difference as a number. -/
theorem msb_overflow {w bw : Nat} {a m r : BitVec (w + 1)} (hbw : bw ≤ 1)
    (hr : r.toNat = if m.toNat + bw ≤ a.toNat then a.toNat - (m.toNat + bw) else a.toNat + 2 * 2 ^ w - (m.toNat + bw)) :
    ((a ^^^ m) &&& (a ^^^ r)).msb =
      decide (a.toInt - m.toInt - bw < -((2 ^ w : Nat) : Int) ∨ ((2 ^ w : Nat) : Int) - 1 < a.toInt - m.toInt - bw) := by
  have hpow : 2 ^ (w + 1) = 2 * 2 ^ w := by ring
  have hmsb (x : BitVec (w + 1)) : x.msb = decide (2 ^ w ≤ x.toNat) := BitVec.msb_eq_decide x
  have hint (x : BitVec (w + 1)) : x.toInt = if 2 ^ w ≤ x.toNat then (x.toNat : Int) - 2 * (2 ^ w : Nat) else x.toNat := by
    rw [BitVec.toInt_eq_msb_cond, hmsb, hpow]
    simp
  have hrule := signed_overflow_iff (H := 2 ^ w) (hpow ▸ a.isLt) (hpow ▸ m.isLt) hbw hr
  rw [Bool.eq_iff_iff, decide_eq_true_iff, BitVec.msb_and, BitVec.msb_xor, BitVec.msb_xor, Bool.and_eq_true, hmsb a, hmsb m, hmsb r,
    xor_decide_eq_true, xor_decide_eq_true, hint a, hint m]
  exact hrule

theorem borrow_le_one (c : Bool) : borrow c ≤ 1 := by cases c <;> decide

theorem borrow_add_toNat (c : Bool) : borrow c + c.toNat = 1 := by cases c <;> rfl

theorem toNat_sub_sub_word {bw : Nat} (a m : Word) (hbw : bw ≤ 1) : (a - m - BitVec.ofNat 16 bw).toNat =
    if m.toNat + bw ≤ a.toNat then a.toNat - (m.toNat + bw) else a.toNat + 2 * 2 ^ 15 - (m.toNat + bw) := by
  have ha := a.isLt
  have hm := m.isLt
  simp only [BitVec.toNat_sub, BitVec.toNat_ofNat]
  split <;> omega

theorem toNat_sub_sub_byte {bw : Nat} (a m : Byte) (hbw : bw ≤ 1) : (a - m - BitVec.ofNat 8 bw).toNat =
    if m.toNat + bw ≤ a.toNat then a.toNat - (m.toNat + bw) else a.toNat + 2 * 2 ^ 7 - (m.toNat + bw) := by
  have ha := a.isLt
  have hm := m.isLt
  simp only [BitVec.toNat_sub, BitVec.toNat_ofNat]
  split <;> omega

/-! #### At width 16 -/

theorem subSum_16 (a m : Word) (c : Bool) : subSum true a m c + m.toNat + borrow c = a.toNat + 0x10000 := by
  have hm := m.isLt
  have hb := borrow_add_toNat c
  simp only [subSum, maskW_true, BitVec.toNat_not]
  omega

theorem subCarry_16 (a m : Word) (c : Bool) : subCarry true a m c = decide (m.toNat + borrow c ≤ a.toNat) := by
  have hsum := subSum_16 a m c
  simp only [subCarry, maxW, if_true]
  exact decide_eq_decide.mpr (by omega)

theorem subRes_16 (a m : Word) (c : Bool) : subRes true a m c = a - m - BitVec.ofNat 16 (borrow c) := by
  have hsum := subSum_16 a m c
  have ha := a.isLt
  have hm := m.isLt
  apply BitVec.eq_of_toNat_eq
  rw [toNat_sub_sub_word a m (borrow_le_one c), subRes, maskW_true, BitVec.toNat_ofNat]
  split <;> omega

theorem subOverflow_16 (a m : Word) {bw : Nat} (hbw : bw ≤ 1) : subOverflow true a m (a - m - BitVec.ofNat 16 bw) =
    decide (a.toInt - m.toInt - bw < -0x8000 ∨ 0x7FFF < a.toInt - m.toInt - bw) := by
  rw [subOverflow, topBit_eq_msb]
  exact msb_overflow hbw (toNat_sub_sub_word a m hbw)

/-! #### At width 8 -/

theorem subSum_8 (a m : Byte) (c : Bool) : subSum false (zext16 a) (zext16 m) c + m.toNat + borrow c = a.toNat + 0x100 := by
  have hm := m.isLt
  have hb := borrow_add_toNat c
  simp only [subSum, maskW_false, toNat_zext16, toNat_loByte, BitVec.toNat_not]
  omega

theorem subCarry_8 (a m : Byte) (c : Bool) :
    subCarry false (zext16 a) (zext16 m) c = decide (m.toNat + borrow c ≤ a.toNat) := by
  have hsum := subSum_8 a m c
  simp only [subCarry, maxW, Bool.false_eq_true, if_false]
  exact decide_eq_decide.mpr (by omega)

theorem loByte_subRes_8 (a m : Byte) (c : Bool) :
    loByte (subRes false (zext16 a) (zext16 m) c) = a - m - BitVec.ofNat 8 (borrow c) := by
  have hsum := subSum_8 a m c
  have ha := a.isLt
  have hm := m.isLt
  apply BitVec.eq_of_toNat_eq
  rw [toNat_sub_sub_byte a m (borrow_le_one c), subRes, loByte_maskW, toNat_loByte, BitVec.toNat_ofNat]
  split <;> omega

theorem loByte_and (v w : Word) : loByte (v &&& w) = loByte v &&& loByte w := BitVec.extractLsb'_and

theorem loByte_xor (v w : Word) : loByte (v ^^^ w) = loByte v ^^^ loByte w := BitVec.extractLsb'_xor

theorem subOverflow_8 (a m : Byte) {bw : Nat} {r : Word} (hbw : bw ≤ 1) (hr : loByte r = a - m - BitVec.ofNat 8 bw) :
    subOverflow false (zext16 a) (zext16 m) r =
      decide (a.toInt - m.toInt - bw < -0x80 ∨ 0x7F < a.toInt - m.toInt - bw) := by
  have hlo : loByte ((zext16 a ^^^ zext16 m) &&& (zext16 a ^^^ r)) = (a ^^^ m) &&& (a ^^^ loByte r) := by
    rw [loByte_and, loByte_xor, loByte_xor, loByte_zext16, loByte_zext16]
  rw [subOverflow, topBit_eq_msb, hlo, hr]
  exact msb_overflow hbw (toNat_sub_sub_byte a m hbw)

/-! #### The instruction -/

theorem subtractA_eq (t : State) (imm : Word) :
    let w := t.acc16
    let m := maskW w imm
    let res := subRes w (t.regW .a) m (t.flag .c)
    subtractA t imm = { t with
      a := mergeW w t.a res
      p := withNZ (withV (withC t.p (subCarry w (t.regW .a) m (t.flag .c))) (subOverflow w (t.regW .a) m res))
        (topBit w res) (zeroAt w res) } := by
  simp only [subtractA, State.setFlag, State.autoN, State.autoZ, putFlag_c, putFlag_v, putFlag_n_z]

theorem subtractA_16 {t : State} (hw : t.acc16 = true) (imm : Word) :
    let bw := borrow (t.flag .c)
    let res : Word := t.a - imm - BitVec.ofNat 16 bw
    let signed : Int := t.a.toInt - imm.toInt - bw
    subtractA t imm = { t with
      a := res
      p := withNZ (withV (withC t.p (decide (imm.toNat + bw ≤ t.a.toNat))) (decide (signed < -0x8000 ∨ 0x7FFF < signed)))
        res.msb (res == 0) } := by
  have ha : t.regW .a = t.a := by rw [State.regW, State.reg16, hw]; rfl
  intro bw res signed
  have hover : subOverflow true t.a imm res = decide (signed < -0x8000 ∨ 0x7FFF < signed) :=
    subOverflow_16 t.a imm (borrow_le_one _)
  have htop : topBit true res = res.msb := topBit_eq_msb true res
  rw [subtractA_eq, ha, hw, maskW_true, subRes_16, subCarry_16, hover, htop]
  rfl

theorem subtractA_8 {t : State} (hw : t.acc16 = false) (imm : Word) :
    let bw := borrow (t.flag .c)
    let av : Byte := loByte t.a
    let m : Byte := loByte imm
    let res : Byte := av - m - BitVec.ofNat 8 bw
    let signed : Int := av.toInt - m.toInt - bw
    subtractA t imm = { t with
      a := mk16 (hiByte t.a) res
      p := withNZ (withV (withC t.p (decide (m.toNat + bw ≤ av.toNat))) (decide (signed < -0x80 ∨ 0x7F < signed)))
        res.msb (res == 0) } := by
  have ha : t.regW .a = zext16 (loByte t.a) := by rw [State.regW, State.reg16, hw]; exact maskW_false t.a
  intro bw av m res signed
  have hres : loByte (subRes false (zext16 av) (zext16 m) (t.flag .c)) = res := loByte_subRes_8 av m _
  have hover : subOverflow false (zext16 av) (zext16 m) (subRes false (zext16 av) (zext16 m) (t.flag .c)) =
      decide (signed < -0x80 ∨ 0x7F < signed) := subOverflow_8 av m (borrow_le_one _) hres
  have htop : topBit false (subRes false (zext16 av) (zext16 m) (t.flag .c)) = res.msb := by
    rw [topBit_eq_msb, hres]
    rfl
  have hzero : zeroAt false (subRes false (zext16 av) (zext16 m) (t.flag .c)) = (res == 0) := by
    rw [zeroAt, hres]
    rfl
  rw [subtractA_eq, ha, hw, maskW_false, subCarry_8, hover, htop, hzero, mergeW_false, hres]

/-- SBC completes unless it is decimal at width 8. -/
theorem exec_sbcImm_of_ok {s u : State} {imm : Word} (hd : (s.flag .d && !s.acc16) = false)
    (hu : subtractA (s.advance (.sbcImm imm)) imm = u) :
    exec (.sbcImm imm) s = .next { u with cyc := s.cyc + s.cycles (.sbcImm imm) false } := by
  rw [exec, execSbcImm]
  refine instr_of_body ?_
  rw [State.flag_advance, State.acc16_advance, hd, hu]
  rfl

/-- Settles O51: at width 16 the decimal flag is not asked. -/
theorem subtractAtWidth16 : Obligations.SubtractAtWidth16 := by
  intro s imm hw bw res signed
  have hsub := subtractA_16 (t := s.advance (.sbcImm imm)) hw imm
  have hpc : (s.advance (.sbcImm imm)).pc = s.pc + 3 := by rw [advance_pc_imm s s.acc16 rfl, hw]; rfl
  rw [exec_sbcImm_of_ok (by rw [hw, Bool.not_true, Bool.and_false]) hsub, ← hpc]
  rfl

/-- Settles O52: on the low bytes, or the fault of decimal mode. -/
theorem subtractAtWidth8 : Obligations.SubtractAtWidth8 := by
  intro s imm hw bw av m res signed
  have hsub := subtractA_8 (t := s.advance (.sbcImm imm)) hw imm
  have hpc : (s.advance (.sbcImm imm)).pc = s.pc + 2 := by rw [advance_pc_imm s s.acc16 rfl, hw]; rfl
  refine ⟨fun hd => ?_, fun hd => ?_⟩
  · rw [exec_sbcImm_of_ok (by rw [hd, Bool.false_and]) hsub, ← hpc]
    rfl
  · rw [exec, execSbcImm, instr_eq_fault, State.flag_advance, State.acc16_advance, hd, hw]
    rfl

end Sys2Proof.Machine
end

section
/-! PROOFS. The statements of 70_reset_and_hazards.md about reset: the copier header (R200), the header locator (R201, R202), what reset
leaves (R205, 10_state.md R40), and the machines that cannot run (R205, R227). -/

namespace Sys2Proof.Machine
open Sys2Proof.Claims

/-! ### The copier header (R200) -/

theorem stripCopier_of_ne {raw : Image} (h : raw.size % 1024 ≠ 512) : stripCopier raw = raw := if_neg h

theorem stripCopier_of_eq {raw : Image} (h : raw.size % 1024 = 512) : stripCopier raw = raw.drop 512 := if_pos h

/-- What is left has no copier header of its own. -/
theorem stripCopier_drop {raw : Image} (h : raw.size % 1024 = 512) : stripCopier (raw.drop 512) = raw.drop 512 := by
  refine stripCopier_of_ne ?_
  have hsize : (raw.drop 512).size = raw.size - 512 := rfl
  omega

/-- Settles O58: reset reads the buffer only once it is stripped. -/
theorem copierHeaderStripped : Obligations.CopierHeaderStripped := by
  intro regs src costs raw
  refine ⟨fun h => ⟨?_, rfl, fun i => Image.byte_drop raw 512 i⟩, fun s h hs => ?_⟩
  · rw [resetMachine, resetMachine, stripCopier_drop h, stripCopier_of_eq h]
  · obtain ⟨map, -, rfl⟩ := resetMachine_eq_next.mp hs
    exact stripCopier_of_ne h

/-! ### The header locator (R201, R202) -/

/-- Map-mode nibble 3 is fatal. -/
theorem score_of_eq {rom : Image} {c : MapMode} (h : mapNibble rom c = 3) :
    score rom c = .error (.unsupportedAddressingScheme (.mapMode 3)) := by
  rw [score, h]
  rfl

theorem ite_sub_ten (P : Prop) [Decidable P] (b : Int) : (if P then b - 10 else b) = b + (if P then -10 else 0) := by
  split <;> omega

/-- The score by nibble and vector, the scheme being HiROM or not. -/
theorem score_of_ne {rom : Image} {c : MapMode} (h : mapNibble rom c ≠ 3) :
    score rom c = .ok (headerScore (decide (c = .hiROM)) (mapNibble rom c) (resetVector rom c)) := by
  have hmode : modeScore (mapNibble rom c) c = .ok (if mapNibble rom c = 0 then (if decide (c = .hiROM) then -10 else 1)
      else if mapNibble rom c = 1 then (if decide (c = .hiROM) then 1 else -10) else -100) := by
    unfold modeScore
    split
    · cases c <;> rfl
    · split
      · cases c <;> rfl
      · rfl
  rw [score, hmode]
  cases c with
  | loROM => exact congrArg Except.ok (ite_sub_ten _ _)
  | hiROM => exact congrArg Except.ok (ite_sub_ten _ _)

theorem locateHeader_of_unreachable {rom : Image} (h : reachable rom .loROM = false) :
    locateHeader rom = .error (.ioError rom.size) := by
  simp only [locateHeader, h, Bool.false_eq_true, if_false]

/-- The candidates are scored in turn, and HiROM wins only with the better score. -/
theorem locateHeader_of_reachable {rom : Image} (h : reachable rom .loROM = true) :
    locateHeader rom = (score rom .loROM).bind fun lo => if reachable rom .hiROM then
      (score rom .hiROM).bind fun hi => .ok (if lo < hi then .hiROM else .loROM) else .ok .loROM := by
  simp only [locateHeader, h, if_true]
  rfl

theorem reachable_hiROM (rom : Image) : reachable rom .hiROM = decide (0xFFFE ≤ rom.size) := rfl

theorem resetMachine_of_error {regs : ResetRegs} {src : P9FSource} {costs : CycleTable} {rom : Image} {f : Fault}
    (hstrip : stripCopier rom = rom) (h : locateHeader rom = .error f) : resetMachine regs src costs rom = .fault f := by
  rw [resetMachine, hstrip, h]

theorem resetMachine_of_ok {regs : ResetRegs} {src : P9FSource} {costs : CycleTable} {rom : Image} {map : MapMode}
    (hstrip : stripCopier rom = rom) (h : locateHeader rom = .ok map) :
    resetMachine regs src costs rom = .next (initialState regs src costs rom map) := by
  rw [resetMachine, hstrip, h]

/-- Settles O57. -/
theorem headerLocation : Obligations.HeaderLocation := by
  intro regs src costs rom hsize lo hi
  have hstrip := stripCopier_of_ne hsize
  have hlo (h : nibbleAt rom 0x7FD5 ≠ 3) : score rom .loROM = .ok lo := score_of_ne h
  have hlo3 (h : nibbleAt rom 0x7FD5 = 3) : score rom .loROM = .error (.unsupportedAddressingScheme (.mapMode 3)) := score_of_eq h
  have hhi3 (h : nibbleAt rom 0xFFD5 = 3) : score rom .hiROM = .error (.unsupportedAddressingScheme (.mapMode 3)) := score_of_eq h
  have hreachLo (h : 0x7FFE ≤ rom.size) := locateHeader_of_reachable (rom := rom) (decide_eq_true h)
  have hhi (h : nibbleAt rom 0xFFD5 ≠ 3) : score rom .hiROM = .ok hi := score_of_ne h
  refine ⟨fun hsmall => ?_, fun hreach h3 => ?_, fun hreach hsmall hne => ?_, fun hreach hne h3 => ?_, fun hreach hne hne' => ?_⟩
  · exact resetMachine_of_error hstrip (locateHeader_of_unreachable (decide_eq_false (Nat.not_le_of_lt hsmall)))
  · refine resetMachine_of_error hstrip ?_
    rw [hreachLo hreach, hlo3 h3]
    rfl
  · refine resetMachine_of_ok hstrip ?_
    rw [hreachLo hreach, hlo hne, reachable_hiROM, decide_eq_false (by omega)]
    rfl
  · refine resetMachine_of_error hstrip ?_
    rw [hreachLo (by omega), hlo hne, reachable_hiROM, decide_eq_true hreach, hhi3 h3]
    rfl
  · refine resetMachine_of_ok hstrip ?_
    rw [hreachLo (by omega), hlo hne, reachable_hiROM, decide_eq_true hreach, hhi hne']
    rfl

/-! ### What reset leaves (R205, 10_state.md R40) -/

/-- Settles O14: the emulation invariant as for any reset, the rest computed. -/
theorem resetStateMeetsInvariants : Obligations.ResetStateMeetsInvariants :=
  ⟨⟨reset_emulationInv, by decide, by decide⟩, rfl⟩

/-- Settles O56: a successful reset is `initialState`, whose work RAM lists nothing. -/
theorem resetValues : Obligations.ResetValues := by
  intro src costs raw s h
  obtain ⟨map, -, rfl⟩ := resetMachine_eq_next.mp h
  refine ⟨by cases map <;> rfl, fun a b hb k hk => ?_⟩
  rw [busRead_wram _ hk] at hb
  exact (Except.ok.inj hb).symm

/-! ### Machines that cannot run -/

/-- Settles O59: a failed reset latches its fault, and a latched machine repeats it. -/
theorem failedResetNeverSteps : Obligations.FailedResetNeverSteps := by
  intro regs src costs raw f h
  have hfault : (boot regs src costs raw).fault = some { cause := f, pc := none } := by rw [boot, h]
  exact ⟨hfault, step_latched hfault, by rw [step_latched hfault]; exact State.takeFault_of_some f hfault⟩

/-- Settles O60: the first opcode byte is the cartridge's, which no read reaches under HiROM. -/
theorem hiRomImageCannotRun : Obligations.HiRomImageCannotRun := by
  intro src costs raw s h hmap hpc
  obtain ⟨map, -, rfl⟩ := resetMachine_eq_next.mp h
  refine step_of_fetchInstr_error rfl (fetchInstr_of_opcode_error (busRead_cart_hiRom hmap ?_))
  have hoff : 0xC000 ≤ (offOf (mkAddr 0x00 (resetVector (stripCopier raw) map))).toNat := hpc
  rw [offOf_mkAddr] at hoff
  exact region_cart (b := 0x00) (by decide) (by decide) fun _ => by omega

end Sys2Proof.Machine
end
